-- ==== Sys2Proof/Word.lean ====
section
/-!
DEFINITION. The words of the frame protocol engine (00_scope.md R14): bytes and exact rationals.
-/

namespace Sys2Proof

/-- `u8` of R14: one byte of a payload, a buffer or a command. -/
abbrev Byte := BitVec 8

/-- `Q` of R14: the rationals, the type of physical values, factors, offsets, minima and maxima.
Every rule on them is exact (R144, decision D3). -/
abbrev Q := Rat

end Sys2Proof
end

