-- ==== Sys2Proof/Config.lean ====
section
/-!
DEFINITION. What an implementation fixes: the constants of 00_scope.md R7, R8 and R11, the type of the
configuration record CFG (10_state.md R21, R23), the example configuration EX1 of 95_test_vectors.md
section 1, and the free values the spec leaves open (93_implementation_defined.md U6, U7).

CFG itself is a field of `Machine.State` that no step writes (DESIGN CHOICE, log entry 1), so every statement holds for
every configuration.
-/

namespace Sys2Proof

/-! ### Constants of R7, R8 and R11 -/

/-- `PAYLOAD_BYTES` (R7). -/
abbrev Config.payloadBytes : Nat := 8
/-- `CHUNK_SIZE` (R7): bytes in a chunk. -/
abbrev Config.chunkSize : Nat := 8
/-- `SEG_STRIDE` (R7): identifier offset between segments of a telemetry class. -/
abbrev Config.segStride : Nat := 0x100
/-- `CHUNK_SHIFT` (R7): left shift of the chunk index in a transfer identifier. -/
abbrev Config.chunkShift : Nat := 8
/-- `ACK_OFFSET` (R7): added to the transfer base to form the response base. -/
abbrev Config.ackOffset : Nat := 0xA0
/-- `ST_ACK` (R7): status byte of a positive acknowledgment. -/
abbrev Config.stAck : Byte := 0x01
/-- `ST_NACK` (R7): status byte of a negative acknowledgment. -/
abbrev Config.stNack : Byte := 0x00
/-- The largest standard identifier, `2^STD_ID_BITS - 1` (R7, R96). -/
abbrev Config.stdIdMax : Nat := 0x7FF
/-- `XFER_MAX_BYTES` (R11): the largest buffer XFER_START accepts. -/
abbrev Config.xferMaxBytes : Nat := 2048
/-- `MAX_RETRIES` (R8): what XFER_START takes for `maxr` where the command does not give it (R244). -/
abbrev Config.maxRetries : Byte := 3
/-- `XFER_TIMEOUT` (R8): what XFER_START takes for `tmo`, in ticks, where the command does not give it (R244). -/
abbrev Config.xferTimeout : BitVec 32 := 1000
/-- `POLL_INTERVAL` (R8): timing only; no rule depends on it (R372). -/
abbrev Config.pollInterval : Nat := 10

/-! ### The configuration record (R21, R23) -/

/-- `Class.dir`: received by FPE or transmitted by FPE. -/
inductive Dir where
  | rx
  | tx
  deriving DecidableEq, Repr

/-- `ENC_CLAMP_MODE` (R13): how ENCODE clamps. -/
inductive ClampMode where
  | rawOnly
  | physThenRaw
  deriving DecidableEq, Repr

/-- `FieldEntry` (R23). `name` and `unit` are labels: no rule computes with them. -/
structure FieldEntry where
  name      : String
  bitOffset : Nat
  bitWidth  : Nat
  factor    : Q
  offset    : Q
  minPhys   : Q
  maxPhys   : Q
  unit      : String
  deriving DecidableEq, Repr

/-- `FieldTable` (R23): a finite list of entries. -/
abbrev FieldTable := List FieldEntry

/-- One message class (R21): direction, base identifier, field table, and for an `RX` class the link
its frames refresh. -/
structure MsgClass where
  dir   : Dir
  base  : BitVec 11
  table : FieldTable
  link  : Option Nat
  deriving DecidableEq, Repr

/-- `seqs[q]` of R21: one playlist with its repeat flag. -/
structure Playlist where
  states : List Byte
  loops  : Bool
  deriving DecidableEq, Repr

/-- The configuration record `CFG` (R21). `n_links` and `n_seq` are the lengths of `seqOfLink` and `seqs`,
so that `seq_of_link` and `seqs` have exactly one entry for each link and each cursor. -/
structure Cfg where
  classes      : List MsgClass
  nSeg         : Nat
  period       : Nat
  seqOfLink    : List (Option Nat)
  seqs         : List Playlist
  safeDefault  : Byte
  encClampMode : ClampMode
  deriving DecidableEq, Repr

/-- `N_LINKS` (R10, R21). -/
def Cfg.nLinks (g : Cfg) : Nat := g.seqOfLink.length

/-- `N_SEQ` (R10, R21). -/
def Cfg.nSeq (g : Cfg) : Nat := g.seqs.length

/-! ### The example configuration EX1 (95_test_vectors.md section 1, the spec's own example) -/

/-- Class `PSTAT` of EX1. The spec gives its entries no unit: the labels are the model's (DESIGN CHOICE, log entry
29). -/
def Ex1.pstat : MsgClass where
  dir := .rx
  base := 0x010
  link := some 0
  table :=
    [ ⟨"v_pack", 0, 16, 1/100, 0, 0, 65535/100, "V"⟩,
      ⟨"temp", 16, 8, 1, -40, -40, 215, "C"⟩,
      ⟨"soc", 24, 8, 1/2, 0, 0, 100, "%"⟩,
      ⟨"current", 32, 14, 1/10, -800, -800, 8383/10, "A"⟩,
      ⟨"state", 46, 3, 1, 0, 0, 7, ""⟩ ]

/-- Class `CELLV` of EX1. The unit labels are the model's (DESIGN CHOICE, log entry 29). -/
def Ex1.cellv : MsgClass where
  dir := .rx
  base := 0x020
  link := some 0
  table :=
    [ ⟨"v_min", 0, 13, 1/1000, 0, 0, 5, "V"⟩,
      ⟨"v_max", 13, 13, 1/1000, 0, 0, 5, "V"⟩,
      ⟨"v_avg", 26, 13, 1/1000, 0, 0, 5, "V"⟩,
      ⟨"n_cells", 39, 8, 1, 0, 0, 192, ""⟩ ]

/-- Class `CMD` of EX1. The unit label is the model's, and so is that its link, of which the spec says only that it
is ignored, is none (DESIGN CHOICE, log entry 29). -/
def Ex1.cmd : MsgClass where
  dir := .tx
  base := 0x005
  link := none
  table := [ ⟨"state", 0, 8, 1, 0, 0, 255, ""⟩ ]

/-- Class `MODST` of EX1. The unit labels are the model's (DESIGN CHOICE, log entry 29). -/
def Ex1.modst : MsgClass where
  dir := .rx
  base := 0x030
  link := some 1
  table :=
    [ ⟨"mstate", 0, 4, 1, 0, 0, 15, ""⟩,
      ⟨"mtemp", 8, 8, 1, -40, -40, 215, "C"⟩ ]

/-- EX1, the one concrete configuration the spec writes out (R12: made for the test vectors). It is the
configuration of `State.reset` (DESIGN CHOICE, log entry 2); no statement rests on it but those that name it. -/
def Cfg.ex1 : Cfg where
  classes := [Ex1.pstat, Ex1.cellv, Ex1.cmd, Ex1.modst]
  nSeg := 4
  period := 1000
  seqOfLink := [some 0, none]
  seqs := [⟨[0x00, 0x01, 0x03], true⟩]
  safeDefault := 0x00
  encClampMode := .rawOnly

/-! ### Free values: no body, nothing constrains them -/

/-- FREE VALUE (U6, R206, R362; DESIGN CHOICE, log entry 5). What `Elapsed` answers on a sample without a
result (`tornSample`): the spec says the model draws any `u32`. Applied to the counter `State.draws`. -/
opaque Config.freeElapsed : Nat → BitVec 32

/-- FREE VALUE (U7, R332; DESIGN CHOICE, log entry 6). What the transport answers to a `Send` whose answer the environment
has not laid down in `State.answers`: any of ok and fail. Applied to the counter `State.draws`. -/
opaque Config.freeSend : Nat → Bool

end Sys2Proof
end

