-- ==== Sys2Proof/Syntax.lean ====
section
/-!
DEFINITION. The operations of FPE-OPS v1 and the frame formats, one constructor per row of
spec/opcode_table.json (30_encoding.md R90, R106), with their operands as typed values (R106: "operands are
typed values, not bit fields").
-/

namespace Sys2Proof

/-- One pair `(raw_i, phys_i)` of a record (R24). -/
structure FieldVal where
  raw  : Nat
  phys : Q
  deriving DecidableEq, Repr

/-- `Record(T)` (R24): one pair for each entry of the table. -/
abbrev Record := List FieldVal

/-- `PhysRecord(T)` (R24): one physical value for each entry of the table. -/
abbrev PhysRecord := List Q

/-- The instruction set: the 26 host commands, the 5 steps of the other agents, and the 8 format rows.
Class, link, cursor and segment numbers are plain numbers: their range depends on CFG and is checked when the
operation runs (R107). -/
inductive Instr where
  /-- DECODE `c, P, len` (R134). -/
  | decode (c : Nat) (p : List Byte)
  /-- ENCODE `c, pr` (R138). -/
  | encode (c : Nat) (pr : PhysRecord)
  /-- RANGECHK `c, rec` (R140). -/
  | rangechk (c : Nat) (r : Record)
  /-- ACKPACK `status, k, ck` (R146). -/
  | ackpack (status k : Byte) (ck : BitVec 16)
  /-- ACKUNPACK `P, len` (R148). -/
  | ackunpack (p : List Byte)
  /-- RESOLVE `c, s` (R162). -/
  | resolve (c seg : Nat)
  /-- CLASSIFY `id, ext` (R164). -/
  | classify (id : BitVec 29) (ext : Bool)
  /-- XID_REQ `XBASE, k, s` (R174). -/
  | xidReq (base : BitVec 29) (k : Byte) (seg : Nat)
  /-- XID_RSP `XBASE, k, s` (R176). -/
  | xidRsp (base : BitVec 29) (k : Byte) (seg : Nat)
  /-- XID_PARSE `id, XBASE` (R178). -/
  | xidParse (id base : BitVec 29)
  /-- TX_RECORD `c, s, pr` (R172). -/
  | txRecord (c seg : Nat) (pr : PhysRecord)
  /-- LH_ELAPSED `l` (R194). -/
  | lhElapsed (l : Nat)
  /-- LH_RX `l` (R196). -/
  | lhRx (l : Nat)
  /-- LH_CHECK `l, threshold` (R198). -/
  | lhCheck (l : Nat) (threshold : BitVec 32)
  /-- LH_DISC `l` (R200). -/
  | lhDisc (l : Nat)
  /-- LH_STAT `l` (R202). -/
  | lhStat (l : Nat)
  /-- SEQ_ADV `q` (R222). -/
  | seqAdv (q : Nat)
  /-- SEQ_CUR `q` (R224). -/
  | seqCur (q : Nat)
  /-- SEQ_RST `q` (R226). -/
  | seqRst (q : Nat)
  /-- XFER_START `B, XBASE, s, tmo, maxr` (R244). -/
  | xferStart (b : List Byte) (base : BitVec 29) (seg : Nat) (tmo : BitVec 32) (maxr : Byte)
  /-- XFER_ABORT (R260). -/
  | xferAbort
  /-- XFER_STAT (R262). -/
  | xferStat
  /-- SEG_SET `mask` (R290). -/
  | segSet (mask : Byte)
  /-- REC_READ `c, s` (R292). -/
  | recRead (c seg : Nat)
  /-- SEG_GET (R294). -/
  | segGet
  /-- SOFT_RESET (R296). -/
  | softReset
  /-- RX_FRAME (R170): the receive path takes the head of RXQ. -/
  | rxFrame
  /-- X_NEXT (R246): the transfer engine between chunks. -/
  | xNext
  /-- X_SEND (R250): the transfer engine builds and sends a chunk frame. -/
  | xSend
  /-- X_TMO (R258): the transfer engine's wait times out. -/
  | xTmo
  /-- TICK (R326): the timer advances. -/
  | tick
  /-- F_TELEM (R96): a standard identifier on the bus, `0iiiiiiiiiii`. -/
  | fTelem (id : BitVec 11)
  /-- F_XREQ (R98, R100): a transfer request identifier, `1 b(13) k(8) 00000 s(3)`. -/
  | fXreq (b : BitVec 13) (k : Byte) (seg : BitVec 3)
  /-- F_XRSP (R99, R100): a transfer response identifier, `1 b(13) k(8) 10100 s(3)`. -/
  | fXrsp (b : BitVec 13) (k : Byte) (seg : BitVec 3)
  /-- P_FIELDS (R93): the payload bytes of a telemetry frame, in wire order. -/
  | pFields (p : List Byte)
  /-- P_ACK (R104) with a status that is neither ACK nor NACK (R107). -/
  | pAck (status k : Byte) (ck : BitVec 16) (rest : List Byte)
  /-- P_ACK.ACK (R104, R254): status `0x01`. -/
  | pAckAck (k : Byte) (ck : BitVec 16) (rest : List Byte)
  /-- P_ACK.NACK (R104, R254): status `0x00`. -/
  | pAckNack (k : Byte) (ck : BitVec 16) (rest : List Byte)
  /-- P_CHUNK (R105): the 8 buffer bytes of a request frame. -/
  | pChunk (p : List Byte)
  deriving DecidableEq, Repr

/-- The command or event code of an operation (R106); a format row has none. -/
def Instr.code : Instr → Option Byte
  | .decode _ _ => some 0x01
  | .encode _ _ => some 0x02
  | .rangechk _ _ => some 0x03
  | .ackpack _ _ _ => some 0x04
  | .ackunpack _ => some 0x05
  | .resolve _ _ => some 0x10
  | .classify _ _ => some 0x11
  | .xidReq _ _ _ => some 0x12
  | .xidRsp _ _ _ => some 0x13
  | .xidParse _ _ => some 0x14
  | .txRecord _ _ _ => some 0x18
  | .lhElapsed _ => some 0x20
  | .lhRx _ => some 0x21
  | .lhCheck _ _ => some 0x22
  | .lhDisc _ => some 0x23
  | .lhStat _ => some 0x24
  | .seqAdv _ => some 0x30
  | .seqCur _ => some 0x31
  | .seqRst _ => some 0x32
  | .xferStart _ _ _ _ _ => some 0x40
  | .xferAbort => some 0x41
  | .xferStat => some 0x42
  | .segSet _ => some 0x50
  | .recRead _ _ => some 0x51
  | .segGet => some 0x52
  | .softReset => some 0x5F
  | .rxFrame => some 0x80
  | .xNext => some 0x81
  | .xSend => some 0x82
  | .xTmo => some 0x83
  | .tick => some 0x84
  | .fTelem _ => none
  | .fXreq _ _ _ => none
  | .fXrsp _ _ _ => none
  | .pFields _ => none
  | .pAck _ _ _ _ => none
  | .pAckAck _ _ _ => none
  | .pAckNack _ _ _ => none
  | .pChunk _ => none

end Sys2Proof
end

