-- ==== Sys2Proof/Machine/Operands.lean ====
section
/-!
DEFINITION. The operand forms of FPE as pure functions: payload words and fields (00_scope.md R15,
30_encoding.md R94, R95), scaling, rounding and saturation (R16, R138), identifiers (R96 to R101), the
acknowledgment payload (R104), and elapsed time (42_link_health.md R192).
-/

namespace Sys2Proof.Machine

/-! ### Little-endian words (R15, R61) -/

/-- The number whose base-256 digits are `bs`, least significant first: `sum P[i] * 2^(8*i)` (R15). -/
def leNat : List Byte → Nat
  | [] => 0
  | b :: bs => b.toNat + 256 * leNat bs

/-- The `n` low bytes of `v`, least significant first. -/
def leBytes : Nat → Nat → List Byte
  | 0, _ => []
  | n + 1, v => BitVec.ofNat 8 v :: leBytes n (v / 256)

/-- The payload word `W(P, len)` (R15), `len` being the length of the list: missing bytes are zero and bytes
past the eighth do not count. -/
def payloadWord (p : List Byte) : Nat := leNat (p.take Config.payloadBytes)

/-- `bytes8(W)` (R15): the 8-byte payload of a payload word. -/
def bytes8 (w : Nat) : List Byte := leBytes Config.payloadBytes w

/-! ### Fields (R94, R95) -/

/-- `Extract(W, o, w)` (R94): bits `o+w-1` down to `o` of `W`, unsigned. -/
def extract (word o w : Nat) : Nat := (word >>> o) &&& (2 ^ w - 1)

/-- `Insert(W, o, w, raw)` (R94). -/
def insertField (word o raw : Nat) : Nat := word ||| (raw <<< o)

/-- `Phys(raw, e)` (R95). -/
def physOf (e : FieldEntry) (raw : Nat) : Q := (raw : Q) * e.factor + e.offset

/-- `round_haz(q)` (R16): the nearest integer, a tie going away from zero. -/
def roundHaz (q : Q) : Int :=
  if 0 ≤ q then (q + 1/2).floor else -((-q + 1/2).floor)

/-- `RawOf(p, e)` (R95): may be negative or exceed the field. -/
def rawOf (e : FieldEntry) (p : Q) : Int := roundHaz ((p - e.offset) / e.factor)

/-- `sat_w(n)` (R16). -/
def satW (w : Nat) (n : Int) : Nat :=
  if n < 0 then 0 else if (2 : Int) ^ w - 1 < n then 2 ^ w - 1 else n.toNat

/-- One pair of the record DECODE makes (R134). -/
def decodeField (word : Nat) (e : FieldEntry) : FieldVal :=
  ⟨extract word e.bitOffset e.bitWidth, physOf e (extract word e.bitOffset e.bitWidth)⟩

/-- The record DECODE makes of a payload word (R134). -/
def decodeWord (t : FieldTable) (word : Nat) : Record := t.map (decodeField word)

/-- The record DECODE makes of a payload (R134). -/
def decodeRecord (t : FieldTable) (p : List Byte) : Record := decodeWord t (payloadWord p)

/-- The clamp that precedes scaling: none with `RAW_ONLY`, to the declared range with `PHYS_THEN_RAW` (R138). -/
def clampPhys (m : ClampMode) (e : FieldEntry) (p : Q) : Q :=
  match m with
  | .rawOnly => p
  | .physThenRaw => min (max p e.minPhys) e.maxPhys

/-- The quotient of ENCODE rounded, before the bit-width clamp (`r` of R138). -/
def encodeQuotient (m : ClampMode) (e : FieldEntry) (p : Q) : Int := rawOf e (clampPhys m e p)

/-- The raw value ENCODE puts into the field (`raw` of R138). -/
def encodeRaw (m : ClampMode) (e : FieldEntry) (p : Q) : Nat := satW e.bitWidth (encodeQuotient m e p)

/-- The payload word ENCODE makes (R138): it starts at zero and every field is OR-ed in. -/
def encodeWord (m : ClampMode) (t : FieldTable) (pr : PhysRecord) : Nat :=
  (t.zip pr).foldl (fun word x => insertField word x.1.bitOffset (encodeRaw m x.1 x.2)) 0

/-- The payload ENCODE makes (R138). -/
def encodePayload (m : ClampMode) (t : FieldTable) (pr : PhysRecord) : List Byte := bytes8 (encodeWord m t pr)

/-- A table with an entry of width 0 or one that runs past bit 63, which the model refuses (R64). -/
def hasFieldOutsideWord (t : FieldTable) : Bool :=
  t.any fun e => decide (e.bitWidth = 0) || decide (64 < e.bitOffset + e.bitWidth)

/-- A table with an entry of factor 0, for which ENCODE is undefined (R132, R144). -/
def hasZeroFactor (t : FieldTable) : Bool := t.any fun e => decide (e.factor = 0)

/-- A record of the type `Record(T)` (R24): one pair for each entry, each raw value below `2^bit_width`
(DEDUCED, log entry 19: phys is not tied to raw). -/
def recordTyped (t : FieldTable) (r : Record) : Bool :=
  decide (r.length = t.length) && (t.zip r).all fun x => decide (x.2.raw < 2 ^ x.1.bitWidth)

/-- The bits of one entry in the payload word. -/
def fieldMask (e : FieldEntry) : Nat := (2 ^ e.bitWidth - 1) <<< e.bitOffset

/-- `mask(T)` of R142: the defined bits of a table. -/
def tableMask (t : FieldTable) : Nat := t.foldl (fun m e => m ||| fieldMask e) 0

/-! ### Identifiers (R96 to R101) -/

/-- `TelemId(c, s)` (R96): an arithmetic sum, which may exceed 11 bits when `ConfigWF` fails. -/
def telemId (base : BitVec 11) (seg : Nat) : Nat := base.toNat + seg * Config.segStride

/-- `TelemMatch(id, c, E)` (R97). -/
def telemMatch (nSeg : Nat) (en : Byte) (id : Nat) (base : BitVec 11) : Option Nat :=
  if base.toNat ≤ id ∧ (id - base.toNat) % Config.segStride = 0
      ∧ (id - base.toNat) / Config.segStride < nSeg
      ∧ en.getLsbD ((id - base.toNat) / Config.segStride) = true then
    some ((id - base.toNat) / Config.segStride)
  else none

/-- The set `M` of R164: every RX class and segment of interest that matches, `n` being the number of the
first class of the list. -/
def telemMatches (nSeg : Nat) (en : Byte) (id : Nat) : List MsgClass → Nat → List (Nat × Nat)
  | [], _ => []
  | k :: ks, n =>
    match k.dir, telemMatch nSeg en id k.base with
    | .rx, some seg => (n, seg) :: telemMatches nSeg en id ks (n + 1)
    | _, _ => telemMatches nSeg en id ks (n + 1)

/-- `Classify(id, ext, E)` (R164, R166, R168): exactly one match, or unknown. -/
def classifyId (g : Cfg) (en : Byte) (id : Nat) (ext : Bool) : Option (Nat × Nat) :=
  if ext then none
  else
    match telemMatches g.nSeg en id g.classes 0 with
    | [m] => some m
    | _ => none

/-- `XferIdWF(XBASE, s)` (R100); `XBASE < 2^29` is its type. -/
def xferIdWF (base : BitVec 29) (seg : Nat) : Bool := decide (base.toNat % 0x10000 = 0) && decide (seg ≤ 7)

/-- `XidReq(XBASE, k, s)` (R98). -/
def xidReqOf (base k seg : Nat) : Nat := base ||| (k <<< Config.chunkShift) ||| seg

/-- `XidRsp(XBASE, k, s)` (R99). -/
def xidRspOf (base k seg : Nat) : Nat := (base + Config.ackOffset) ||| (k <<< Config.chunkShift) ||| seg

/-- The two kinds of transfer identifier XID_PARSE tells apart (R101). -/
inductive XidKind where
  | req
  | rsp
  deriving DecidableEq, Repr

/-- `XidParse(id, XBASE)` (R101). -/
def xidParseOf (id base : BitVec 29) : Option (XidKind × Byte × BitVec 3) :=
  if id.extractLsb' 16 13 ≠ base.extractLsb' 16 13 then none
  else if id.extractLsb' 3 5 = 0b00000#5 then some (.req, id.extractLsb' 8 8, id.extractLsb' 0 3)
  else if id.extractLsb' 3 5 = 0b10100#5 then some (.rsp, id.extractLsb' 8 8, id.extractLsb' 0 3)
  else none

/-! ### The acknowledgment payload (R104) -/

/-- What AckUnpack gives: status, echoed chunk index, checksum (R104). -/
structure Ack where
  status : Byte
  echo   : Byte
  cksum  : BitVec 16
  deriving DecidableEq, Repr

/-- `AckPack(status, k, ck)` (R104, R146): the checksum is big-endian (R62), bytes 4 to 7 are zero. -/
def ackPack (status k : Byte) (ck : BitVec 16) : List Byte :=
  [status, k, ck.extractLsb' 8 8, ck.extractLsb' 0 8, 0, 0, 0, 0]

/-- `AckUnpack(P, len)` (R104, R148): the first four bytes, none if there are fewer; the others are ignored. -/
def ackUnpack : List Byte → Option Ack
  | b0 :: b1 :: b2 :: b3 :: _ => some ⟨b0, b1, b2 ++ b3⟩
  | _ => none

/-! ### Elapsed time (R192, R206) -/

/-- A sample of the timer, `(ticks, ovf)` (R326). -/
structure Stamp where
  ticks : BitVec 32
  ovf   : BitVec 32
  deriving DecidableEq, Repr

/-- `d` of R192: the number of wraps since the snapshot, modulo `2^32`. -/
def wrapsSince (last now : Stamp) : Nat := (now.ovf - last.ovf).toNat

/-- The samples without a stated result (R206, U6): a tick value that is not below PERIOD; or, of a timer that has
broken its contract (`ok` is false), no wrap and the clock behind the snapshot. Every other sample of such a timer has
the result of R192, as R362 says, and not any u32 as U6 and D14 say of all torn and late samples (DEDUCED, log entry
30). -/
def tornSample (ok : Bool) (period : Nat) (last now : Stamp) : Bool :=
  decide (period ≤ last.ticks.toNat) || decide (period ≤ now.ticks.toNat)
    || (!ok && decide (wrapsSince last now = 0) && decide (now.ticks.toNat < last.ticks.toNat))

/-- The exact value `E` of R192, in Nat. With `d = 0` and a clock behind the snapshot, a timer that has kept its
contract has gone once round its overflow counter, less the difference (R204, R364; DEDUCED, log entry 28). -/
def elapsedExact (period : Nat) (last now : Stamp) : Nat :=
  if wrapsSince last now = 0 then
    if last.ticks.toNat ≤ now.ticks.toNat then now.ticks.toNat - last.ticks.toNat
    else period * 2 ^ 32 - last.ticks.toNat + now.ticks.toNat
  else (period - last.ticks.toNat) + period * (wrapsSince last now - 1) + now.ticks.toNat

/-- `Elapsed` (R192) where it has a result: it saturates at `2^32 - 1` and never wraps. -/
def elapsedSat (period : Nat) (last now : Stamp) : BitVec 32 :=
  BitVec.ofNat 32 (min (elapsedExact period last now) (2 ^ 32 - 1))

/-- `ceil_div(a, b)` (R16). -/
def ceilDiv (a b : Nat) : Nat := (a + b - 1) / b

end Sys2Proof.Machine
end

