-- ==== Sys2Proof/Machine/Flags.lean ====
section
/-!
DEFINITION. The flags FPE computes (10_state.md R32): the pair (oor, sat) of ENCODE (40_codec.md R138) and the
range check behind RANGECHK and RX_FRAME (R140). None of them is stored.
-/

namespace Sys2Proof.Machine

/-- `oor_i` of R138: the operand, before any clamp, lies outside the declared range. -/
def oorFlag (e : FieldEntry) (p : Q) : Bool := decide (p < e.minPhys) || decide (e.maxPhys < p)

/-- `sat_i` of R138: the bit-width clamp changed the value. -/
def satFlag (m : ClampMode) (e : FieldEntry) (p : Q) : Bool :=
  decide ((encodeRaw m e p : Int) ≠ encodeQuotient m e p)

/-- The flags ENCODE returns, one pair for each field (R138). -/
def encodeFlags (m : ClampMode) (t : FieldTable) (pr : PhysRecord) : List (Bool × Bool) :=
  (t.zip pr).map fun x => (oorFlag x.1 x.2, satFlag m x.1 x.2)

/-- The indices, ascending, of the fields out of range, `n` being the index of the first (R140). -/
def violationsFrom : Nat → FieldTable → Record → List Nat
  | n, e :: t, v :: r => if oorFlag e v.phys then n :: violationsFrom (n + 1) t r else violationsFrom (n + 1) t r
  | _, _, _ => []

/-- `viol` of RANGECHK (R140). -/
def violations (t : FieldTable) (r : Record) : List Nat := violationsFrom 0 t r

/-- `RangeOK(rec, T)` (R140): both bounds are inclusive. -/
def rangeOk (t : FieldTable) (r : Record) : Bool := decide (violations t r = [])

end Sys2Proof.Machine
end

