-- ==== Sys2Proof/WellFormed.lean ====
section
/-!
DEFINITION. What is well formed: a field table and a configuration (10_state.md R23, R25), and an instruction
(the operand types of its rule that do not depend on CFG; 30_encoding.md R100, R104, R105, R106).
-/

namespace Sys2Proof

/-- Two entries share no bit (the last clause of R23). -/
abbrev FieldEntry.apart (e f : FieldEntry) : Prop :=
  e.bitOffset + e.bitWidth ≤ f.bitOffset ∨ f.bitOffset + f.bitWidth ≤ e.bitOffset

/-- The clauses of `TableWF` about one entry (R23). -/
abbrev FieldEntry.WF (e : FieldEntry) : Prop :=
  1 ≤ e.bitWidth ∧ e.bitWidth ≤ 64 ∧ e.bitOffset + e.bitWidth ≤ 64 ∧ e.factor ≠ 0 ∧ e.minPhys ≤ e.maxPhys

/-- `TableWF(T)` (R23). -/
abbrev TableWF (t : FieldTable) : Prop :=
  (∀ e ∈ t, e.WF) ∧ t.Pairwise (fun e f => e.name ≠ f.name) ∧ t.Pairwise (fun e f => e.apart f)

/-- Clause (c) of `ConfigWF` for two classes (R25). -/
abbrev MsgClass.distinctIds (nSeg : Nat) (c1 c2 : MsgClass) : Prop :=
  c1.dir = c2.dir → ∀ s1 < nSeg, ∀ s2 < nSeg,
    c1.base.toNat + s1 * Config.segStride ≠ c2.base.toNat + s2 * Config.segStride

/-- A link or cursor number in range, where there is one (clause (d) of R25). -/
abbrev inRange (o : Option Nat) (n : Nat) : Prop := o.all (fun k => decide (k < n)) = true

/-- `ConfigWF(CFG)` (R25), clauses (a) to (f). -/
abbrev ConfigWF (g : Cfg) : Prop :=
  (∀ c ∈ g.classes, TableWF c.table)
  ∧ (∀ c ∈ g.classes, c.base.toNat + (g.nSeg - 1) * Config.segStride ≤ Config.stdIdMax)
  ∧ g.classes.Pairwise (fun c1 c2 => c1.distinctIds g.nSeg c2)
  ∧ ((∀ c ∈ g.classes, inRange c.link g.nLinks) ∧ (∀ q ∈ g.seqOfLink, inRange q g.nSeq))
  ∧ (∀ p ∈ g.seqs, p.states ≠ [] ∧ p.states.length ≤ 256)
  ∧ (1 ≤ g.nSeg ∧ g.nSeg ≤ 8 ∧ 1 ≤ g.period ∧ g.period ≤ 2 ^ 32)

/-- The operand types of an instruction that do not depend on CFG. A host command that is not well formed raises
BadOperand (R107), a format row that is not well formed is no word of that format. -/
def Instr.wellFormed : Instr → Bool
  | .decode _ p => decide (p.length ≤ Config.payloadBytes)
  | .encode _ _ => true
  | .rangechk _ _ => true
  | .ackpack _ _ _ => true
  | .ackunpack p => decide (p.length ≤ Config.payloadBytes)
  | .resolve _ _ => true
  | .classify _ _ => true
  | .xidReq base _ seg => Machine.xferIdWF base seg
  | .xidRsp base _ seg => Machine.xferIdWF base seg
  | .xidParse _ base => decide (base.toNat % 0x10000 = 0)
  | .txRecord _ _ _ => true
  | .lhElapsed _ => true
  | .lhRx _ => true
  | .lhCheck _ _ => true
  | .lhDisc _ => true
  | .lhStat _ => true
  | .seqAdv _ => true
  | .seqCur _ => true
  | .seqRst _ => true
  | .xferStart b base seg _ _ => decide (b.length ≤ Config.xferMaxBytes) && Machine.xferIdWF base seg
  | .xferAbort => true
  | .xferStat => true
  | .segSet _ => true
  | .recRead _ _ => true
  | .segGet => true
  | .softReset => true
  | .rxFrame => true
  | .xNext => true
  | .xSend => true
  | .xTmo => true
  | .tick => true
  | .fTelem _ => true
  | .fXreq _ _ _ => true
  | .fXrsp _ _ _ => true
  | .pFields p => decide (p.length ≤ Config.payloadBytes)
  | .pAck status _ _ rest =>
    decide (status ≠ Config.stAck) && decide (status ≠ Config.stNack) && decide (rest.length ≤ 4)
  | .pAckAck _ _ rest => decide (rest.length ≤ 4)
  | .pAckNack _ _ rest => decide (rest.length ≤ 4)
  | .pChunk p => decide (p.length = Config.chunkSize)

end Sys2Proof
end

