-- ==== Sys2Proof/Decode.lean ====
section
/-!
DEFINITION. From words to instructions and back. A host command or an agent's step is its 8-bit code
(30_encoding.md R106) and its operands; the spec gives operands as typed values and no layout for them, so the
layout of the operand bytes is the model's own (DESIGN CHOICE, log entry 3): a number is a base-128 numeral, least significant
digit first, bit 7 set on every digit but the last. A frame format row is a word of the bus: an identifier word
with its ext flag (R96, R98, R99) or payload bytes in wire order (R93, R104, R105).
-/

namespace Sys2Proof

open Machine (leNat leBytes)

/-- What a word of the bus is: an identifier, or one of the three payload formats (R90). Which payload format
a payload has is not in its bytes (the identifier says it), so it is told with them. -/
inductive BusFormat where
  | ident
  | fields
  | ack
  | chunk
  deriving DecidableEq, Repr

/-- The words of one instruction: the bytes of a command, or the bytes of a bus word. -/
inductive Words where
  | cmd (bytes : List Byte)
  | bus (fmt : BusFormat) (bytes : List Byte)
  deriving DecidableEq, Repr

/-- Why bytes are no instruction. -/
inductive DecodeError where
  /-- No byte at all: no command was issued. -/
  | noCode
  /-- A code R106 does not list (R298). -/
  | badCommand (code : Byte)
  /-- Operand bytes that end too early or hold a value outside its type (R298). -/
  | badOperand (code : Byte)
  /-- Bytes that are no word of that format. -/
  | badBusWord (fmt : BusFormat)
  deriving DecidableEq, Repr

/-! ### Reading operands -/

/-- A number: digits of base 128, least significant first. -/
def rdNat : List Byte → Option (Nat × List Byte)
  | [] => none
  | b :: bs =>
    if b.toNat < 128 then some (b.toNat, bs)
    else
      match rdNat bs with
      | none => none
      | some (n, rest) => some (b.toNat - 128 + 128 * n, rest)

/-- A number below `2^w`: the operand types u8, u11, u16, u29, u32 (R14). -/
def rdWord (w : Nat) (bs : List Byte) : Option (BitVec w × List Byte) :=
  match rdNat bs with
  | none => none
  | some (n, rest) => if n < 2 ^ w then some (BitVec.ofNat w n, rest) else none

/-- A Bool: 0 or 1. -/
def rdBool (bs : List Byte) : Option (Bool × List Byte) :=
  match rdNat bs with
  | none => none
  | some (n, rest) => if n ≤ 1 then some (decide (n = 1), rest) else none

/-- A byte sequence: its length, then the bytes. -/
def rdBytes (bs : List Byte) : Option (List Byte × List Byte) :=
  match rdNat bs with
  | none => none
  | some (n, rest) => if n ≤ rest.length then some (rest.take n, rest.drop n) else none

/-- A rational: sign (0 or 1), numerator, denominator. -/
def rdRat (bs : List Byte) : Option (Q × List Byte) := do
  let (sign, bs) ← rdBool bs
  let (num, bs) ← rdNat bs
  let (den, bs) ← rdNat bs
  if den = 0 then none else some (mkRat (if sign then -(num : Int) else num) den, bs)

/-- A pair of a record: raw, then phys. -/
def rdFieldVal (bs : List Byte) : Option (FieldVal × List Byte) := do
  let (raw, bs) ← rdNat bs
  let (phys, bs) ← rdRat bs
  some (⟨raw, phys⟩, bs)

/-- `n` values in a row. -/
def rdMany {α : Type} (rd : List Byte → Option (α × List Byte)) : Nat → List Byte → Option (List α × List Byte)
  | 0, bs => some ([], bs)
  | n + 1, bs =>
    match rd bs with
    | none => none
    | some (a, bs) =>
      match rdMany rd n bs with
      | none => none
      | some (as, bs) => some (a :: as, bs)

/-- A list: its length, then its values. -/
def rdList {α : Type} (rd : List Byte → Option (α × List Byte)) (bs : List Byte) : Option (List α × List Byte) :=
  match rdNat bs with
  | none => none
  | some (n, rest) => rdMany rd n rest

/-- An operand with a default: where the command ends before it, the default is taken (R8, R244). -/
def rdDefault {α : Type} (dflt : α) (rd : List Byte → Option (α × List Byte)) : List Byte → Option (α × List Byte)
  | [] => some (dflt, [])
  | b :: bs => rd (b :: bs)

/-! ### The decoder -/

/-- The instruction with operands read, or BadOperand for that code. -/
def operandsRead (code : Byte) : Option Instr → Except DecodeError Instr
  | some i => .ok i
  | none => .error (.badOperand code)

/-- The operation of a code (R106) with its operands; codes R106 does not list are rejected (R298). Bytes after
the last operand are not examined. An XFER_START that ends before `tmo`, or before `maxr`, takes the defaults of
R8 for what it leaves out (R244). -/
def decodeCmd : List Byte → Except DecodeError Instr
  | [] => .error .noCode
  | code :: bs =>
    match code.toNat with
    | 0x01 => operandsRead code (do let (c, bs) ← rdNat bs; let (p, _) ← rdBytes bs; some (.decode c p))
    | 0x02 => operandsRead code (do let (c, bs) ← rdNat bs; let (pr, _) ← rdList rdRat bs; some (.encode c pr))
    | 0x03 => operandsRead code (do let (c, bs) ← rdNat bs; let (r, _) ← rdList rdFieldVal bs; some (.rangechk c r))
    | 0x04 => operandsRead code (do
        let (st, bs) ← rdWord 8 bs; let (k, bs) ← rdWord 8 bs; let (ck, _) ← rdWord 16 bs; some (.ackpack st k ck))
    | 0x05 => operandsRead code (do let (p, _) ← rdBytes bs; some (.ackunpack p))
    | 0x10 => operandsRead code (do let (c, bs) ← rdNat bs; let (g, _) ← rdNat bs; some (.resolve c g))
    | 0x11 => operandsRead code (do let (id, bs) ← rdWord 29 bs; let (x, _) ← rdBool bs; some (.classify id x))
    | 0x12 => operandsRead code (do
        let (b, bs) ← rdWord 29 bs; let (k, bs) ← rdWord 8 bs; let (g, _) ← rdNat bs; some (.xidReq b k g))
    | 0x13 => operandsRead code (do
        let (b, bs) ← rdWord 29 bs; let (k, bs) ← rdWord 8 bs; let (g, _) ← rdNat bs; some (.xidRsp b k g))
    | 0x14 => operandsRead code (do let (id, bs) ← rdWord 29 bs; let (b, _) ← rdWord 29 bs; some (.xidParse id b))
    | 0x18 => operandsRead code (do
        let (c, bs) ← rdNat bs; let (g, bs) ← rdNat bs; let (pr, _) ← rdList rdRat bs; some (.txRecord c g pr))
    | 0x20 => operandsRead code (do let (l, _) ← rdNat bs; some (.lhElapsed l))
    | 0x21 => operandsRead code (do let (l, _) ← rdNat bs; some (.lhRx l))
    | 0x22 => operandsRead code (do let (l, bs) ← rdNat bs; let (th, _) ← rdWord 32 bs; some (.lhCheck l th))
    | 0x23 => operandsRead code (do let (l, _) ← rdNat bs; some (.lhDisc l))
    | 0x24 => operandsRead code (do let (l, _) ← rdNat bs; some (.lhStat l))
    | 0x30 => operandsRead code (do let (q, _) ← rdNat bs; some (.seqAdv q))
    | 0x31 => operandsRead code (do let (q, _) ← rdNat bs; some (.seqCur q))
    | 0x32 => operandsRead code (do let (q, _) ← rdNat bs; some (.seqRst q))
    | 0x40 => operandsRead code (do
        let (b, bs) ← rdBytes bs; let (x, bs) ← rdWord 29 bs; let (g, bs) ← rdNat bs
        let (tmo, bs) ← rdDefault Config.xferTimeout (rdWord 32) bs
        let (mr, _) ← rdDefault Config.maxRetries (rdWord 8) bs
        some (.xferStart b x g tmo mr))
    | 0x41 => .ok .xferAbort
    | 0x42 => .ok .xferStat
    | 0x50 => operandsRead code (do let (m, _) ← rdWord 8 bs; some (.segSet m))
    | 0x51 => operandsRead code (do let (c, bs) ← rdNat bs; let (g, _) ← rdNat bs; some (.recRead c g))
    | 0x52 => .ok .segGet
    | 0x5F => .ok .softReset
    | 0x80 => .ok .rxFrame
    | 0x81 => .ok .xNext
    | 0x82 => .ok .xSend
    | 0x83 => .ok .xTmo
    | 0x84 => .ok .tick
    | _ => .error (.badCommand code)

/-- An identifier word, bytes least significant first: 12 bits `0iiiiiiiiiii` in two bytes (R96), or 30 bits
`1` and the identifier in four bytes (R98, R99). A two-byte word holds a standard identifier and a four-byte
word an extended one: the length is told, not derived (R92). An extended identifier whose bits 7 to 3 are
neither `00000` nor `10100` is of neither transfer format. -/
def decodeIdent (bs : List Byte) : Except DecodeError Instr :=
  let w := leNat bs
  if bs.length = 2 then
    if w < 2 ^ 11 then .ok (.fTelem (BitVec.ofNat 11 w)) else .error (.badBusWord .ident)
  else if bs.length = 4 ∧ w / 2 ^ 29 = 1 then
    if w / 8 % 32 = 0b00000 then
      .ok (.fXreq (BitVec.ofNat 13 (w / 2 ^ 16)) (BitVec.ofNat 8 (w / 2 ^ 8)) (BitVec.ofNat 3 w))
    else if w / 8 % 32 = 0b10100 then
      .ok (.fXrsp (BitVec.ofNat 13 (w / 2 ^ 16)) (BitVec.ofNat 8 (w / 2 ^ 8)) (BitVec.ofNat 3 w))
    else .error (.badBusWord .ident)
  else .error (.badBusWord .ident)

/-- The bytes of a response payload (R104): four to eight of them; the status selects the row (R107). -/
def decodeAck : List Byte → Except DecodeError Instr
  | status :: k :: c1 :: c0 :: rest =>
    if 4 < rest.length then .error (.badBusWord .ack)
    else if status = Config.stAck then .ok (.pAckAck k (c1 ++ c0) rest)
    else if status = Config.stNack then .ok (.pAckNack k (c1 ++ c0) rest)
    else .ok (.pAck status k (c1 ++ c0) rest)
  | _ => .error (.badBusWord .ack)

/-- A word of the bus. -/
def decodeBus : BusFormat → List Byte → Except DecodeError Instr
  | .ident, bs => decodeIdent bs
  | .fields, bs => if bs.length ≤ Config.payloadBytes then .ok (.pFields bs) else .error (.badBusWord .fields)
  | .ack, bs => decodeAck bs
  | .chunk, bs => if bs.length = Config.chunkSize then .ok (.pChunk bs) else .error (.badBusWord .chunk)

/-- The decoder, total on any words. -/
def decode : Words → Except DecodeError Instr
  | .cmd bs => decodeCmd bs
  | .bus fmt bs => decodeBus fmt bs

/-! ### The encoder -/

/-- A number below `2^(f+1)` as base-128 digits. -/
def wrNatFuel : Nat → Nat → List Byte
  | 0, n => [BitVec.ofNat 8 n]
  | f + 1, n => if n < 128 then [BitVec.ofNat 8 n] else BitVec.ofNat 8 (n % 128 + 128) :: wrNatFuel f (n / 128)

/-- A number. -/
def wrNat (n : Nat) : List Byte := wrNatFuel n.log2 n

/-- A Bool. -/
def wrBool (b : Bool) : List Byte := wrNat (if b then 1 else 0)

/-- A byte sequence. -/
def wrBytes (p : List Byte) : List Byte := wrNat p.length ++ p

/-- A rational. -/
def wrRat (q : Q) : List Byte := wrBool (decide (q.num < 0)) ++ (wrNat q.num.natAbs ++ wrNat q.den)

/-- A pair of a record. -/
def wrFieldVal (v : FieldVal) : List Byte := wrNat v.raw ++ wrRat v.phys

/-- A list. -/
def wrList {α : Type} (wr : α → List Byte) (as : List α) : List Byte := wrNat as.length ++ as.flatMap wr

/-- The two bytes of a standard identifier word. -/
def telemWord (id : BitVec 11) : List Byte := leBytes 2 id.toNat

/-- The four bytes of an extended identifier word with the given bits 7 to 3. -/
def xferWord (mid : Nat) (b : BitVec 13) (k : Byte) (seg : BitVec 3) : List Byte :=
  leBytes 4 (2 ^ 29 + b.toNat * 2 ^ 16 + k.toNat * 2 ^ 8 + mid * 2 ^ 3 + seg.toNat)

/-- The bytes of a response payload. -/
def ackWord (status k : Byte) (ck : BitVec 16) (rest : List Byte) : List Byte :=
  status :: k :: ck.extractLsb' 8 8 :: ck.extractLsb' 0 8 :: rest

/-- The encoder: the words of an instruction. -/
def encode : Instr → Words
  | .decode c p => .cmd (0x01 :: (wrNat c ++ wrBytes p))
  | .encode c pr => .cmd (0x02 :: (wrNat c ++ wrList wrRat pr))
  | .rangechk c r => .cmd (0x03 :: (wrNat c ++ wrList wrFieldVal r))
  | .ackpack st k ck => .cmd (0x04 :: (wrNat st.toNat ++ (wrNat k.toNat ++ wrNat ck.toNat)))
  | .ackunpack p => .cmd (0x05 :: wrBytes p)
  | .resolve c g => .cmd (0x10 :: (wrNat c ++ wrNat g))
  | .classify id x => .cmd (0x11 :: (wrNat id.toNat ++ wrBool x))
  | .xidReq b k g => .cmd (0x12 :: (wrNat b.toNat ++ (wrNat k.toNat ++ wrNat g)))
  | .xidRsp b k g => .cmd (0x13 :: (wrNat b.toNat ++ (wrNat k.toNat ++ wrNat g)))
  | .xidParse id b => .cmd (0x14 :: (wrNat id.toNat ++ wrNat b.toNat))
  | .txRecord c g pr => .cmd (0x18 :: (wrNat c ++ (wrNat g ++ wrList wrRat pr)))
  | .lhElapsed l => .cmd (0x20 :: wrNat l)
  | .lhRx l => .cmd (0x21 :: wrNat l)
  | .lhCheck l th => .cmd (0x22 :: (wrNat l ++ wrNat th.toNat))
  | .lhDisc l => .cmd (0x23 :: wrNat l)
  | .lhStat l => .cmd (0x24 :: wrNat l)
  | .seqAdv q => .cmd (0x30 :: wrNat q)
  | .seqCur q => .cmd (0x31 :: wrNat q)
  | .seqRst q => .cmd (0x32 :: wrNat q)
  | .xferStart b x g tmo mr =>
    .cmd (0x40 :: (wrBytes b ++ (wrNat x.toNat ++ (wrNat g ++ (wrNat tmo.toNat ++ wrNat mr.toNat)))))
  | .xferAbort => .cmd [0x41]
  | .xferStat => .cmd [0x42]
  | .segSet m => .cmd (0x50 :: wrNat m.toNat)
  | .recRead c g => .cmd (0x51 :: (wrNat c ++ wrNat g))
  | .segGet => .cmd [0x52]
  | .softReset => .cmd [0x5F]
  | .rxFrame => .cmd [0x80]
  | .xNext => .cmd [0x81]
  | .xSend => .cmd [0x82]
  | .xTmo => .cmd [0x83]
  | .tick => .cmd [0x84]
  | .fTelem id => .bus .ident (telemWord id)
  | .fXreq b k g => .bus .ident (xferWord 0b00000 b k g)
  | .fXrsp b k g => .bus .ident (xferWord 0b10100 b k g)
  | .pFields p => .bus .fields p
  | .pAck st k ck rest => .bus .ack (ackWord st k ck rest)
  | .pAckAck k ck rest => .bus .ack (ackWord Config.stAck k ck rest)
  | .pAckNack k ck rest => .bus .ack (ackWord Config.stNack k ck rest)
  | .pChunk p => .bus .chunk p

/-! ### Words of the opcode table -/

/-- The words of an instruction whose table bits are `w`, `nbits` of them, every bit above them zero. A row of 8
bits is a code and its operands (here zeros), a row of 9 to 16 bits a standard identifier word, a row of 17 to
32 bits an extended one, a longer row the bytes of a payload. The bits of a payload do not say which of the
payload formats it has: it is read as a response payload, the one format with fixed bits (DESIGN CHOICE, log entry 4). -/
def tableWords (nbits w : Nat) : Words :=
  if nbits ≤ 8 then .cmd (leBytes 16 (w % 2 ^ 8))
  else if nbits ≤ 16 then .bus .ident (leBytes 2 (w % 2 ^ 16))
  else if nbits ≤ 32 then .bus .ident (leBytes 4 (w % 2 ^ 32))
  else .bus .ack (leBytes 8 (w % 2 ^ 64))

/-- The instruction the decoder reads from table bits (none where it refuses). -/
def decodeTableWord (nbits w : Nat) : Option Instr :=
  match decode (tableWords nbits w) with
  | .ok i => some i
  | .error _ => none

end Sys2Proof
end

