-- ==== Sys2Proof/Machine/State.lean ====
section
/-!
DEFINITION. The state of FPE (10_state.md R20 to R37): the configuration CFG, the mutable state `S`, the
environment the rules read (receive queue, transmit path, timer, LOG), and the model's own fields (the inputs
that say who moves next, the response last returned to the host, the counter of free values). Plain data.
-/

namespace Sys2Proof.Machine

/-! ### Keyed data in one canonical form -/

/-- Values by number: a list of (number, value) pairs. A number that is not listed has the default value. -/
abbrev Sparse (α : Type) := List (Nat × α)

/-- The canonical form: numbers strictly rising, no entry equal to the default. -/
abbrev Sparse.wf {α : Type} (d : α) (m : Sparse α) : Prop :=
  m.Pairwise (fun x y => x.1 < y.1) ∧ ∀ c ∈ m, c.2 ≠ d

/-- The transfer buffer as memory: byte offsets and bytes (`Host.Cell`), R60. An offset that is not listed
reads `Memory.unlisted`. -/
abbrev Memory := List Host.Cell

/-- What an unlisted offset reads as: `0x00`, what BufRead gives past the end of the buffer (R16, R66; DEDUCED,
log entry 12). -/
def Memory.unlisted : Byte := 0x00

/-- The canonical form of the transfer buffer. -/
abbrev Memory.wf (m : Memory) : Prop := Sparse.wf Memory.unlisted m

/-! ### The mutable state `S` (R26 to R31) -/

/-- `S.LINK[l]` (R29). -/
structure Link where
  last      : Stamp
  connected : Bool
  deriving DecidableEq, Repr

/-- The reset value of a link (R37). -/
def Link.down : Link := ⟨⟨0, 0⟩, false⟩

/-- The record store `S.REC[c][s]` (R26): by class, then by segment; an unlisted slot is `none`. -/
abbrev RecStore := Sparse (Sparse (Option Record))

/-- The canonical form of the record store: that of the classes and that of every class's segments. -/
abbrev RecStore.wf (m : RecStore) : Prop :=
  Sparse.wf ([] : Sparse (Option Record)) m ∧ ∀ c ∈ m, Sparse.wf (none : Option Record) c.2

/-- `S.XS` (R31). -/
inductive XState where
  | idle
  | next
  | send
  | wait
  deriving DecidableEq, Repr

/-- `S.XRESULT` (R31): the result of the last finished session. -/
inductive XResult where
  | nothing
  | success (totalChunks : Nat) (retries : BitVec 16)
  | failed (chunk : Nat) (retries : Byte)
  | aborted (chunksAcked : Nat)
  deriving DecidableEq, Repr

/-- The transfer session registers (R31). -/
structure Xfer where
  /-- `S.XS`. -/
  st     : XState
  /-- `S.XBUF`. -/
  buf    : Memory
  /-- `S.XLEN`, `0 .. 2048`. -/
  len    : Nat
  /-- `S.XTOTAL`, `0 .. 256`. -/
  total  : Nat
  /-- `S.XCUR`, `0 .. 256`. -/
  cur    : Nat
  /-- `S.XATT`, `0 .. 256`. -/
  att    : Nat
  /-- `S.XBASE`. -/
  base   : BitVec 29
  /-- `S.XSEG`, `0 .. 7`. -/
  seg    : BitVec 3
  /-- `S.XTMO`. -/
  tmo    : BitVec 32
  /-- `S.XMAXR`. -/
  maxr   : Byte
  /-- `S.XT0`. -/
  t0     : Stamp
  /-- `S.XABORT`. -/
  abort  : Bool
  /-- `S.XRTOT`. -/
  rtot   : BitVec 16
  /-- `S.XRESULT`. -/
  result : XResult
  deriving DecidableEq, Repr

/-- The session registers after reset (R37). -/
def Xfer.reset : Xfer where
  st := .idle
  buf := []
  len := 0
  total := 0
  cur := 0
  att := 0
  base := 0
  seg := 0
  tmo := 0
  maxr := 0
  t0 := ⟨0, 0⟩
  abort := false
  rtot := 0
  result := .nothing

/-- The mutable state `S`, written only by the operations (R20). -/
structure Regs where
  /-- `S.SEG_EN` (R28). -/
  segEn : Byte
  /-- `S.REC` (R26). -/
  recs  : RecStore
  /-- `S.LINK` (R29), by link number. -/
  links : Sparse Link
  /-- `S.SEQ` (R30): the index of each cursor, by cursor number. -/
  seqs  : Sparse Byte
  /-- The session registers (R31). -/
  xfer  : Xfer
  deriving DecidableEq, Repr

/-- `S` after reset (R37): nothing listed, so every slot is `none`, every link down, every index 0. -/
def Regs.reset : Regs := ⟨0x00, [], [], [], Xfer.reset⟩

/-! ### The environment and the outputs (R35, R36, R312) -/

/-- `Frame` (R22). `len` is the length of `data`. -/
structure Frame where
  id   : BitVec 29
  ext  : Bool
  data : List Byte
  deriving DecidableEq, Repr

/-- What a frame can be (R22): at most 8 bytes, and a standard identifier below `2^11`. -/
def Frame.wf (f : Frame) : Bool :=
  decide (f.data.length ≤ Config.payloadBytes) && (f.ext || decide (f.id.toNat ≤ Config.stdIdMax))

/-- The outcomes and the informational events of R312, the entries of LOG (R338). -/
inductive Event where
  | txFail (id : BitVec 29)
  | unknownFrame (id : BitVec 29) (ext : Bool)
  | rangeViolation (c seg : Nat) (viol : List Nat)
  | linkDown (l : Nat) (e : BitVec 32)
  | chunkTimeout (k : Nat)
  | chunkNacked (k : Nat) (echo : Byte)
  | badResponse (id : BitVec 29)
  | xferDone (r : XResult)
  | seqConfigError (q : Nat) (i : Byte) (len : Nat)
  | xferBusy
  | xferIdle
  | badCommand (code : Byte)
  | badOperand (code : Byte)
  | linkUp (l : Nat)
  | chunkAcked (k : Nat) (ck : BitVec 16)
  deriving DecidableEq, Repr

/-- What a host command returns (R17, and the result line of each rule). -/
inductive Ret where
  /-- No command has returned yet. -/
  | nothing
  /-- A command without a result is done. -/
  | done
  | record (r : Record)
  | encoded (p : List Byte) (flags : List (Bool × Bool))
  | range (ok : Bool) (viol : List Nat)
  | payload (p : List Byte)
  | ack (r : Option Ack)
  | stdId (id : BitVec 11)
  | extId (id : BitVec 29)
  | slot (r : Option (Nat × Nat))
  | parsed (r : Option (XidKind × Byte × BitVec 3))
  /-- TX_RECORD's `ok`, with the ENCODE flags. -/
  | sent (flags : List (Bool × Bool))
  /-- TX_RECORD's `TxFail(id)`, with the ENCODE flags (R172). -/
  | notSent (id : BitVec 29) (flags : List (Bool × Bool))
  | elapsed (e : BitVec 32)
  | timedOut (b : Bool)
  | linkStat (connected : Bool) (ticks ovf : BitVec 32)
  | stateValue (v : Byte)
  | accepted
  | xferStat (xs : XState) (cur total att : Nat) (rtot : BitVec 16) (abort : Bool) (result : XResult)
  | segMask (m : Byte)
  | recSlot (r : Option Record)
  /-- The command ended with an outcome (R318). -/
  | raised (e : Event)
  deriving DecidableEq, Repr

/-- One move of an agent or of the environment (R19, R35). Which move comes next is plain data in the state:
steps of different agents interleave in any order (R19, R316), and a statement over every list of inputs is one
over every interleaving (DESIGN CHOICE, log entry 7). -/
inductive Input where
  /-- The host issues a command: its code and operand bytes (R106). -/
  | host (bytes : List Byte)
  /-- The receive path, the transfer engine or the timer takes a step: its code (R106). -/
  | agent (bytes : List Byte)
  /-- The peer puts a word of a frame format on the bus (R90). -/
  | peer (fmt : BusFormat) (bytes : List Byte)
  /-- The peer places a whole frame in RXQ (R35, R108). -/
  | enqueue (f : Frame)
  /-- The environment lays down the transport's answer to a coming `Send` (R108, R332). -/
  | sendAnswer (ok : Bool)
  /-- The timer breaks its contract and reads the given pair from now on (R362, U6; DESIGN CHOICE, log entry 28). -/
  | mistime (t : Stamp)
  /-- The block's reset input (R350). -/
  | resetInput
  deriving DecidableEq, Repr

/-- A frame handed to the transport and its answer (R330). -/
structure Sent where
  frame : Frame
  ok    : Bool
  deriving DecidableEq, Repr

/-- The identifier of the frame the peer is putting on the bus. -/
structure BusHead where
  id  : BitVec 29
  ext : Bool
  deriving DecidableEq, Repr

/-! ### The state -/

/-- The state of the machine. -/
structure State where
  /-- `CFG` (R21): no step writes it. -/
  cfg     : Cfg
  /-- `S` (R26 to R31). -/
  regs    : Regs
  /-- `TIME` (R35, R326). -/
  time    : Stamp
  /-- The model's own (DESIGN CHOICE, log entry 28): the timer has kept its contract so far (R326, R362, decision
  D14). -/
  timerOk : Bool
  /-- `RXQ` (R35): oldest first. -/
  rxq     : List Frame
  /-- Environment (DESIGN CHOICE, log entry 8): the identifier the peer put on the bus last. -/
  head    : BusHead
  /-- Environment (DESIGN CHOICE, log entry 6): the transport's answers to the coming sends, next first. -/
  answers : List Bool
  /-- The transmit path (R35): the frames handed to `Send`, oldest first, with the answers. -/
  sent    : List Sent
  /-- `LOG` (R36): oldest first. -/
  log     : List Event
  /-- What the last host command returned (DESIGN CHOICE, log entry 9). -/
  ret     : Ret
  /-- The model's own (DESIGN CHOICE, log entry 7): the moves to come, next first. -/
  inputs  : List Input
  /-- The model's own (DESIGN CHOICE, log entry 5): how many free values have been drawn. -/
  draws   : Nat
  deriving DecidableEq, Repr

/-- The machine right after reset (R37, R350), with the example configuration EX1 (DESIGN CHOICE, log entry 2); the timer,
RXQ, the transmit path and LOG, which no reset writes (R352), at the values log entry 10 names (DESIGN CHOICE). -/
def State.reset : State where
  cfg := Cfg.ex1
  regs := Regs.reset
  time := ⟨0, 0⟩
  timerOk := true
  rxq := []
  head := ⟨0, false⟩
  answers := []
  sent := []
  log := []
  ret := .nothing
  inputs := []
  draws := 0

/-! ### How a step can stop -/

/-- FPE has no fault state, no halt and no stuck state (R310): there is no fault, and no step raises one. -/
inductive Fault where
  deriving DecidableEq, Repr

/-- The stops of the model. -/
inductive Refusal where
  /-- Raised by exec only, for an instruction without a meaning; safe. No instruction is refused so. -/
  | notModelled (mnemonic : String)
  /-- Raised by RESOLVE and TX_RECORD when `base + s*0x100` exceeds 11 bits, a configuration `ConfigWF` (b)
  excludes and the model refuses rather than truncate (R162); safe. -/
  | identifierOverflow
  /-- Raised by ENCODE and TX_RECORD on a table with an entry of factor 0, for which ENCODE is undefined and the
  model refuses the configuration (R144); safe. -/
  | zeroFactor
  /-- Raised by DECODE, ENCODE, TX_RECORD, and by RX_FRAME for a frame of such a class, on a table with an entry of
  width 0 or past bit 63, a configuration the model refuses (R64); safe. -/
  | fieldOutsideWord
  deriving DecidableEq, Repr

end Sys2Proof.Machine
end

