-- ==== Sys2Proof/Machine/Ops.lean ====
section
/-!
DEFINITION. The named operations over the state: the keyed stores and the transfer buffer, the accessors of every
register, the log, raising an outcome (60_exceptions.md R318), `Now()` and `Elapsed` (R326, R192), `Send`
(R330), and reset (R350).
-/

namespace Sys2Proof.Machine

/-! ### Keyed stores -/

/-- The value at a number: the first entry of that number, else the default. -/
def Sparse.get {α : Type} (d : α) : Sparse α → Nat → α
  | [], _ => d
  | (a, v) :: m, k => if a = k then v else Sparse.get d m k

/-- Without the entries of a number. -/
def Sparse.drop {α : Type} (m : Sparse α) (k : Nat) : Sparse α := m.filter (fun c => c.1 != k)

/-- An entry put before the first larger number. -/
def Sparse.insert {α : Type} : Sparse α → Nat → α → Sparse α
  | [], k, v => [(k, v)]
  | c :: m, k, v => if k < c.1 then (k, v) :: c :: m else c :: Sparse.insert m k v

/-- Write a value at a number: writing the default removes the entry. -/
def Sparse.put {α : Type} [DecidableEq α] (d : α) (m : Sparse α) (k : Nat) (v : α) : Sparse α :=
  if v = d then Sparse.drop m k else Sparse.insert (Sparse.drop m k) k v

/-! ### The transfer buffer (R60, R66) -/

/-- One byte of the buffer. -/
def Memory.read (m : Memory) (a : Nat) : Byte := Sparse.get Memory.unlisted m a

/-- Write one byte of the buffer. -/
def Memory.write (m : Memory) (a : Nat) (b : Byte) : Memory := Sparse.put Memory.unlisted m a b

/-- The buffer that holds `bs` from offset `a` on, and nothing else. -/
def Memory.ofBytesAt : Nat → List Byte → Memory
  | _, [] => []
  | a, b :: bs => if b = Memory.unlisted then ofBytesAt (a + 1) bs else (a, b) :: ofBytesAt (a + 1) bs

/-- The buffer that holds `bs`: what XFER_START writes (R244). -/
def Memory.ofBytes (bs : List Byte) : Memory := Memory.ofBytesAt 0 bs

/-- The `n` bytes from offset `a` on. -/
def Memory.readBytes (m : Memory) (a : Nat) : Nat → List Byte
  | 0 => []
  | n + 1 => Memory.read m a :: Memory.readBytes m (a + 1) n

/-! ### The record store (R26) -/

/-- `S.REC[c][s]`. -/
def RecStore.get (m : RecStore) (c seg : Nat) : Option Record := Sparse.get none (Sparse.get [] m c) seg

/-- `S.REC[c][s] <- r`. -/
def RecStore.put (m : RecStore) (c seg : Nat) (r : Option Record) : RecStore :=
  Sparse.put [] m c (Sparse.put none (Sparse.get [] m c) seg r)

/-! ### Updates of the state -/

/-- Write `S`. -/
def State.setRegs (s : State) (r : Regs) : State := { s with regs := r }
/-- Write the timer. -/
def State.setTime (s : State) (t : Stamp) : State := { s with time := t }
/-- The timer breaks its contract and reads `t` (R362); no step restores the contract. -/
def State.breakTime (s : State) (t : Stamp) : State := { s with time := t, timerOk := false }
/-- Write RXQ. -/
def State.setRxq (s : State) (q : List Frame) : State := { s with rxq := q }
/-- Write the identifier the peer put on the bus. -/
def State.setHead (s : State) (h : BusHead) : State := { s with head := h }
/-- Write the transport's coming answers. -/
def State.setAnswers (s : State) (a : List Bool) : State := { s with answers := a }
/-- Append a frame handed to the transport. -/
def State.pushSent (s : State) (x : Sent) : State := { s with sent := s.sent ++ [x] }
/-- `Log(e)` (R16, R338). -/
def State.pushLog (s : State) (e : Event) : State := { s with log := s.log ++ [e] }
/-- The response to the host. -/
def State.setRet (s : State) (r : Ret) : State := { s with ret := r }
/-- The moves to come. -/
def State.setInputs (s : State) (l : List Input) : State := { s with inputs := l }
/-- One more free value drawn. -/
def State.countDraw (s : State) : State := { s with draws := s.draws + 1 }

/-- Write `S.SEG_EN`. -/
def State.setSegEn (s : State) (m : Byte) : State := s.setRegs { s.regs with segEn := m }
/-- Write the record store. -/
def State.setRecs (s : State) (m : RecStore) : State := s.setRegs { s.regs with recs := m }
/-- Write the link registers. -/
def State.setLinks (s : State) (m : Sparse Link) : State := s.setRegs { s.regs with links := m }
/-- Write the cursor indices. -/
def State.setSeqs (s : State) (m : Sparse Byte) : State := s.setRegs { s.regs with seqs := m }
/-- Write the session registers. -/
def State.setXfer (s : State) (x : Xfer) : State := s.setRegs { s.regs with xfer := x }

/-! ### Registers by number -/

/-- `S.REC[c][s]`. -/
def State.record (s : State) (c seg : Nat) : Option Record := RecStore.get s.regs.recs c seg
/-- `RecWrite(c, s, r)` (R16): the whole record is replaced (R67). -/
def State.recWrite (s : State) (c seg : Nat) (r : Record) : State :=
  s.setRecs (RecStore.put s.regs.recs c seg (some r))

/-- `S.LINK[l]`. -/
def State.link (s : State) (l : Nat) : Link := Sparse.get Link.down s.regs.links l
/-- `S.LINK[l] <- v`. -/
def State.putLink (s : State) (l : Nat) (v : Link) : State := s.setLinks (Sparse.put Link.down s.regs.links l v)

/-- `S.SEQ[q].index`. -/
def State.seqIndex (s : State) (q : Nat) : Byte := Sparse.get 0 s.regs.seqs q
/-- `S.SEQ[q].index <- v`. -/
def State.putSeq (s : State) (q : Nat) (v : Byte) : State := s.setSeqs (Sparse.put 0 s.regs.seqs q v)

/-- The playlist and repeat flag of cursor `q` (R21). -/
def State.playlist (s : State) (q : Nat) : Playlist := s.cfg.seqs.getD q ⟨[], false⟩

/-- `BufRead(off, n)` (R16): a byte at an offset past `S.XLEN` reads `0x00`. -/
def State.bufRead (s : State) (off n : Nat) : List Byte :=
  (s.regs.xfer.buf.readBytes off n).mapIdx fun i b => if off + i < s.regs.xfer.len then b else 0x00

/-- The cursor bound to a link, if there is one, returns to its initial index (R198, R200). -/
def State.resetBoundCursor (s : State) (l : Nat) : State :=
  match s.cfg.seqOfLink.getD l none with
  | some q => s.putSeq q 0
  | none => s

/-! ### Raising an outcome (R318)

FPE has no exception in the processor's sense: nothing is saved, no mode changes, control goes nowhere. This is
the whole of it, and there is nothing to return from (R320). -/

/-- `raise E(info)` in a host command: the outcome goes to LOG and to the host (R16, R318). -/
def State.raise (s : State) (e : Event) : State := (s.pushLog e).setRet (.raised e)

/-- A host command that ends with its result. -/
def answer (s : State) (r : Ret) : Host.Outcome State Fault Refusal := .next (s.setRet r)

/-- A host command that ends with an outcome and no other effect. -/
def raised (s : State) (e : Event) : Host.Outcome State Fault Refusal := .next (s.raise e)

/-- The code R312 gives an outcome; the three informational events have none (decision D29: labels only). -/
def Event.code : Event → Option Byte
  | .txFail _ => some 0x01
  | .unknownFrame _ _ => some 0x02
  | .rangeViolation _ _ _ => some 0x03
  | .linkDown _ _ => some 0x04
  | .chunkTimeout _ => some 0x05
  | .chunkNacked _ _ => some 0x06
  | .badResponse _ => some 0x07
  | .xferDone (.failed _ _) => some 0x08
  | .xferDone (.aborted _) => some 0x09
  | .xferDone _ => none
  | .seqConfigError _ _ _ => some 0x0A
  | .xferBusy => some 0x0B
  | .xferIdle => some 0x0C
  | .badCommand _ => some 0x0D
  | .badOperand _ => some 0x0E
  | .linkUp _ => none
  | .chunkAcked _ _ => none

/-! ### Refused configurations (R64, R144) -/

/-- Why ENCODE of a table is refused, if it is: a field outside the word (R64), or a factor 0 (R144). -/
def encodeRefusal (t : FieldTable) : Option Refusal :=
  if hasFieldOutsideWord t then some .fieldOutsideWord
  else if hasZeroFactor t then some .zeroFactor
  else none

/-! ### The timer and elapsed time (R192, R326) -/

/-- The timer after one tick (R326). -/
def Stamp.tick (period : Nat) (t : Stamp) : Stamp :=
  if t.ticks.toNat + 1 < period then ⟨t.ticks + 1, t.ovf⟩ else ⟨0, t.ovf + 1⟩

/-- Whether `Elapsed` from a snapshot to now has no stated result (R206). -/
def State.torn (s : State) (last : Stamp) : Bool := tornSample s.timerOk s.cfg.period last s.time

/-- `Elapsed(PERIOD, last, Now())` (R192): any `u32` where the rule gives no result (R206, U6). -/
def State.elapsed (s : State) (last : Stamp) : BitVec 32 :=
  if s.torn last then Config.freeElapsed s.draws else elapsedSat s.cfg.period last s.time

/-- The state after `Elapsed` was evaluated: it differs only where a free value was drawn. -/
def State.measured (s : State) (last : Stamp) : State := if s.torn last then s.countDraw else s

/-! ### The transport (R330, R332) -/

/-- What the transport answers to the next `Send`: what the environment laid down, else any of ok and fail. -/
def State.sendOk (s : State) : Bool :=
  match s.answers with
  | a :: _ => a
  | [] => Config.freeSend s.draws

/-- The state after `Send(id, ext, P)`: the frame is handed over and one answer is used up. -/
def State.afterSend (s : State) (f : Frame) : State :=
  match s.answers with
  | a :: rest => (s.setAnswers rest).pushSent ⟨f, a⟩
  | [] => s.countDraw.pushSent ⟨f, Config.freeSend s.draws⟩

/-- The peer appends a frame to RXQ (R35). What is no frame (R22) cannot be placed there. -/
def State.deliver (s : State) (f : Frame) : State := if f.wf then s.setRxq (s.rxq ++ [f]) else s

/-! ### Reset (R350, R352, R296) -/

/-- Reset of the block: `S` takes the values of R37; CFG, the timer, RXQ, the transmit path and LOG stay. -/
def State.resetBlock (s : State) : State := s.setRegs Regs.reset

end Sys2Proof.Machine
end

