-- ==== Sys2Proof/Machine/Bus.lean ====
section
/-!
DEFINITION. The frame formats as what the peer does on the bus (00_scope.md R19, 10_state.md R35, 30_encoding.md
R90 to R105; DESIGN CHOICE, log entry 8): an identifier row names the frame being put on the bus, a payload row gives its data
bytes and completes it, and the frame is then at the tail of RXQ.
-/

namespace Sys2Proof.Machine

/-- The peer names the identifier of the frame it is putting on the bus. -/
def State.putHead (s : State) (id : BitVec 29) (ext : Bool) : State := s.setHead ⟨id, ext⟩

/-- The peer completes the frame with its data bytes: it is placed in RXQ. -/
def State.putData (s : State) (p : List Byte) : State := s.deliver ⟨s.head.id, s.head.ext, p⟩

/-- The transfer base of a request or response identifier's bits 28 to 16 (R100). -/
def baseOf (b : BitVec 13) : Nat := b.toNat * 2 ^ 16

/-- F_TELEM (R96): a standard identifier. -/
def execFTelem (id : BitVec 11) (s : State) : Host.Outcome State Fault Refusal :=
  .next (s.putHead (id.setWidth 29) false)

/-- F_XREQ (R98): the extended identifier of a transfer request. -/
def execFXreq (b : BitVec 13) (k : Byte) (seg : BitVec 3) (s : State) : Host.Outcome State Fault Refusal :=
  .next (s.putHead (BitVec.ofNat 29 (xidReqOf (baseOf b) k.toNat seg.toNat)) true)

/-- F_XRSP (R99): the extended identifier of a transfer response. -/
def execFXrsp (b : BitVec 13) (k : Byte) (seg : BitVec 3) (s : State) : Host.Outcome State Fault Refusal :=
  .next (s.putHead (BitVec.ofNat 29 (xidRspOf (baseOf b) k.toNat seg.toNat)) true)

/-- P_FIELDS (R93): the data bytes of a telemetry frame. -/
def execPFields (p : List Byte) (s : State) : Host.Outcome State Fault Refusal := .next (s.putData p)

/-- P_ACK (R104): the data bytes of a response whose status is neither ACK nor NACK. -/
def execPAck (status k : Byte) (ck : BitVec 16) (rest : List Byte) (s : State) : Host.Outcome State Fault Refusal :=
  .next (s.putData (ackWord status k ck rest))

/-- P_ACK.ACK (R104, R254): the data bytes of a positive acknowledgment. -/
def execPAckAck (k : Byte) (ck : BitVec 16) (rest : List Byte) (s : State) : Host.Outcome State Fault Refusal :=
  .next (s.putData (ackWord Config.stAck k ck rest))

/-- P_ACK.NACK (R104, R254): the data bytes of a negative acknowledgment. -/
def execPAckNack (k : Byte) (ck : BitVec 16) (rest : List Byte) (s : State) : Host.Outcome State Fault Refusal :=
  .next (s.putData (ackWord Config.stNack k ck rest))

/-- P_CHUNK (R105): the data bytes of a request. -/
def execPChunk (p : List Byte) (s : State) : Host.Outcome State Fault Refusal := .next (s.putData p)

end Sys2Proof.Machine
end

