-- ==== Sys2Proof/Machine/Codec.lean ====
section
/-!
DEFINITION. Unit CODEC, the frame codec: DECODE, ENCODE, RANGECHK, ACKPACK, ACKUNPACK (40_codec.md). All five
read no mutable state and write none; what they compute is returned to the host.
-/

namespace Sys2Proof.Machine

/-- DECODE (R134): no range check is applied. A table with a field outside the word is refused (R64). -/
def execDecode (c : Nat) (p : List Byte) (s : State) : Host.Outcome State Fault Refusal :=
  match s.cfg.classes[c]? with
  | some k =>
    if p.length ≤ Config.payloadBytes then
      if hasFieldOutsideWord k.table then .refused .fieldOutsideWord
      else answer s (.record (decodeRecord k.table p))
    else raised s (.badOperand 0x01)
  | none => raised s (.badOperand 0x01)

/-- ENCODE (R138): out-of-range values are clamped, never rejected. A field outside the word (R64) and
factor 0 (R144) are refused configurations. -/
def execEncode (c : Nat) (pr : PhysRecord) (s : State) : Host.Outcome State Fault Refusal :=
  match s.cfg.classes[c]? with
  | some k =>
    if pr.length = k.table.length then
      match encodeRefusal k.table with
      | some r => .refused r
      | none =>
        answer s (.encoded (encodePayload s.cfg.encClampMode k.table pr) (encodeFlags s.cfg.encClampMode k.table pr))
    else raised s (.badOperand 0x02)
  | none => raised s (.badOperand 0x02)

/-- RANGECHK (R140). -/
def execRangechk (c : Nat) (r : Record) (s : State) : Host.Outcome State Fault Refusal :=
  match s.cfg.classes[c]? with
  | some k =>
    if recordTyped k.table r then answer s (.range (rangeOk k.table r) (violations k.table r))
    else raised s (.badOperand 0x03)
  | none => raised s (.badOperand 0x03)

/-- ACKPACK (R146). -/
def execAckpack (status k : Byte) (ck : BitVec 16) (s : State) : Host.Outcome State Fault Refusal :=
  answer s (.payload (ackPack status k ck))

/-- ACKUNPACK (R148): the checksum is returned, never verified. -/
def execAckunpack (p : List Byte) (s : State) : Host.Outcome State Fault Refusal :=
  if p.length ≤ Config.payloadBytes then answer s (.ack (ackUnpack p)) else raised s (.badOperand 0x05)

end Sys2Proof.Machine
end

