-- ==== Sys2Proof/Machine/LinkHealth.lean ====
section
/-!
DEFINITION. Unit LINK, the link health tracker: LH_ELAPSED, LH_RX, LH_CHECK, LH_DISC, LH_STAT (42_link_health.md).
-/

namespace Sys2Proof.Machine

/-- `LinkRefresh(l)` (R196): the snapshot is now, the link is connected; LinkUp is logged if it was not. -/
def State.linkRefresh (s : State) (l : Nat) : State :=
  if (s.link l).connected then s.putLink l ⟨s.time, true⟩ else (s.putLink l ⟨s.time, true⟩).pushLog (.linkUp l)

/-- What LH_CHECK does on a timeout (R198): the link is down, the snapshot stays, the bound cursor returns to 0,
LinkDown is logged only if the link was connected. -/
def State.linkTimeout (s : State) (l : Nat) (e : BitVec 32) : State :=
  if (s.link l).connected then
    ((s.putLink l ⟨(s.link l).last, false⟩).resetBoundCursor l).pushLog (.linkDown l e)
  else (s.putLink l ⟨(s.link l).last, false⟩).resetBoundCursor l

/-- What LH_DISC does (R200): the link returns to its reset value, the bound cursor to 0. -/
def State.linkDisconnect (s : State) (l : Nat) : State :=
  if (s.link l).connected then ((s.putLink l Link.down).resetBoundCursor l).pushLog (.linkDown l 0)
  else (s.putLink l Link.down).resetBoundCursor l

/-- LH_ELAPSED (R194). -/
def execLhElapsed (l : Nat) (s : State) : Host.Outcome State Fault Refusal :=
  if l < s.cfg.nLinks then answer (s.measured (s.link l).last) (.elapsed (s.elapsed (s.link l).last))
  else raised s (.badOperand 0x20)

/-- LH_RX (R196). -/
def execLhRx (l : Nat) (s : State) : Host.Outcome State Fault Refusal :=
  if l < s.cfg.nLinks then answer (s.linkRefresh l) .done else raised s (.badOperand 0x21)

/-- LH_CHECK (R198): the comparison is strict, and there is no test of `connected` before it. -/
def execLhCheck (l : Nat) (threshold : BitVec 32) (s : State) : Host.Outcome State Fault Refusal :=
  if l < s.cfg.nLinks then
    if threshold < s.elapsed (s.link l).last then
      answer ((s.measured (s.link l).last).linkTimeout l (s.elapsed (s.link l).last)) (.timedOut true)
    else answer (s.measured (s.link l).last) (.timedOut false)
  else raised s (.badOperand 0x22)

/-- LH_DISC (R200). -/
def execLhDisc (l : Nat) (s : State) : Host.Outcome State Fault Refusal :=
  if l < s.cfg.nLinks then answer (s.linkDisconnect l) .done else raised s (.badOperand 0x23)

/-- LH_STAT (R202). -/
def execLhStat (l : Nat) (s : State) : Host.Outcome State Fault Refusal :=
  if l < s.cfg.nLinks then
    answer s (.linkStat (s.link l).connected (s.link l).last.ticks (s.link l).last.ovf)
  else raised s (.badOperand 0x24)

end Sys2Proof.Machine
end

