-- ==== Sys2Proof/Machine/Transfer.lean ====
section
/-!
DEFINITION. Unit XFER, the reliable chunked transfer engine: XFER_START, XFER_ABORT, XFER_STAT, X_NEXT, X_SEND,
X_TMO, and the response arm of RX_FRAME (44_chunked_transfer.md). A step of the engine that is not enabled is not
taken: nothing changes (DESIGN CHOICE, log entry 11).
-/

namespace Sys2Proof.Machine

/-- `Finish(r)` (R248). -/
def State.finish (s : State) (r : XResult) : State :=
  (s.setXfer { s.regs.xfer with result := r, st := .idle, abort := false }).pushLog (.xferDone r)

/-- `AttemptFailed()` (R252): one more send of the same chunk, or the session fails. -/
def State.attemptFailed (s : State) : State :=
  if s.regs.xfer.att + 1 ≤ s.regs.xfer.maxr.toNat then
    s.setXfer { s.regs.xfer with att := s.regs.xfer.att + 1, rtot := s.regs.xfer.rtot + 1, st := .send }
  else
    (s.setXfer { s.regs.xfer with att := s.regs.xfer.att + 1 }).finish
      (.failed s.regs.xfer.cur s.regs.xfer.maxr)

/-- The session registers an accepted XFER_START leaves (R244); `S.XT0` is not written
(DEDUCED, log entry 13). -/
def Xfer.started (x : Xfer) (b : List Byte) (base : BitVec 29) (seg : Nat) (tmo : BitVec 32) (maxr : Byte) : Xfer where
  st := .next
  buf := Memory.ofBytes b
  len := b.length
  total := ceilDiv b.length Config.chunkSize
  cur := 0
  att := 0
  base := base
  seg := BitVec.ofNat 3 seg
  tmo := tmo
  maxr := maxr
  t0 := x.t0
  abort := false
  rtot := 0
  result := .nothing

/-- XFER_START (R244): XferBusy before the operand checks (R316). The segment is one of `0 .. N_SEG-1` (R10, decision
D9; DEDUCED, log entry 18). -/
def execXferStart (b : List Byte) (base : BitVec 29) (seg : Nat) (tmo : BitVec 32) (maxr : Byte) (s : State) :
    Host.Outcome State Fault Refusal :=
  if s.regs.xfer.st ≠ .idle then raised s .xferBusy
  else if Config.xferMaxBytes < b.length then raised s (.badOperand 0x40)
  else if xferIdWF base seg = false then raised s (.badOperand 0x40)
  else if s.cfg.nSeg ≤ seg then raised s (.badOperand 0x40)
  else answer (s.setXfer (s.regs.xfer.started b base seg tmo maxr)) .accepted

/-- XFER_ABORT (R260): the request is latched; X_NEXT acts on it. -/
def execXferAbort (s : State) : Host.Outcome State Fault Refusal :=
  if s.regs.xfer.st = .idle then raised s .xferIdle
  else answer (s.setXfer { s.regs.xfer with abort := true }) .done

/-- XFER_STAT (R262). -/
def execXferStat (s : State) : Host.Outcome State Fault Refusal :=
  answer s (.xferStat s.regs.xfer.st s.regs.xfer.cur s.regs.xfer.total s.regs.xfer.att s.regs.xfer.rtot
    s.regs.xfer.abort s.regs.xfer.result)

/-- X_NEXT (R246): completion is tested before the abort request. -/
def execXNext (s : State) : Host.Outcome State Fault Refusal :=
  if s.regs.xfer.st = .next then
    if s.regs.xfer.cur = s.regs.xfer.total then .next (s.finish (.success s.regs.xfer.total s.regs.xfer.rtot))
    else if s.regs.xfer.abort then .next (s.finish (.aborted s.regs.xfer.cur))
    else .next (s.setXfer { s.regs.xfer with att := 0, st := .send })
  else .next s

/-- The identifier of the current chunk's request frame (R250). -/
def State.requestId (s : State) : BitVec 29 :=
  BitVec.ofNat 29 (xidReqOf s.regs.xfer.base.toNat s.regs.xfer.cur s.regs.xfer.seg.toNat)

/-- The request frame of the current chunk (R250): extended, 8 bytes of the buffer at `8 * XCUR`. -/
def State.chunkFrame (s : State) : Frame :=
  ⟨s.requestId, true, s.bufRead (Config.chunkSize * s.regs.xfer.cur) Config.chunkSize⟩

/-- X_SEND after a `Send` that was answered ok (R250): the wait begins, measured from now. -/
def State.beginWait (s : State) : State := s.setXfer { s.regs.xfer with t0 := s.time, st := .wait }

/-- X_SEND (R250): a failed `Send` is a failed attempt without a wait. -/
def execXSend (s : State) : Host.Outcome State Fault Refusal :=
  if s.regs.xfer.st = .send then
    if s.sendOk then .next (s.afterSend s.chunkFrame).beginWait
    else .next ((s.afterSend s.chunkFrame).pushLog (.txFail s.requestId)).attemptFailed
  else .next s

/-- X_TMO (R258): enabled when the elapsed time has reached the timeout. -/
def execXTmo (s : State) : Host.Outcome State Fault Refusal :=
  if s.regs.xfer.st = .wait then
    if s.regs.xfer.tmo ≤ s.elapsed s.regs.xfer.t0 then
      .next ((s.measured s.regs.xfer.t0).pushLog (.chunkTimeout s.regs.xfer.cur)).attemptFailed
    else .next (s.measured s.regs.xfer.t0)
  else .next s

/-- The frame is the awaited response (R170, R254): extended, with the one expected identifier, during a wait. -/
def State.awaits (s : State) (f : Frame) : Bool :=
  decide (s.regs.xfer.st = .wait) && f.ext
    && decide (f.id.toNat = xidRspOf s.regs.xfer.base.toNat s.regs.xfer.cur s.regs.xfer.seg.toNat)

/-- The current chunk is acknowledged (step 4 of R254). -/
def State.chunkAcked (s : State) (ck : BitVec 16) : State :=
  (s.pushLog (.chunkAcked s.regs.xfer.cur ck)).setXfer
    { s.regs.xfer with cur := s.regs.xfer.cur + 1, att := 0, st := .next }

/-- `XferResponse(f)` (R254): the checksum is logged and never compared; a NACK's echo is not tested. -/
def State.xferResponse (s : State) (f : Frame) : State :=
  match ackUnpack f.data with
  | none => s.pushLog (.badResponse f.id)
  | some a =>
    if a.status = Config.stAck ∧ a.echo.toNat = s.regs.xfer.cur then s.chunkAcked a.cksum
    else if a.status = Config.stNack then (s.pushLog (.chunkNacked s.regs.xfer.cur a.echo)).attemptFailed
    else s.pushLog (.badResponse f.id)

end Sys2Proof.Machine
end

