-- ==== Sys2Proof/Machine/Receive.lean ====
section
/-!
DEFINITION. RX_FRAME, the step of the receive path (41_registry_dispatch.md R170).
-/

namespace Sys2Proof.Machine

/-- The link of an accepted frame's class is refreshed, if it has one (R170). -/
def State.refreshLinkOf (s : State) (k : MsgClass) : State :=
  match k.link with
  | some l => s.linkRefresh l
  | none => s

/-- A frame classified to class `c`, segment `seg` (R170): discarded whole when a field is out of range, else
its record replaces the slot's and its link is refreshed. -/
def State.acceptRecord (s : State) (c seg : Nat) (k : MsgClass) (p : List Byte) : State :=
  if rangeOk k.table (decodeRecord k.table p) then
    (s.recWrite c seg (decodeRecord k.table p)).refreshLinkOf k
  else s.pushLog (.rangeViolation c seg (violations k.table (decodeRecord k.table p)))

/-- Telemetry dispatch (the `else` arm of R170). -/
def State.dispatchTelemetry (s : State) (f : Frame) : State :=
  match classifyId s.cfg s.regs.segEn f.id.toNat f.ext with
  | none => s.pushLog (.unknownFrame f.id f.ext)
  | some (c, seg) =>
    match s.cfg.classes[c]? with
    | some k => s.acceptRecord c seg k f.data
    | none => s.pushLog (.unknownFrame f.id f.ext)

/-- What RX_FRAME does with a frame it has taken from RXQ (R170): the awaited response goes to the transfer
engine, everything else to telemetry dispatch. -/
def State.receive (s : State) (f : Frame) : State :=
  if s.awaits f then s.xferResponse f else s.dispatchTelemetry f

/-- The frame would be dispatched to a class whose table has a field outside the word (R64). -/
def State.refusesFrame (s : State) (f : Frame) : Bool :=
  !s.awaits f &&
    match classifyId s.cfg s.regs.segEn f.id.toNat f.ext with
    | some (c, _) => s.cfg.classes[c]?.any fun k => hasFieldOutsideWord k.table
    | none => false

/-- RX_FRAME (R170): enabled when RXQ holds a frame; its head is removed and handled. A class with a field outside
the word is refused (R64). -/
def execRxFrame (s : State) : Host.Outcome State Fault Refusal :=
  match s.rxq with
  | [] => .next s
  | f :: rest => if s.refusesFrame f then .refused .fieldOutsideWord else .next ((s.setRxq rest).receive f)

end Sys2Proof.Machine
end

