-- ==== Sys2Proof/Machine/Registry.lean ====
section
/-!
DEFINITION. Unit CODEC, the identifier registry: RESOLVE, CLASSIFY, XID_REQ, XID_RSP, XID_PARSE, TX_RECORD
(41_registry_dispatch.md).
-/

namespace Sys2Proof.Machine

/-- RESOLVE (R162): either direction, without reading `S.SEG_EN`. A sum above 11 bits is refused as a
configuration error rather than truncated. -/
def execResolve (c seg : Nat) (s : State) : Host.Outcome State Fault Refusal :=
  match s.cfg.classes[c]? with
  | some k =>
    if seg < s.cfg.nSeg then
      if telemId k.base seg ≤ Config.stdIdMax then answer s (.stdId (BitVec.ofNat 11 (telemId k.base seg)))
      else .refused .identifierOverflow
    else raised s (.badOperand 0x10)
  | none => raised s (.badOperand 0x10)

/-- CLASSIFY (R164): it logs nothing. -/
def execClassify (id : BitVec 29) (ext : Bool) (s : State) : Host.Outcome State Fault Refusal :=
  answer s (.slot (classifyId s.cfg s.regs.segEn id.toNat ext))

/-- XID_REQ (R174). -/
def execXidReq (base : BitVec 29) (k : Byte) (seg : Nat) (s : State) : Host.Outcome State Fault Refusal :=
  if xferIdWF base seg then answer s (.extId (BitVec.ofNat 29 (xidReqOf base.toNat k.toNat seg)))
  else raised s (.badOperand 0x12)

/-- XID_RSP (R176). -/
def execXidRsp (base : BitVec 29) (k : Byte) (seg : Nat) (s : State) : Host.Outcome State Fault Refusal :=
  if xferIdWF base seg then answer s (.extId (BitVec.ofNat 29 (xidRspOf base.toNat k.toNat seg)))
  else raised s (.badOperand 0x13)

/-- XID_PARSE (R178). -/
def execXidParse (id base : BitVec 29) (s : State) : Host.Outcome State Fault Refusal :=
  if base.toNat % 0x10000 = 0 then answer s (.parsed (xidParseOf id base)) else raised s (.badOperand 0x14)

/-- The frame TX_RECORD sends (R172): standard, always 8 bytes. -/
def recordFrame (m : ClampMode) (k : MsgClass) (seg : Nat) (pr : PhysRecord) : Frame :=
  ⟨BitVec.ofNat 29 (telemId k.base seg), false, encodePayload m k.table pr⟩

/-- `Send` and its result (R172): `ok`, or the outcome TxFail, which goes to LOG and to the host (R318); the ENCODE
flags are returned with the result. -/
def State.sendRecord (s : State) (f : Frame) (flags : List (Bool × Bool)) : State :=
  if s.sendOk then (s.afterSend f).setRet (.sent flags)
  else ((s.afterSend f).pushLog (.txFail f.id)).setRet (.notSent f.id flags)

/-- TX_RECORD (R172): one `Send`, no retry, no effect on any link or on `S`. -/
def execTxRecord (c seg : Nat) (pr : PhysRecord) (s : State) : Host.Outcome State Fault Refusal :=
  match s.cfg.classes[c]? with
  | some k =>
    if k.dir = .tx ∧ seg < s.cfg.nSeg ∧ pr.length = k.table.length then
      if Config.stdIdMax < telemId k.base seg then .refused .identifierOverflow
      else
        match encodeRefusal k.table with
        | some r => .refused r
        | none =>
          .next (s.sendRecord (recordFrame s.cfg.encClampMode k seg pr) (encodeFlags s.cfg.encClampMode k.table pr))
    else raised s (.badOperand 0x18)
  | none => raised s (.badOperand 0x18)

end Sys2Proof.Machine
end

