-- ==== Sys2Proof/Machine/Sequencer.lean ====
section
/-!
DEFINITION. Unit SEQ, the state sequencer: SEQ_ADV, SEQ_CUR, SEQ_RST (43_sequencer.md).
-/

namespace Sys2Proof.Machine

/-- The index SEQ_ADV leaves (R222), compared on natural numbers. -/
def advanceIndex (p : Playlist) (i : Byte) : Byte :=
  if i.toNat + 1 < p.states.length then BitVec.ofNat 8 (i.toNat + 1) else if p.loops then 0 else i

/-- SEQ_ADV (R222). -/
def execSeqAdv (q : Nat) (s : State) : Host.Outcome State Fault Refusal :=
  if q < s.cfg.nSeq then answer (s.putSeq q (advanceIndex (s.playlist q) (s.seqIndex q))) .done
  else raised s (.badOperand 0x30)

/-- SEQ_CUR (R224): the state value at the index, or the safe default with a logged SeqConfigError when the
playlist has no such entry. -/
def execSeqCur (q : Nat) (s : State) : Host.Outcome State Fault Refusal :=
  if q < s.cfg.nSeq then
    match (s.playlist q).states[(s.seqIndex q).toNat]? with
    | some v => answer s (.stateValue v)
    | none =>
      answer (s.pushLog (.seqConfigError q (s.seqIndex q) (s.playlist q).states.length))
        (.stateValue s.cfg.safeDefault)
  else raised s (.badOperand 0x31)

/-- SEQ_RST (R226). -/
def execSeqRst (q : Nat) (s : State) : Host.Outcome State Fault Refusal :=
  if q < s.cfg.nSeq then answer (s.putSeq q 0) .done else raised s (.badOperand 0x32)

end Sys2Proof.Machine
end

