-- ==== Sys2Proof/Machine/System.lean ====
section
/-!
DEFINITION. The system operations: SEG_SET, SEG_GET, REC_READ, SOFT_RESET (45_system.md), and the timer's step TICK
(60_exceptions.md R326).
-/

namespace Sys2Proof.Machine

/-- SEG_SET (R290): bits at or above `N_SEG` are dropped (R28). -/
def execSegSet (mask : Byte) (s : State) : Host.Outcome State Fault Refusal :=
  answer (s.setSegEn (mask &&& BitVec.ofNat 8 (2 ^ s.cfg.nSeg - 1))) .done

/-- SEG_GET (R294). -/
def execSegGet (s : State) : Host.Outcome State Fault Refusal := answer s (.segMask s.regs.segEn)

/-- REC_READ (R292): of an RX class only. -/
def execRecRead (c seg : Nat) (s : State) : Host.Outcome State Fault Refusal :=
  match s.cfg.classes[c]? with
  | some k =>
    if k.dir = .rx ∧ seg < s.cfg.nSeg then answer s (.recSlot (s.record c seg)) else raised s (.badOperand 0x51)
  | none => raised s (.badOperand 0x51)

/-- SOFT_RESET (R296): the effect of the reset input on `S`. -/
def execSoftReset (s : State) : Host.Outcome State Fault Refusal := answer s.resetBlock .done

/-- TICK (R326). -/
def execTick (s : State) : Host.Outcome State Fault Refusal := .next (s.setTime (s.time.tick s.cfg.period))

end Sys2Proof.Machine
end

