-- ==== Sys2Proof/Machine/Dispatch.lean ====
section
/-!
DEFINITION. The dispatch of an instruction to its meaning: one arm per constructor, no wildcard.
-/

namespace Sys2Proof.Machine

/-- The meaning of an instruction. -/
def exec (i : Instr) (s : State) : Host.Outcome State Fault Refusal :=
  match i with
  | .decode c p => Sys2Proof.Machine.execDecode c p s
  | .encode c pr => Sys2Proof.Machine.execEncode c pr s
  | .rangechk c r => Sys2Proof.Machine.execRangechk c r s
  | .ackpack status k ck => Sys2Proof.Machine.execAckpack status k ck s
  | .ackunpack p => Sys2Proof.Machine.execAckunpack p s
  | .resolve c seg => Sys2Proof.Machine.execResolve c seg s
  | .classify id ext => Sys2Proof.Machine.execClassify id ext s
  | .xidReq base k seg => Sys2Proof.Machine.execXidReq base k seg s
  | .xidRsp base k seg => Sys2Proof.Machine.execXidRsp base k seg s
  | .xidParse id base => Sys2Proof.Machine.execXidParse id base s
  | .txRecord c seg pr => Sys2Proof.Machine.execTxRecord c seg pr s
  | .lhElapsed l => Sys2Proof.Machine.execLhElapsed l s
  | .lhRx l => Sys2Proof.Machine.execLhRx l s
  | .lhCheck l threshold => Sys2Proof.Machine.execLhCheck l threshold s
  | .lhDisc l => Sys2Proof.Machine.execLhDisc l s
  | .lhStat l => Sys2Proof.Machine.execLhStat l s
  | .seqAdv q => Sys2Proof.Machine.execSeqAdv q s
  | .seqCur q => Sys2Proof.Machine.execSeqCur q s
  | .seqRst q => Sys2Proof.Machine.execSeqRst q s
  | .xferStart b base seg tmo maxr => Sys2Proof.Machine.execXferStart b base seg tmo maxr s
  | .xferAbort => Sys2Proof.Machine.execXferAbort s
  | .xferStat => Sys2Proof.Machine.execXferStat s
  | .segSet mask => Sys2Proof.Machine.execSegSet mask s
  | .recRead c seg => Sys2Proof.Machine.execRecRead c seg s
  | .segGet => Sys2Proof.Machine.execSegGet s
  | .softReset => Sys2Proof.Machine.execSoftReset s
  | .rxFrame => Sys2Proof.Machine.execRxFrame s
  | .xNext => Sys2Proof.Machine.execXNext s
  | .xSend => Sys2Proof.Machine.execXSend s
  | .xTmo => Sys2Proof.Machine.execXTmo s
  | .tick => Sys2Proof.Machine.execTick s
  | .fTelem id => Sys2Proof.Machine.execFTelem id s
  | .fXreq b k seg => Sys2Proof.Machine.execFXreq b k seg s
  | .fXrsp b k seg => Sys2Proof.Machine.execFXrsp b k seg s
  | .pFields p => Sys2Proof.Machine.execPFields p s
  | .pAck status k ck rest => Sys2Proof.Machine.execPAck status k ck rest s
  | .pAckAck k ck rest => Sys2Proof.Machine.execPAckAck k ck rest s
  | .pAckNack k ck rest => Sys2Proof.Machine.execPAckNack k ck rest s
  | .pChunk p => Sys2Proof.Machine.execPChunk p s

end Sys2Proof.Machine
end

