-- ==== Sys2Proof/Machine/Fetch.lean ====
section
/-!
DEFINITION. Who moves next and with what (00_scope.md R19; DESIGN CHOICE, log entry 7): the head of `State.inputs`, decoded. A
host command with an unknown code, or with the code of another agent's step, raises BadCommand; one with an
operand outside its type raises BadOperand (45_system.md R298). With no input no agent moves.
-/

namespace Sys2Proof.Machine

/-- What the next move is: an instruction to run, or a move that is over. -/
inductive Fetched where
  | run (i : Instr) (s : State)
  | done (s : State)

/-- What a host command that is no instruction does (R298): XFER_START's XferBusy comes before its operand
checks (R316; for operand bytes that cannot be read, DEDUCED, log entry 17). -/
def State.rejectCommand (s : State) : DecodeError → State
  | .noCode => s
  | .badCommand code => s.raise (.badCommand code)
  | .badOperand code =>
    if code = 0x40 ∧ s.regs.xfer.st ≠ .idle then s.raise .xferBusy else s.raise (.badOperand code)
  | .badBusWord _ => s

/-- The host's move: codes `0x80` and above are not the host's (R106, R298). -/
def fetchHost (bytes : List Byte) (s : State) : Fetched :=
  match bytes with
  | [] => .done s
  | code :: ops =>
    if code.toNat < 0x80 then
      match decodeCmd (code :: ops) with
      | .ok i => .run i s
      | .error e => .done (s.rejectCommand e)
    else .done (s.raise (.badCommand code))

/-- The move of the receive path, the transfer engine or the timer: codes `0x80` and above (R106). Anything else
is no step of theirs, and nothing happens. -/
def fetchAgent (bytes : List Byte) (s : State) : Fetched :=
  match bytes with
  | [] => .done s
  | code :: ops =>
    if code.toNat < 0x80 then .done s
    else
      match decodeCmd (code :: ops) with
      | .ok i => .run i s
      | .error _ => .done s

/-- The peer's move with a word of a frame format. What is no word of that format is nothing on the bus. -/
def fetchPeer (fmt : BusFormat) (bytes : List Byte) (s : State) : Fetched :=
  match decodeBus fmt bytes with
  | .ok i => .run i s
  | .error _ => .done s

/-- One input. -/
def fetchInput (inp : Input) (s : State) : Fetched :=
  match inp with
  | .host bytes => fetchHost bytes s
  | .agent bytes => fetchAgent bytes s
  | .peer fmt bytes => fetchPeer fmt bytes s
  | .enqueue f => .done (s.deliver f)
  | .sendAnswer ok => .done (s.setAnswers (s.answers ++ [ok]))
  | .mistime t => .done (s.breakTime t)
  | .resetInput => .done s.resetBlock

/-- The next move: the head of the inputs, which is used up. -/
def fetch (s : State) : Fetched :=
  match s.inputs with
  | [] => .done s
  | inp :: rest => fetchInput inp (s.setInputs rest)

/-- The input that issues the instruction of given table bits: by the host, by the agent whose step it is, or by
the peer. -/
def inputOfTable (nbits w : Nat) : Input :=
  match tableWords nbits w with
  | .cmd bytes => if w % 2 ^ 8 < 0x80 then .host bytes else .agent bytes
  | .bus fmt bytes => .peer fmt bytes

/-- The state in which that input comes next. -/
def placeTableWord (s : State) (nbits w : Nat) : State := s.setInputs (inputOfTable nbits w :: s.inputs)

end Sys2Proof.Machine
end

