-- ==== Sys2Proof/Safety.lean ====
section
/-!
DEFINITION. What claims about FPE are stated in: the invariant of 10_state.md R38 with the model's own canonical
forms, what an operation leaves alone, and the formulas of the rules as the spec writes them, apart from the
machine's own definitions.
-/

namespace Sys2Proof.Machine

/-- The invariant: R38 (a) to (e), the premises the rules put on the environment (R22, R326), and the canonical
forms of the stores. -/
structure State.Inv (s : State) : Prop where
  /-- The premise of every claim (R25). -/
  config : ConfigWF s.cfg
  /-- The canonical forms of the stores. -/
  canon : Memory.wf s.regs.xfer.buf ∧ RecStore.wf s.regs.recs
    ∧ Sparse.wf Link.down s.regs.links ∧ Sparse.wf (0 : Byte) s.regs.seqs
  /-- The buffer lists no byte past its length. -/
  buffer : ∀ c ∈ s.regs.xfer.buf, c.1 < s.regs.xfer.len
  /-- R38 (a). -/
  cursors : ∀ q < s.cfg.nSeq, (s.seqIndex q).toNat < (s.playlist q).states.length
  /-- R38 (b), with what XFER_START checked (R244). -/
  session : s.regs.xfer.st ≠ .idle →
    s.regs.xfer.cur ≤ s.regs.xfer.total ∧ s.regs.xfer.total = ceilDiv s.regs.xfer.len Config.chunkSize
    ∧ s.regs.xfer.len ≤ Config.xferMaxBytes ∧ xferIdWF s.regs.xfer.base s.regs.xfer.seg.toNat = true
  /-- R38 (c). -/
  attempts : s.regs.xfer.st = .send ∨ s.regs.xfer.st = .wait →
    s.regs.xfer.cur < s.regs.xfer.total ∧ s.regs.xfer.att ≤ s.regs.xfer.maxr.toNat
  /-- R38 (d). -/
  segments : s.regs.segEn.toNat < 2 ^ s.cfg.nSeg
  /-- R38 (e), with the slots that exist (R26). -/
  records : ∀ c seg r, s.record c seg = some r →
    ∃ k, s.cfg.classes[c]? = some k ∧ k.dir = .rx ∧ seg < s.cfg.nSeg
      ∧ recordTyped k.table r = true ∧ rangeOk k.table r = true
  /-- The timer's contract (R326), and every snapshot taken of it, while the timer keeps it. -/
  clock : s.timerOk = true → s.time.ticks.toNat < s.cfg.period ∧ s.regs.xfer.t0.ticks.toNat < s.cfg.period
    ∧ ∀ l, (s.link l).last.ticks.toNat < s.cfg.period
  /-- RXQ holds frames (R22), and the peer's next one can be a frame. -/
  frames : (∀ f ∈ s.rxq, f.wf = true) ∧ (s.head.ext = true ∨ s.head.id.toNat ≤ Config.stdIdMax)

/-! ### What an operation leaves alone -/

/-- Everything but `S`, LOG, the response and the free-value counter is as it was: CFG, the timer, RXQ, the
identifier the peer is using, the transmit path, the moves to come. -/
structure State.EnvKept (s t : State) : Prop where
  cfg : t.cfg = s.cfg
  time : t.time = s.time
  timerOk : t.timerOk = s.timerOk
  rxq : t.rxq = s.rxq
  head : t.head = s.head
  answers : t.answers = s.answers
  sent : t.sent = s.sent
  inputs : t.inputs = s.inputs

/-- Every record slot is as it was. -/
def State.RecordsKept (s t : State) : Prop := ∀ c seg, t.record c seg = s.record c seg

/-- Every link but the given one is as it was. -/
def State.OtherLinksKept (l : Nat) (s t : State) : Prop := ∀ j, j ≠ l → t.link j = s.link j

/-- Every cursor is as it was. -/
def State.CursorsKept (s t : State) : Prop := ∀ q, t.seqIndex q = s.seqIndex q

/-- The session registers are as they were, and every byte of the transfer buffer reads as before. -/
def State.SessionKept (s t : State) : Prop :=
  t.regs.xfer = s.regs.xfer ∧ ∀ a, Memory.read t.regs.xfer.buf a = Memory.read s.regs.xfer.buf a

/-- The cursor bound to link `l` is at its initial index if there is one; every other cursor is as it was (R198,
R200). -/
def State.BoundCursorReset (l : Nat) (s t : State) : Prop :=
  ∀ q, t.seqIndex q = if s.cfg.seqOfLink.getD l none = some q then 0 else s.seqIndex q

/-- The state a step leaves, where it leaves one. -/
def nextOf (o : Host.Outcome State Fault Refusal) : Option State :=
  match o with
  | .next s => some s
  | .fault _ => none
  | .refused _ => none

/-- The timer after `n` ticks (R326). -/
def Stamp.after (period : Nat) : Nat → Stamp → Stamp
  | 0, t => t
  | n + 1, t => Stamp.after period n (t.tick period)

/-- `n` advances of a cursor (R222). -/
def advances (p : Playlist) : Nat → Byte → Byte
  | 0, i => i
  | n + 1, i => advances p n (advanceIndex p i)

/-! ### The rules' own formulas, for statements -/

/-- The codes of the host commands (R106). -/
def hostCodes : List Nat :=
  [0x01, 0x02, 0x03, 0x04, 0x05, 0x10, 0x11, 0x12, 0x13, 0x14, 0x18, 0x20, 0x21, 0x22, 0x23, 0x24, 0x30, 0x31, 0x32,
    0x40, 0x41, 0x42, 0x50, 0x51, 0x52, 0x5F]

/-- The payload word as the sum of R15. -/
def payloadSum (p : List Byte) : Nat := ∑ i ∈ Finset.range 8, (p.getD i 0).toNat * 2 ^ (8 * i)

/-- The raw value of a field: bits `o+w-1` down to `o` (R94). -/
def fieldRaw (word : Nat) (e : FieldEntry) : Nat := word / 2 ^ e.bitOffset % 2 ^ e.bitWidth

/-- The physical value of a field: `raw*factor + offset` (R95). -/
def fieldPhys (word : Nat) (e : FieldEntry) : Q := (fieldRaw word e : Q) * e.factor + e.offset

/-- The record of a payload word (R134). -/
def recordOf (t : FieldTable) (word : Nat) : Record := t.map fun e => ⟨fieldRaw word e, fieldPhys word e⟩

/-- A value in the declared range, both bounds inclusive (R140). -/
def inDeclared (e : FieldEntry) (p : Q) : Prop := e.minPhys ≤ p ∧ p ≤ e.maxPhys

/-- `sign(q) * floor(abs(q) + 1/2)` (R16). -/
def roundAway (q : Q) : Int := (if q < 0 then -1 else 1) * ⌊|q| + 1/2⌋

/-- `0` below zero, `2^w - 1` above it, else the number (R16). -/
def saturate (w : Nat) (r : Int) : Nat := (max 0 (min r (2 ^ w - 1))).toNat

/-- The value ENCODE scales: clamped to the declared range with `PHYS_THEN_RAW` (R138). -/
def clampedOperand (m : ClampMode) (e : FieldEntry) (p : Q) : Q :=
  if m = .physThenRaw then min (max p e.minPhys) e.maxPhys else p

/-- The rounded quotient of ENCODE (R138). -/
def quotientOf (m : ClampMode) (e : FieldEntry) (p : Q) : Int :=
  roundAway ((clampedOperand m e p - e.offset) / e.factor)

/-- The class and segment that one identifier stands for (R97, R164). -/
def Matches (g : Cfg) (en : Byte) (id c seg : Nat) : Prop :=
  ∃ k, g.classes[c]? = some k ∧ k.dir = .rx ∧ id = k.base.toNat + seg * 0x100 ∧ seg < g.nSeg
    ∧ en.getLsbD seg = true

/-- The one match of a standard identifier (R164, R166, R168). -/
def UniqueMatch (g : Cfg) (en : Byte) (id : Nat) (ext : Bool) (c seg : Nat) : Prop :=
  ext = false ∧ Matches g en id c seg ∧ ∀ c' seg', Matches g en id c' seg' → c' = c ∧ seg' = seg

/-- The frame is the response the engine waits for (R170). -/
def Awaited (s : State) (f : Frame) : Prop :=
  s.regs.xfer.st = .wait ∧ f.ext = true
    ∧ f.id.toNat = (s.regs.xfer.base.toNat + 0xA0) ||| (s.regs.xfer.cur <<< 8) ||| s.regs.xfer.seg.toNat

/-- `d` of R192. -/
def wraps (last now : Stamp) : Nat := (now.ovf.toNat + 2 ^ 32 - last.ovf.toNat) % 2 ^ 32

/-- A sample for which the rules state a result (R192, R204, R206): the tick values are below PERIOD, and either the
timer has kept its contract (`ok`) or `nt >= lt` where there is no wrap (that a timer out of contract has a result
wherever R192 gives one is the model's reading, log entry 30). -/
def Coherent (ok : Bool) (period : Nat) (last now : Stamp) : Prop :=
  last.ticks.toNat < period ∧ now.ticks.toNat < period
    ∧ (ok = false → wraps last now = 0 → last.ticks.toNat ≤ now.ticks.toNat)

/-- `Elapsed` on such a sample: R192, and R364 where the overflow counter has gone round (`d = 0` and `nt < lt`). -/
def elapsedValue (period : Nat) (last now : Stamp) : BitVec 32 :=
  BitVec.ofNat 32 (min
    (if wraps last now ≠ 0 then (period - last.ticks.toNat) + period * (wraps last now - 1) + now.ticks.toNat
      else if last.ticks.toNat ≤ now.ticks.toNat then now.ticks.toNat - last.ticks.toNat
      else period * 2 ^ 32 - last.ticks.toNat + now.ticks.toNat)
    (2 ^ 32 - 1))

/-! ### Where an instruction stops -/

/-- An entry that lies in the payload word (R64). -/
def InWord (e : FieldEntry) : Prop := 1 ≤ e.bitWidth ∧ e.bitOffset + e.bitWidth ≤ 64

/-- The operands TX_RECORD takes (R172). -/
def Transmits (s : State) (c seg : Nat) (pr : PhysRecord) (k : MsgClass) : Prop :=
  s.cfg.classes[c]? = some k ∧ k.dir = .tx ∧ seg < s.cfg.nSeg ∧ pr.length = k.table.length

/-- The refusals: the operations that meet an entry of the configuration the model refuses, and on which of them
(R64, R144, R162). -/
inductive Stops (s : State) : Instr → Refusal → Prop where
  | resolve (c seg : Nat) (k : MsgClass) : s.cfg.classes[c]? = some k → seg < s.cfg.nSeg →
    0x7FF < k.base.toNat + seg * 0x100 → Stops s (.resolve c seg) .identifierOverflow
  | decode (c : Nat) (p : List Byte) (k : MsgClass) : s.cfg.classes[c]? = some k → p.length ≤ 8 →
    ¬ (∀ e ∈ k.table, InWord e) → Stops s (.decode c p) .fieldOutsideWord
  | encodeField (c : Nat) (pr : PhysRecord) (k : MsgClass) : s.cfg.classes[c]? = some k →
    pr.length = k.table.length → ¬ (∀ e ∈ k.table, InWord e) → Stops s (.encode c pr) .fieldOutsideWord
  | encodeFactor (c : Nat) (pr : PhysRecord) (k : MsgClass) : s.cfg.classes[c]? = some k →
    pr.length = k.table.length → (∀ e ∈ k.table, InWord e) → ¬ (∀ e ∈ k.table, e.factor ≠ 0) →
    Stops s (.encode c pr) .zeroFactor
  | sendIdentifier (c seg : Nat) (pr : PhysRecord) (k : MsgClass) : Transmits s c seg pr k →
    0x7FF < k.base.toNat + seg * 0x100 → Stops s (.txRecord c seg pr) .identifierOverflow
  | sendField (c seg : Nat) (pr : PhysRecord) (k : MsgClass) : Transmits s c seg pr k →
    k.base.toNat + seg * 0x100 ≤ 0x7FF → ¬ (∀ e ∈ k.table, InWord e) →
    Stops s (.txRecord c seg pr) .fieldOutsideWord
  | sendFactor (c seg : Nat) (pr : PhysRecord) (k : MsgClass) : Transmits s c seg pr k →
    k.base.toNat + seg * 0x100 ≤ 0x7FF → (∀ e ∈ k.table, InWord e) → ¬ (∀ e ∈ k.table, e.factor ≠ 0) →
    Stops s (.txRecord c seg pr) .zeroFactor
  | receive (f : Frame) (rest : List Frame) (c seg : Nat) (k : MsgClass) : s.rxq = f :: rest → ¬ Awaited s f →
    UniqueMatch s.cfg s.regs.segEn f.id.toNat f.ext c seg → s.cfg.classes[c]? = some k →
    ¬ (∀ e ∈ k.table, InWord e) → Stops s .rxFrame .fieldOutsideWord

/-- Operations R68 calls pure reads, with SEG_GET (R294). -/
def isPureRead : Instr → Bool
  | .decode _ _ => true
  | .encode _ _ => true
  | .rangechk _ _ => true
  | .ackpack _ _ _ => true
  | .ackunpack _ => true
  | .resolve _ _ => true
  | .classify _ _ => true
  | .xidReq _ _ _ => true
  | .xidRsp _ _ _ => true
  | .xidParse _ _ => true
  | .txRecord _ _ _ => false
  | .lhElapsed _ => true
  | .lhRx _ => false
  | .lhCheck _ _ => false
  | .lhDisc _ => false
  | .lhStat _ => true
  | .seqAdv _ => false
  | .seqCur _ => true
  | .seqRst _ => false
  | .xferStart _ _ _ _ _ => false
  | .xferAbort => false
  | .xferStat => true
  | .segSet _ => false
  | .recRead _ _ => true
  | .segGet => true
  | .softReset => false
  | .rxFrame => false
  | .xNext => false
  | .xSend => false
  | .xTmo => false
  | .tick => false
  | .fTelem _ => false
  | .fXreq _ _ _ => false
  | .fXrsp _ _ _ => false
  | .pFields _ => false
  | .pAck _ _ _ _ => false
  | .pAckAck _ _ _ => false
  | .pAckNack _ _ _ => false
  | .pChunk _ => false

end Sys2Proof.Machine
end

