-- ==== Sys2Proof/Certificates/Slice0/Obligations.lean ====
section
/-!
DEFINITION. The statements about FPE, from the numbered rules of spec/. An equation `exec i s = .next { s with … }`
gives an operation's result and its whole frame at once: every field not named is as it was.
-/

open Sys2Proof Sys2Proof.Machine

/-! ### Moves, codes and words -/

/-- A step whose next input decodes to an instruction, issued by the agent that may issue it, is that instruction
run on the state without that input, and nothing else (R17, R19, R106; the list of inputs is the model's own, log
entry 7). -/
def Obligations.StepRunsDecodedInstruction : Prop :=
  ∀ (s : State) (inp : Input) (rest : List Input) (i : Instr), s.inputs = inp :: rest →
    ((∃ code ops, inp = .host (code :: ops) ∧ code.toNat < 0x80 ∧ decode (.cmd (code :: ops)) = .ok i)
      ∨ (∃ code ops, inp = .agent (code :: ops) ∧ 0x80 ≤ code.toNat ∧ decode (.cmd (code :: ops)) = .ok i)
      ∨ (∃ fmt bs, inp = .peer fmt bs ∧ decode (.bus fmt bs) = .ok i)) →
    step s = exec i { s with inputs := rest }

/-- A host command with a code R106 does not give to the host raises BadCommand; one whose operands cannot be read
raises BadOperand, or XferBusy for XFER_START during a session. Nothing else changes (R298, R107; which bytes cannot
be read is the model's own layout, log entry 3, and that XferBusy comes first for bytes that cannot be read is the
model's reading of R316, log entry 17). -/
def Obligations.RejectedCommandOnlyRaises : Prop :=
  ∀ (s : State) (code : Byte) (ops : List Byte) (rest : List Input), s.inputs = .host (code :: ops) :: rest →
    (code.toNat ∉ hostCodes → step s =
      .next { s with inputs := rest, log := s.log ++ [.badCommand code], ret := .raised (.badCommand code) })
    ∧ (code.toNat ∈ hostCodes → decode (.cmd (code :: ops)) = .error (.badOperand code) →
        ¬ (code.toNat = 0x40 ∧ s.regs.xfer.st ≠ .idle) → step s =
      .next { s with inputs := rest, log := s.log ++ [.badOperand code], ret := .raised (.badOperand code) })
    ∧ (code.toNat = 0x40 → decode (.cmd (code :: ops)) = .error (.badOperand code) →
        s.regs.xfer.st ≠ .idle → step s =
      .next { s with inputs := rest, log := s.log ++ [.xferBusy], ret := .raised .xferBusy })

/-- The moves of the environment: a frame is placed at the tail of RXQ, an answer is laid down for a coming `Send`,
a timer that breaks its contract reads what it will from then on, the reset input resets `S` and nothing else, and
with no input nothing happens (R35, R332, R350, R352, R362; that these are inputs is the model's choice, log entries
6, 7, 28). -/
def Obligations.EnvironmentMoves : Prop :=
  ∀ (s : State) (rest : List Input),
    (∀ f, f.wf = true → s.inputs = .enqueue f :: rest → step s =
      .next { s with inputs := rest, rxq := s.rxq ++ [f] })
    ∧ (∀ a, s.inputs = .sendAnswer a :: rest → step s = .next { s with inputs := rest, answers := s.answers ++ [a] })
    ∧ (∀ now, s.inputs = .mistime now :: rest → step s =
      .next { s with inputs := rest, time := now, timerOk := false })
    ∧ (s.inputs = .resetInput :: rest → step s = .next { s with inputs := rest, regs := Regs.reset })
    ∧ (s.inputs = [] → step s = .next s)

/-- Words written out from the encodings decode to what they stand for, an XFER_START that ends before its last
operands taking the defaults 1000 and 3 for them (R96, R98, R99, R104, R106, R8, R244; the operand bytes, and how
they leave an operand out, are the model's own layout, log entry 3). -/
def Obligations.SampleWordsDecode : Prop :=
  decode (.cmd [0x52]) = .ok .segGet ∧ decode (.cmd [0x84]) = .ok .tick
    ∧ decode (.cmd [0x22, 0x00, 0x96, 0x01]) = .ok (.lhCheck 0 150)
    ∧ decode (.cmd [0x40, 0x00, 0x80, 0x80, 0xC4, 0x02, 0x01]) = .ok (.xferStart [] 0x00510000 1 1000 3)
    ∧ decode (.cmd [0x40, 0x00, 0x80, 0x80, 0xC4, 0x02, 0x01, 0x05]) = .ok (.xferStart [] 0x00510000 1 5 3)
    ∧ decode (.bus .ident [0x10, 0x02]) = .ok (.fTelem 0x210)
    ∧ decode (.bus .ident [0xA1, 0x02, 0x51, 0x20]) = .ok (.fXrsp 0x51 2 1)
    ∧ decode (.bus .ack [0x00, 0x07, 0xAB, 0xCD]) = .ok (.pAckNack 7 0xABCD [])

/-- Decoding the words of a well-formed instruction gives it back, with every operand (R90, R96 to R106; the operand
bytes are the model's own layout, log entry 3). -/
def Obligations.DecodeInvertsEncode : Prop :=
  ∀ i : Instr, i.wellFormed = true → decode (encode i) = .ok i

/-- A word of the bus that decodes at all is the word of the instruction it decodes to, and that instruction is
well formed: no two words of one format mean the same, and no bit is dropped (R96, R98, R99, R104, R105; that an
identifier word is two bytes, or four with bit 29 set, least significant first, is the model's own layout, log entry
3). -/
def Obligations.BusWordsHaveOneReading : Prop :=
  ∀ (fmt : BusFormat) (bs : List Byte) (i : Instr), decode (.bus fmt bs) = .ok i →
    i.wellFormed = true ∧ encode i = .bus fmt bs

/-! ### Unit CODEC, the frame codec -/

/-- R134: DECODE returns raw and physical value of every field of the payload word, missing bytes being zero; a
class or a length out of range raises BadOperand. Nothing else changes. (For tables whose fields lie in the word, R64;
where DECODE stops on another table is said by MachineNeverStops.) -/
def Obligations.DecodeReturnsRecord : Prop :=
  ∀ (s : State) (c : Nat) (p : List Byte),
    (∀ k, s.cfg.classes[c]? = some k → p.length ≤ 8 → (∀ e ∈ k.table, InWord e) →
      exec (.decode c p) s = .next { s with ret := .record (recordOf k.table (payloadSum p)) })
    ∧ (s.cfg.classes[c]? = none ∨ 8 < p.length →
      exec (.decode c p) s = .next { s with log := s.log ++ [.badOperand 0x01], ret := .raised (.badOperand 0x01) })

/-- R138: ENCODE rounds each quotient half away from zero, saturates it at the field's bits, ORs it in place into a
zero word, and returns the eight bytes of the word with the flags (oor, sat) of every field; a class out of range
or a record of the wrong length raises BadOperand. Nothing else changes. (For tables whose fields lie in the word and
have a factor, R64, R144; where ENCODE stops on another table is said by MachineNeverStops.) -/
def Obligations.EncodeReturnsClampedPayload : Prop :=
  ∀ (s : State) (c : Nat) (pr : PhysRecord),
    (∀ k, s.cfg.classes[c]? = some k → pr.length = k.table.length → (∀ e ∈ k.table, InWord e) →
      (∀ e ∈ k.table, e.factor ≠ 0) →
      ∃ word, word = (List.zipWith
          (fun e p => saturate e.bitWidth (quotientOf s.cfg.encClampMode e p) <<< e.bitOffset) k.table pr).foldl
            (· ||| ·) 0
        ∧ exec (.encode c pr) s = .next { s with ret := (.encoded
            ((List.range 8).map fun i => BitVec.ofNat 8 (word / 2 ^ (8 * i)))
            (List.zipWith (fun e p => (decide (p < e.minPhys ∨ e.maxPhys < p),
              decide ((saturate e.bitWidth (quotientOf s.cfg.encClampMode e p) : Int)
                ≠ quotientOf s.cfg.encClampMode e p))) k.table pr)) })
    ∧ ((∀ k, s.cfg.classes[c]? = some k → pr.length ≠ k.table.length) →
      exec (.encode c pr) s = .next { s with log := s.log ++ [.badOperand 0x02], ret := .raised (.badOperand 0x02) })

/-- R140: RANGECHK returns the ascending indices of the fields outside their declared range, both bounds inclusive,
and whether there are none; a class out of range, or what is no record of its table (R24), raises BadOperand.
Nothing else changes. (That a list with every raw value in its field is such a record whatever its physical values
are is the model's reading of R24, log entry 19.) -/
def Obligations.RangechkListsViolations : Prop :=
  ∀ (s : State) (c : Nat) (r : Record),
    (∀ k, s.cfg.classes[c]? = some k → r.length = k.table.length →
      (∀ (i : Nat) (e : FieldEntry) (v : FieldVal), k.table[i]? = some e → r[i]? = some v → v.raw < 2 ^ e.bitWidth) →
      ∃ ok viol, exec (.rangechk c r) s = .next { s with ret := .range ok viol }
        ∧ viol.Pairwise (· < ·)
        ∧ (∀ i, i ∈ viol ↔ ∃ e v, k.table[i]? = some e ∧ r[i]? = some v ∧ (v.phys < e.minPhys ∨ e.maxPhys < v.phys))
        ∧ (ok = true ↔ viol = []))
    ∧ ((∀ k, s.cfg.classes[c]? = some k → r.length ≠ k.table.length
        ∨ ∃ (i : Nat) (e : FieldEntry) (v : FieldVal), k.table[i]? = some e ∧ r[i]? = some v ∧ 2 ^ e.bitWidth ≤ v.raw) →
      exec (.rangechk c r) s = .next { s with log := s.log ++ [.badOperand 0x03], ret := .raised (.badOperand 0x03) })

/-- R146 and R148: ACKPACK lays a response payload out with the checksum big-endian and four zero bytes; ACKUNPACK reads
status, echo and big-endian checksum from the first four bytes of 4 to 8, and answers none for fewer. Nothing else
changes. More than 8 bytes raise BadOperand (R107, R298): R148 itself names no outcome, and that the length is an
operand out of its type is the model's reading, log entry 20. -/
def Obligations.AckPayloadPacksAndUnpacks : Prop :=
  ∀ s : State,
    (∀ (status k : Byte) (ck : BitVec 16), exec (.ackpack status k ck) s = .next { s with
      ret := (.payload [status, k, BitVec.ofNat 8 (ck.toNat / 256), BitVec.ofNat 8 ck.toNat, 0, 0, 0, 0]) })
    ∧ (∀ p : List Byte, p.length < 4 → exec (.ackunpack p) s = .next { s with ret := .ack none })
    ∧ (∀ p : List Byte, 4 ≤ p.length → p.length ≤ 8 → exec (.ackunpack p) s = .next { s with
      ret := (.ack (some
        ⟨p.getD 0 0, p.getD 1 0, BitVec.ofNat 16 ((p.getD 2 0).toNat * 256 + (p.getD 3 0).toNat)⟩)) })
    ∧ (∀ p : List Byte, 8 < p.length → exec (.ackunpack p) s
      = .next { s with log := s.log ++ [.badOperand 0x05], ret := .raised (.badOperand 0x05) })

/-- R142 (a): encoding what was decoded gives the defined bits of the frame back and zeros elsewhere: with RAW_ONLY for
every payload, with PHYS_THEN_RAW for every payload in the declared range. -/
def Obligations.FrameRoundTrip : Prop :=
  ∀ (s : State) (c : Nat) (k : MsgClass) (p : List Byte), s.cfg.classes[c]? = some k → TableWF k.table →
    p.length ≤ 8 →
    (s.cfg.encClampMode = .rawOnly ∨ ∀ e ∈ k.table, inDeclared e (fieldPhys (payloadSum p) e)) →
    ∃ rec, exec (.decode c p) s = .next { s with ret := .record rec }
      ∧ ∃ out flags, exec (.encode c (rec.map (·.phys))) { s with ret := .record rec }
          = .next { s with ret := .encoded out flags }
        ∧ out.length = 8 ∧ payloadSum out = payloadSum p &&& tableMask k.table

/-- R142 (b): a record of grid values, `r*factor + offset` with `r` in the field (within the declared range for
PHYS_THEN_RAW), is decoded from its own encoding; a value off the grid, its quotient in the field (and within the
declared range for PHYS_THEN_RAW), comes back within half a step. -/
def Obligations.RecordRoundTrip : Prop :=
  ∀ (s : State) (c : Nat) (k : MsgClass) (pr : PhysRecord), s.cfg.classes[c]? = some k → TableWF k.table →
    pr.length = k.table.length →
    ∃ out flags, exec (.encode c pr) s = .next { s with ret := .encoded out flags }
      ∧ ∀ (i : Nat) (e : FieldEntry) (p : Q), k.table[i]? = some e → pr[i]? = some p →
        (∀ r : Nat, r < 2 ^ e.bitWidth → p = (r : Q) * e.factor + e.offset →
          (s.cfg.encClampMode = .rawOnly ∨ inDeclared e p) →
          fieldRaw (payloadSum out) e = r ∧ fieldPhys (payloadSum out) e = p)
        ∧ ((s.cfg.encClampMode = .rawOnly ∨ inDeclared e p) → 0 ≤ (p - e.offset) / e.factor →
          (p - e.offset) / e.factor ≤ 2 ^ e.bitWidth - 1 →
          |fieldPhys (payloadSum out) e - p| ≤ |e.factor| / 2)

/-- R142 (c): the bits no field covers are zero in everything ENCODE returns. -/
def Obligations.UndefinedBitsStayZero : Prop :=
  ∀ (s : State) (c : Nat) (k : MsgClass) (pr : PhysRecord), s.cfg.classes[c]? = some k → TableWF k.table →
    pr.length = k.table.length →
    ∃ out flags, exec (.encode c pr) s = .next { s with ret := .encoded out flags }
      ∧ ∀ j, (∀ e ∈ k.table, ¬ (e.bitOffset ≤ j ∧ j < e.bitOffset + e.bitWidth)) →
        (payloadSum out).testBit j = false

/-- R142 (d) and R138, in both clamp modes: a field's bits in the payload are its saturated rounded quotient; a value
whose unclamped quotient rounds to the top of the field or above has the bits of encoding the field's largest value,
one that rounds to zero or below those of encoding its smallest, and with RAW_ONLY these are all ones and all
zeros. -/
def Obligations.EncodeSaturates : Prop :=
  ∀ (s : State) (c : Nat) (k : MsgClass) (pr : PhysRecord), s.cfg.classes[c]? = some k → TableWF k.table →
    pr.length = k.table.length →
    ∃ out flags, exec (.encode c pr) s = .next { s with ret := .encoded out flags }
      ∧ ∀ (i : Nat) (e : FieldEntry) (p : Q), k.table[i]? = some e → pr[i]? = some p →
        fieldRaw (payloadSum out) e = saturate e.bitWidth (quotientOf s.cfg.encClampMode e p)
        ∧ (2 ^ e.bitWidth - 1 ≤ roundAway ((p - e.offset) / e.factor) →
          fieldRaw (payloadSum out) e
            = saturate e.bitWidth (quotientOf s.cfg.encClampMode e ((2 ^ e.bitWidth - 1) * e.factor + e.offset))
          ∧ (s.cfg.encClampMode = .rawOnly → fieldRaw (payloadSum out) e = 2 ^ e.bitWidth - 1))
        ∧ (roundAway ((p - e.offset) / e.factor) ≤ 0 →
          fieldRaw (payloadSum out) e = saturate e.bitWidth (quotientOf s.cfg.encClampMode e e.offset)
          ∧ (s.cfg.encClampMode = .rawOnly → fieldRaw (payloadSum out) e = 0))

/-- R142 (e): for an entry whose declared range is exactly what its bits represent, the two clamp modes give the same
raw value for every physical value. -/
def Obligations.ClampModesAgreeWhenTight : Prop :=
  ∀ e : FieldEntry, e.WF →
    ((e.minPhys = physOf e 0 ∧ e.maxPhys = physOf e (2 ^ e.bitWidth - 1))
      ∨ (e.minPhys = physOf e (2 ^ e.bitWidth - 1) ∧ e.maxPhys = physOf e 0)) →
    ∀ p : Q, encodeRaw .rawOnly e p = encodeRaw .physThenRaw e p

/-- R142 (f): the raw value is monotone in the physical value, with the sign of the factor, in both clamp modes. -/
def Obligations.EncodeMonotone : Prop :=
  ∀ (e : FieldEntry) (m : ClampMode) (p q : Q), p ≤ q →
    (0 < e.factor → encodeRaw m e p ≤ encodeRaw m e q) ∧ (e.factor < 0 → encodeRaw m e q ≤ encodeRaw m e p)

/-! ### Unit CODEC, the identifier registry -/

/-- R162: RESOLVE returns base plus segment times 0x100, for classes of either direction; a class or segment out of range
raises BadOperand; a sum above 11 bits, which ConfigWF excludes, is refused. (That RESOLVE itself refuses, and not
the configuration beforehand, is the model's reading of R162 and U4, log entry 14.) -/
def Obligations.ResolveAddsSegment : Prop :=
  ∀ (s : State) (c seg : Nat),
    (∀ k, s.cfg.classes[c]? = some k → seg < s.cfg.nSeg →
      (k.base.toNat + seg * 0x100 ≤ 0x7FF → ∃ id, id.toNat = k.base.toNat + seg * 0x100
        ∧ exec (.resolve c seg) s = .next { s with ret := .stdId id })
      ∧ (0x7FF < k.base.toNat + seg * 0x100 → exec (.resolve c seg) s = .refused .identifierOverflow))
    ∧ (s.cfg.classes[c]? = none ∨ s.cfg.nSeg ≤ seg →
      exec (.resolve c seg) s = .next { s with log := s.log ++ [.badOperand 0x10], ret := .raised (.badOperand 0x10) })

/-- R164 (with R97, R166, R168): CLASSIFY answers a class and segment exactly when they are the one match of a standard
identifier among the RX classes and the segments of interest; otherwise none. Nothing else changes. -/
def Obligations.ClassifyFindsTheOneMatch : Prop :=
  ∀ (s : State) (id : BitVec 29) (ext : Bool),
    ∃ r, exec (.classify id ext) s = .next { s with ret := .slot r }
      ∧ ∀ c seg, r = some (c, seg) ↔ UniqueMatch s.cfg s.regs.segEn id.toNat ext c seg

/-- R180 (a), (b): under ConfigWF, CLASSIFY of what RESOLVE returns for an RX class and a segment of interest gives
them back, and what CLASSIFY answers resolves to the identifier. -/
def Obligations.ClassifyInvertsResolve : Prop :=
  ∀ (s : State) (c seg : Nat) (k : MsgClass), ConfigWF s.cfg → s.cfg.classes[c]? = some k → k.dir = .rx →
    seg < s.cfg.nSeg → s.regs.segEn.getLsbD seg = true →
    ∃ id : BitVec 11, exec (.resolve c seg) s = .next { s with ret := .stdId id }
      ∧ exec (.classify (id.setWidth 29) false) { s with ret := .stdId id }
        = .next { s with ret := .slot (some (c, seg)) }
      ∧ ∀ id' : BitVec 29, exec (.classify id' false) s = .next { s with ret := .slot (some (c, seg)) } →
        id' = id.setWidth 29

/-- R174 and R176: for a base with its low 16 bits zero and a segment up to 7 (R100), XID_REQ and XID_RSP return base,
chunk and segment OR-ed together; otherwise they raise BadOperand. That the parts lie in their own bits, and the
response 0xA0 above the request, is R100's own inference from the widths; that they take every segment up to 7,
whatever N_SEG is, is log entry 18. -/
def Obligations.TransferIdentifierLayout : Prop :=
  ∀ (s : State) (base : BitVec 29) (k : Byte) (seg : Nat),
    (base.toNat % 0x10000 = 0 → seg ≤ 7 →
      ∃ req rsp : BitVec 29, exec (.xidReq base k seg) s = .next { s with ret := .extId req }
        ∧ exec (.xidRsp base k seg) s = .next { s with ret := .extId rsp }
        ∧ req.toNat = base.toNat ||| (k.toNat <<< 8) ||| seg
        ∧ rsp.toNat = (base.toNat + 0xA0) ||| (k.toNat <<< 8) ||| seg
        ∧ req.toNat = base.toNat + k.toNat * 0x100 + seg ∧ rsp.toNat = req.toNat + 0xA0)
    ∧ (base.toNat % 0x10000 ≠ 0 ∨ 7 < seg →
      exec (.xidReq base k seg) s = .next { s with log := s.log ++ [.badOperand 0x12], ret := .raised (.badOperand 0x12) }
      ∧ exec (.xidRsp base k seg) s
        = .next { s with log := s.log ++ [.badOperand 0x13], ret := .raised (.badOperand 0x13) })

/-- R103: in one session the request identifiers of different chunks differ, so do the response identifiers, and no
request identifier is a response identifier. -/
def Obligations.TransferIdentifiersDistinct : Prop :=
  ∀ (base : BitVec 29) (seg k k' : Nat), xferIdWF base seg = true → k ≤ 255 → k' ≤ 255 →
    (xidReqOf base.toNat k seg = xidReqOf base.toNat k' seg → k = k')
    ∧ (xidRspOf base.toNat k seg = xidRspOf base.toNat k' seg → k = k')
    ∧ xidReqOf base.toNat k seg ≠ xidRspOf base.toNat k' seg

/-- R178 (with R101): XID_PARSE gives back the kind, chunk and segment of every identifier XID_REQ and XID_RSP make,
answers only for such identifiers, and raises BadOperand for a base whose low 16 bits are not zero. -/
def Obligations.ParseInvertsTransferIdentifiers : Prop :=
  ∀ (s : State) (id base : BitVec 29),
    (base.toNat % 0x10000 = 0 → ∃ r, exec (.xidParse id base) s = .next { s with ret := .parsed r }
      ∧ ∀ (k : Byte) (seg : BitVec 3),
        (r = some (.req, k, seg) ↔ id.toNat = xidReqOf base.toNat k.toNat seg.toNat)
        ∧ (r = some (.rsp, k, seg) ↔ id.toNat = xidRspOf base.toNat k.toNat seg.toNat))
    ∧ (base.toNat % 0x10000 ≠ 0 → exec (.xidParse id base) s
      = .next { s with log := s.log ++ [.badOperand 0x14], ret := .raised (.badOperand 0x14) })

/-- R172: TX_RECORD of a TX class hands the transport one standard frame of 8 bytes, identifier and payload those of
RESOLVE and ENCODE; the result is ok or TxFail, which is also logged, with the ENCODE flags in both cases. The
`Send` takes the answer laid down first and uses up exactly that one, or a free value where none is laid down (log
entry 6); everything else stays. A class that is not TX, or an operand out of range, raises BadOperand. (For tables
and identifiers the model does not refuse, R64, R144, R162; where it stops is said by MachineNeverStops.) -/
def Obligations.TxRecordSendsOneFrame : Prop :=
  ∀ (s : State) (c seg : Nat) (pr : PhysRecord),
    (∀ k, s.cfg.classes[c]? = some k → k.dir = .tx → seg < s.cfg.nSeg → pr.length = k.table.length →
      (∀ e ∈ k.table, InWord e) → (∀ e ∈ k.table, e.factor ≠ 0) → k.base.toNat + seg * 0x100 ≤ 0x7FF →
      ∃ t out flags id, exec (.txRecord c seg pr) s = .next t
        ∧ exec (.encode c pr) s = .next { s with ret := .encoded out flags }
        ∧ id.toNat = k.base.toNat + seg * 0x100 ∧ out.length = 8
        ∧ t.sent = s.sent ++ [⟨⟨id, false, out⟩, s.sendOk⟩]
        ∧ (s.sendOk = true → t.ret = .sent flags ∧ t.log = s.log)
        ∧ (s.sendOk = false → t.ret = .notSent id flags ∧ t.log = s.log ++ [.txFail id])
        ∧ (∀ a r, s.answers = a :: r → s.sendOk = a ∧ t.answers = r ∧ t.draws = s.draws)
        ∧ (s.answers = [] → t.answers = [] ∧ t.draws = s.draws + 1)
        ∧ t.regs = s.regs ∧ t.cfg = s.cfg ∧ t.time = s.time ∧ t.timerOk = s.timerOk ∧ t.rxq = s.rxq ∧ t.head = s.head
        ∧ t.inputs = s.inputs)
    ∧ ((∀ k, s.cfg.classes[c]? = some k → k.dir ≠ .tx ∨ s.cfg.nSeg ≤ seg ∨ pr.length ≠ k.table.length) →
      exec (.txRecord c seg pr) s
        = .next { s with log := s.log ++ [.badOperand 0x18], ret := .raised (.badOperand 0x18) })

/-! ### RX_FRAME -/

/-- R170, corner (a), and R180 (c): a frame that is not the awaited response and has no single match is logged and
discarded: `S` and everything else stay. -/
def Obligations.UnknownFrameChangesNothing : Prop :=
  ∀ (s : State) (f : Frame) (rest : List Frame), s.rxq = f :: rest → ¬ Awaited s f →
    (∀ c seg, ¬ UniqueMatch s.cfg s.regs.segEn f.id.toNat f.ext c seg) →
    exec .rxFrame s = .next { s with rxq := rest, log := s.log ++ [.unknownFrame f.id f.ext] }

/-- R170: a frame with a single match whose fields are all in their declared ranges replaces the record of that class
and segment, refreshes the class's link if it has one (logging LinkUp if it was down), and changes nothing else. (For a
class whose fields lie in the word, R64; where RX_FRAME stops is said by MachineNeverStops.) -/
def Obligations.AcceptedFrameStoresRecord : Prop :=
  ∀ (s : State) (f : Frame) (rest : List Frame) (c seg : Nat) (k : MsgClass), s.rxq = f :: rest → ¬ Awaited s f →
    UniqueMatch s.cfg s.regs.segEn f.id.toNat f.ext c seg → s.cfg.classes[c]? = some k →
    (∀ e ∈ k.table, InWord e) → (∀ e ∈ k.table, inDeclared e (fieldPhys (payloadSum f.data) e)) →
    ∃ t, exec .rxFrame s = .next t
      ∧ t.record c seg = some (recordOf k.table (payloadSum f.data))
      ∧ (∀ c' seg', ¬ (c' = c ∧ seg' = seg) → t.record c' seg' = s.record c' seg')
      ∧ (∀ l, k.link = some l → t.link l = ⟨s.time, true⟩ ∧ State.OtherLinksKept l s t
        ∧ t.log = if (s.link l).connected then s.log else s.log ++ [.linkUp l])
      ∧ (k.link = none → (∀ l, t.link l = s.link l) ∧ t.log = s.log)
      ∧ State.CursorsKept s t ∧ State.SessionKept s t ∧ t.regs.segEn = s.regs.segEn
      ∧ t.rxq = rest ∧ t.cfg = s.cfg ∧ t.time = s.time ∧ t.timerOk = s.timerOk ∧ t.head = s.head
      ∧ t.answers = s.answers ∧ t.sent = s.sent ∧ t.ret = s.ret ∧ t.inputs = s.inputs ∧ t.draws = s.draws

/-- R170, corner (b): a frame with a single match and some field out of its declared range is discarded whole: the event
lists every such field once, in ascending order, and neither the record nor the link changes. (For a class whose
fields lie in the word, R64; where RX_FRAME stops is said by MachineNeverStops.) -/
def Obligations.OutOfRangeFrameDiscarded : Prop :=
  ∀ (s : State) (f : Frame) (rest : List Frame) (c seg : Nat) (k : MsgClass), s.rxq = f :: rest → ¬ Awaited s f →
    UniqueMatch s.cfg s.regs.segEn f.id.toNat f.ext c seg → s.cfg.classes[c]? = some k →
    (∀ e ∈ k.table, InWord e) → (∃ e ∈ k.table, ¬ inDeclared e (fieldPhys (payloadSum f.data) e)) →
    ∃ viol, exec .rxFrame s = .next { s with rxq := rest, log := s.log ++ [.rangeViolation c seg viol] }
      ∧ viol.Pairwise (· < ·)
      ∧ ∀ i, i ∈ viol ↔ ∃ e, k.table[i]? = some e ∧ ¬ inDeclared e (fieldPhys (payloadSum f.data) e)

/-- R254: the awaited response. An ACK that echoes the current chunk moves to the next chunk; a NACK, whatever its
echo, is a failed attempt (R252: one more send, or FAILED when the retries are used up); fewer than four bytes, an
ACK with another echo or another status are logged and the wait goes on. The checksum is logged, never compared. -/
def Obligations.ResponseEndsOrKeepsWait : Prop :=
  ∀ (s : State) (f : Frame) (rest : List Frame), s.rxq = f :: rest → Awaited s f →
    (4 ≤ f.data.length → f.data.getD 0 0 = 0x01 → (f.data.getD 1 0).toNat = s.regs.xfer.cur →
      exec .rxFrame s = .next { s with
        rxq := rest
        log := s.log ++ [.chunkAcked s.regs.xfer.cur
          (BitVec.ofNat 16 ((f.data.getD 2 0).toNat * 256 + (f.data.getD 3 0).toNat))]
        regs := { s.regs with xfer := { s.regs.xfer with cur := s.regs.xfer.cur + 1, att := 0, st := .next } } })
    ∧ (4 ≤ f.data.length → f.data.getD 0 0 = 0x00 →
      (s.regs.xfer.att + 1 ≤ s.regs.xfer.maxr.toNat → exec .rxFrame s = .next { s with
        rxq := rest
        log := s.log ++ [.chunkNacked s.regs.xfer.cur (f.data.getD 1 0)]
        regs := { s.regs with xfer := { s.regs.xfer with
          att := s.regs.xfer.att + 1, rtot := s.regs.xfer.rtot + 1, st := .send } } })
      ∧ (s.regs.xfer.maxr.toNat < s.regs.xfer.att + 1 → exec .rxFrame s = .next { s with
        rxq := rest
        log := s.log ++ [.chunkNacked s.regs.xfer.cur (f.data.getD 1 0),
          .xferDone (.failed s.regs.xfer.cur s.regs.xfer.maxr)]
        regs := { s.regs with xfer := { s.regs.xfer with
          att := s.regs.xfer.att + 1, result := .failed s.regs.xfer.cur s.regs.xfer.maxr, st := .idle,
          abort := false } } }))
    ∧ (f.data.length < 4
        ∨ ¬ (f.data.getD 0 0 = 0x00 ∨ (f.data.getD 0 0 = 0x01 ∧ (f.data.getD 1 0).toNat = s.regs.xfer.cur)) →
      exec .rxFrame s = .next { s with rxq := rest, log := s.log ++ [.badResponse f.id] })

/-- A step of the receive path or the transfer engine that is not enabled (R170, R246, R250, R258) is not taken: it
changes nothing, but that X_TMO may have drawn a free value on a sample without a stated result (R206). That the move
is then over, and not impossible, is the model's choice (log entry 11); which samples have a result is log entries 28
and 30. -/
def Obligations.DisabledStepsChangeNothing : Prop :=
  ∀ s : State,
    (s.rxq = [] → exec .rxFrame s = .next s)
    ∧ (s.regs.xfer.st ≠ .next → exec .xNext s = .next s)
    ∧ (s.regs.xfer.st ≠ .send → exec .xSend s = .next s)
    ∧ (s.regs.xfer.st ≠ .wait → exec .xTmo s = .next s)
    ∧ (Coherent s.timerOk s.cfg.period s.regs.xfer.t0 s.time →
      elapsedValue s.cfg.period s.regs.xfer.t0 s.time < s.regs.xfer.tmo → exec .xTmo s = .next s)

/-! ### Unit LINK -/

/-- R204 and R364: after exactly `n` ticks since the snapshot LH_ELAPSED returns `min(n, 2^32 - 1)`, for any number of
wraps of the tick counter, and from `PERIOD * 2^32` ticks on the same of `n mod (PERIOD * 2^32)`. (For a timer that
has kept its contract so far; that its samples with `d = 0` and `nt < lt` are those where the overflow counter has
gone round, and not R206's, is the model's reading, log entry 28.) -/
def Obligations.ElapsedCountsTicks : Prop :=
  ∀ (s : State) (l n : Nat), l < s.cfg.nLinks → 1 ≤ s.cfg.period → s.cfg.period ≤ 2 ^ 32 →
    s.timerOk = true → (s.link l).last.ticks.toNat < s.cfg.period →
    s.time = Stamp.after s.cfg.period n (s.link l).last →
    ∃ e : BitVec 32, e.toNat = min (n % (s.cfg.period * 2 ^ 32)) (2 ^ 32 - 1)
      ∧ exec (.lhElapsed l) s = .next { s with ret := .elapsed e }

/-- R194 (with R192): LH_ELAPSED returns `Elapsed` from the link's snapshot to now, whatever `connected` is; on a sample
without a stated result (R206: a timer that has broken its contract) it returns some u32, of which nothing is said.
It changes nothing else but the count of free values; a link out of range raises BadOperand. (Which samples with
`d = 0` and `nt < lt` have a result is log entry 28; that the other torn and late samples have R192's is log entry
30.) -/
def Obligations.LhElapsedReturnsElapsed : Prop :=
  ∀ (s : State) (l : Nat),
    (l < s.cfg.nLinks →
      (Coherent s.timerOk s.cfg.period (s.link l).last s.time → exec (.lhElapsed l) s
        = .next { s with ret := .elapsed (elapsedValue s.cfg.period (s.link l).last s.time) })
      ∧ (¬ Coherent s.timerOk s.cfg.period (s.link l).last s.time → ∃ e d, exec (.lhElapsed l) s
        = .next { s with ret := .elapsed e, draws := d }))
    ∧ (s.cfg.nLinks ≤ l → exec (.lhElapsed l) s
      = .next { s with log := s.log ++ [.badOperand 0x20], ret := .raised (.badOperand 0x20) })

/-- R196: LH_RX takes the snapshot of the timer and marks the link connected, logging LinkUp if it was not; every other
link, every cursor and everything else stays; a link out of range raises BadOperand. -/
def Obligations.LhRxSnapshotsNow : Prop :=
  ∀ (s : State) (l : Nat),
    (l < s.cfg.nLinks → ∃ t, exec (.lhRx l) s = .next t
      ∧ t.link l = ⟨s.time, true⟩ ∧ State.OtherLinksKept l s t
      ∧ t.log = (if (s.link l).connected then s.log else s.log ++ [.linkUp l]) ∧ t.ret = .done
      ∧ State.RecordsKept s t ∧ State.CursorsKept s t ∧ State.SessionKept s t ∧ t.regs.segEn = s.regs.segEn
      ∧ State.EnvKept s t ∧ t.draws = s.draws)
    ∧ (s.cfg.nLinks ≤ l → exec (.lhRx l) s
      = .next { s with log := s.log ++ [.badOperand 0x21], ret := .raised (.badOperand 0x21) })

/-- R198: LH_CHECK compares strictly. On a timeout the link is down with its snapshot kept, the bound cursor is at 0,
and LinkDown is logged if the link was connected; otherwise nothing changes. A link out of range raises
BadOperand. (`State.elapsed` is the value LH_ELAPSED returns in the same state.) -/
def Obligations.LhCheckTimesOutStrictly : Prop :=
  ∀ (s : State) (l : Nat) (threshold : BitVec 32),
    (l < s.cfg.nLinks →
      (threshold.toNat < (s.elapsed (s.link l).last).toNat → ∃ t, exec (.lhCheck l threshold) s = .next t
        ∧ t.link l = ⟨(s.link l).last, false⟩ ∧ State.OtherLinksKept l s t ∧ State.BoundCursorReset l s t
        ∧ t.log = (if (s.link l).connected then s.log ++ [.linkDown l (s.elapsed (s.link l).last)] else s.log)
        ∧ t.ret = .timedOut true
        ∧ State.RecordsKept s t ∧ State.SessionKept s t ∧ t.regs.segEn = s.regs.segEn ∧ State.EnvKept s t)
      ∧ ((s.elapsed (s.link l).last).toNat ≤ threshold.toNat → ∃ t, exec (.lhCheck l threshold) s = .next t
        ∧ t.ret = .timedOut false ∧ t.regs = s.regs ∧ t.log = s.log ∧ State.EnvKept s t)
      ∧ ∃ t, exec (.lhElapsed l) s = .next t ∧ t.ret = .elapsed (s.elapsed (s.link l).last))
    ∧ (s.cfg.nLinks ≤ l → exec (.lhCheck l threshold) s
      = .next { s with log := s.log ++ [.badOperand 0x22], ret := .raised (.badOperand 0x22) })

/-- R200: LH_DISC returns the link to its reset value and the bound cursor to 0, logging LinkDown with 0 if the link
was connected; everything else stays; a link out of range raises BadOperand. -/
def Obligations.LhDiscResetsLink : Prop :=
  ∀ (s : State) (l : Nat),
    (l < s.cfg.nLinks → ∃ t, exec (.lhDisc l) s = .next t
      ∧ t.link l = ⟨⟨0, 0⟩, false⟩ ∧ State.OtherLinksKept l s t ∧ State.BoundCursorReset l s t
      ∧ t.log = (if (s.link l).connected then s.log ++ [.linkDown l 0] else s.log) ∧ t.ret = .done
      ∧ State.RecordsKept s t ∧ State.SessionKept s t ∧ t.regs.segEn = s.regs.segEn ∧ State.EnvKept s t
      ∧ t.draws = s.draws)
    ∧ (s.cfg.nLinks ≤ l → exec (.lhDisc l) s
      = .next { s with log := s.log ++ [.badOperand 0x23], ret := .raised (.badOperand 0x23) })

/-- R202: LH_STAT returns the three registers of the link and changes nothing else; a link out of range raises
BadOperand. -/
def Obligations.LhStatReturnsLink : Prop :=
  ∀ (s : State) (l : Nat),
    (l < s.cfg.nLinks → exec (.lhStat l) s = .next { s with
      ret := (.linkStat (s.link l).connected (s.link l).last.ticks (s.link l).last.ovf) })
    ∧ (s.cfg.nLinks ≤ l → exec (.lhStat l) s
      = .next { s with log := s.log ++ [.badOperand 0x24], ret := .raised (.badOperand 0x24) })

/-! ### Unit SEQ -/

/-- R222: SEQ_ADV moves the index to the next entry, at the end to 0 if the playlist repeats, else holds it; every other
cursor and everything else stays; a cursor out of range raises BadOperand. (For playlists of at most 256 entries,
R21.) -/
def Obligations.SeqAdvMovesCursor : Prop :=
  ∀ (s : State) (q : Nat) (p : Playlist),
    (s.cfg.seqs[q]? = some p → p.states.length ≤ 256 → ∃ t, exec (.seqAdv q) s = .next t
      ∧ ((s.seqIndex q).toNat + 1 < p.states.length → (t.seqIndex q).toNat = (s.seqIndex q).toNat + 1)
      ∧ (p.states.length ≤ (s.seqIndex q).toNat + 1 → t.seqIndex q = if p.loops then 0 else s.seqIndex q)
      ∧ (∀ j, j ≠ q → t.seqIndex j = s.seqIndex j) ∧ t.ret = .done
      ∧ State.RecordsKept s t ∧ (∀ l, t.link l = s.link l) ∧ State.SessionKept s t
      ∧ t.regs.segEn = s.regs.segEn ∧ State.EnvKept s t ∧ t.log = s.log ∧ t.draws = s.draws)
    ∧ (s.cfg.seqs[q]? = none → exec (.seqAdv q) s
      = .next { s with log := s.log ++ [.badOperand 0x30], ret := .raised (.badOperand 0x30) })

/-- R224: SEQ_CUR returns the state value at the index; when the playlist is empty or the index out of range, the safe
default, and SeqConfigError is logged; nothing else changes; a cursor out of range raises BadOperand. -/
def Obligations.SeqCurReturnsState : Prop :=
  ∀ (s : State) (q : Nat) (p : Playlist),
    (s.cfg.seqs[q]? = some p →
      (∀ v, p.states[(s.seqIndex q).toNat]? = some v → exec (.seqCur q) s = .next { s with ret := .stateValue v })
      ∧ (p.states.length ≤ (s.seqIndex q).toNat → exec (.seqCur q) s = .next { s with
          log := s.log ++ [.seqConfigError q (s.seqIndex q) p.states.length]
          ret := .stateValue s.cfg.safeDefault }))
    ∧ (s.cfg.seqs[q]? = none → exec (.seqCur q) s
      = .next { s with log := s.log ++ [.badOperand 0x31], ret := .raised (.badOperand 0x31) })

/-- R226: SEQ_RST puts the cursor at index 0; every other cursor and everything else stays; a cursor out of range raises
BadOperand. -/
def Obligations.SeqRstReturnsToStart : Prop :=
  ∀ (s : State) (q : Nat),
    (q < s.cfg.nSeq → ∃ t, exec (.seqRst q) s = .next t
      ∧ t.seqIndex q = 0 ∧ (∀ j, j ≠ q → t.seqIndex j = s.seqIndex j) ∧ t.ret = .done
      ∧ State.RecordsKept s t ∧ (∀ l, t.link l = s.link l) ∧ State.SessionKept s t
      ∧ t.regs.segEn = s.regs.segEn ∧ State.EnvKept s t ∧ t.log = s.log ∧ t.draws = s.draws)
    ∧ (s.cfg.nSeq ≤ q → exec (.seqRst q) s
      = .next { s with log := s.log ++ [.badOperand 0x32], ret := .raised (.badOperand 0x32) })

/-- R228 (b), (c): `n` advances of a cursor in range go round a repeating playlist and stop at the end of one that does
not repeat. -/
def Obligations.RepeatedAdvances : Prop :=
  ∀ (p : Playlist) (i : Byte) (n : Nat), p.states.length ≤ 256 → i.toNat < p.states.length →
    (p.loops = true → (advances p n i).toNat = (i.toNat + n) % p.states.length)
    ∧ (p.loops = false → (advances p n i).toNat = min (i.toNat + n) (p.states.length - 1))

/-! ### Unit XFER -/

/-- R244: XFER_START without a session, with a buffer of at most 2048 bytes, a base with its low 16 bits zero and a
segment below N_SEG and up to 7, creates a session: every byte of the buffer, its length, the chunk count, the
operands, and zero counters. Otherwise it raises XferBusy (tested first) or BadOperand and changes nothing else.
(Taking R10's and decision D9's segments here, where R244 says 0 to 7, is log entry 18; that the snapshot of the wait
stays is log entry 13.) -/
def Obligations.XferStartCreatesSession : Prop :=
  ∀ (s : State) (b : List Byte) (base : BitVec 29) (seg : Nat) (tmo : BitVec 32) (maxr : Byte),
    (s.regs.xfer.st = .idle → b.length ≤ 2048 → base.toNat % 0x10000 = 0 → seg ≤ 7 → seg < s.cfg.nSeg →
      ∃ t, exec (.xferStart b base seg tmo maxr) s = .next t
        ∧ (∀ a, Memory.read t.regs.xfer.buf a = b.getD a 0) ∧ t.regs.xfer.len = b.length
        ∧ t.regs.xfer.total = (b.length + 7) / 8 ∧ t.regs.xfer.cur = 0 ∧ t.regs.xfer.att = 0 ∧ t.regs.xfer.rtot = 0
        ∧ t.regs.xfer.base = base ∧ t.regs.xfer.seg.toNat = seg ∧ t.regs.xfer.tmo = tmo ∧ t.regs.xfer.maxr = maxr
        ∧ t.regs.xfer.abort = false ∧ t.regs.xfer.result = .nothing ∧ t.regs.xfer.st = .next
        ∧ t.regs.xfer.t0 = s.regs.xfer.t0 ∧ t.ret = .accepted
        ∧ State.RecordsKept s t ∧ (∀ l, t.link l = s.link l) ∧ State.CursorsKept s t
        ∧ t.regs.segEn = s.regs.segEn ∧ State.EnvKept s t ∧ t.log = s.log ∧ t.draws = s.draws)
    ∧ (s.regs.xfer.st ≠ .idle → exec (.xferStart b base seg tmo maxr) s
      = .next { s with log := s.log ++ [.xferBusy], ret := .raised .xferBusy })
    ∧ (s.regs.xfer.st = .idle → (2048 < b.length ∨ base.toNat % 0x10000 ≠ 0 ∨ 7 < seg ∨ s.cfg.nSeg ≤ seg) →
      exec (.xferStart b base seg tmo maxr) s
        = .next { s with log := s.log ++ [.badOperand 0x40], ret := .raised (.badOperand 0x40) })

/-- R260: XFER_ABORT latches the abort request and changes nothing else; without a session it raises XferIdle. -/
def Obligations.XferAbortLatches : Prop :=
  ∀ s : State,
    (s.regs.xfer.st ≠ .idle → exec .xferAbort s = .next { s with
      regs := { s.regs with xfer := { s.regs.xfer with abort := true } }
      ret := .done })
    ∧ (s.regs.xfer.st = .idle → exec .xferAbort s
      = .next { s with log := s.log ++ [.xferIdle], ret := .raised .xferIdle })

/-- R262: XFER_STAT returns the seven registers and changes nothing else. -/
def Obligations.XferStatReports : Prop :=
  ∀ s : State, exec .xferStat s = .next { s with
    ret := (.xferStat s.regs.xfer.st s.regs.xfer.cur s.regs.xfer.total s.regs.xfer.att s.regs.xfer.rtot
      s.regs.xfer.abort s.regs.xfer.result) }

/-- R246 and R248: between chunks the engine ends with SUCCESS when every chunk is acknowledged, else with ABORTED
when an abort is pending, else turns to sending; an end clears the abort request and is logged. Nothing else
changes. -/
def Obligations.XNextDecides : Prop :=
  ∀ s : State, s.regs.xfer.st = .next →
    (s.regs.xfer.cur = s.regs.xfer.total → exec .xNext s = .next { s with
      regs := { s.regs with xfer := { s.regs.xfer with
        result := .success s.regs.xfer.total s.regs.xfer.rtot, st := .idle, abort := false } }
      log := s.log ++ [.xferDone (.success s.regs.xfer.total s.regs.xfer.rtot)] })
    ∧ (s.regs.xfer.cur ≠ s.regs.xfer.total → s.regs.xfer.abort = true → exec .xNext s = .next { s with
      regs := { s.regs with xfer := { s.regs.xfer with
        result := .aborted s.regs.xfer.cur, st := .idle, abort := false } }
      log := s.log ++ [.xferDone (.aborted s.regs.xfer.cur)] })
    ∧ (s.regs.xfer.cur ≠ s.regs.xfer.total → s.regs.xfer.abort = false → exec .xNext s = .next { s with
      regs := { s.regs with xfer := { s.regs.xfer with att := 0, st := .send } } })

/-- R250: X_SEND hands the transport the extended frame of the current chunk, 8 bytes of the buffer with zeros past its
end; ok begins the wait with the time of now; a failure is logged and is a failed attempt (R252). The `Send` takes the
answer laid down first and uses up exactly that one, or a free value where none is laid down (log entry 6); nothing
else changes. -/
def Obligations.XSendSendsChunk : Prop :=
  ∀ s : State, s.regs.xfer.st = .send →
    ∃ t id data, exec .xSend s = .next t
      ∧ id = BitVec.ofNat 29 (s.regs.xfer.base.toNat ||| (s.regs.xfer.cur <<< 8) ||| s.regs.xfer.seg.toNat)
      ∧ data = (List.range 8).map (fun i => if 8 * s.regs.xfer.cur + i < s.regs.xfer.len
          then Memory.read s.regs.xfer.buf (8 * s.regs.xfer.cur + i) else 0)
      ∧ t.sent = s.sent ++ [⟨⟨id, true, data⟩, s.sendOk⟩]
      ∧ (s.sendOk = true → t.regs = { s.regs with xfer := { s.regs.xfer with t0 := s.time, st := .wait } }
        ∧ t.log = s.log)
      ∧ (s.sendOk = false → s.regs.xfer.att + 1 ≤ s.regs.xfer.maxr.toNat →
        t.regs = { s.regs with xfer := { s.regs.xfer with
          att := s.regs.xfer.att + 1, rtot := s.regs.xfer.rtot + 1, st := .send } }
        ∧ t.log = s.log ++ [.txFail id])
      ∧ (s.sendOk = false → s.regs.xfer.maxr.toNat < s.regs.xfer.att + 1 →
        t.regs = { s.regs with xfer := { s.regs.xfer with
          att := s.regs.xfer.att + 1, result := .failed s.regs.xfer.cur s.regs.xfer.maxr, st := .idle,
          abort := false } }
        ∧ t.log = s.log ++ [.txFail id, .xferDone (.failed s.regs.xfer.cur s.regs.xfer.maxr)])
      ∧ (∀ a r, s.answers = a :: r → s.sendOk = a ∧ t.answers = r ∧ t.draws = s.draws)
      ∧ (s.answers = [] → t.answers = [] ∧ t.draws = s.draws + 1)
      ∧ t.cfg = s.cfg ∧ t.time = s.time ∧ t.timerOk = s.timerOk ∧ t.rxq = s.rxq ∧ t.head = s.head ∧ t.ret = s.ret
      ∧ t.inputs = s.inputs

/-- R258 and R252: a wait whose elapsed time has reached the timeout times out: the event is
logged and the attempt has failed: one more send of the same chunk, or FAILED when the retries are used up.
Nothing else changes. On a sample without a stated result (R206: a timer that has broken its contract) either this
happens or nothing, and the count of free values may move: which of the two is not said. (Which samples with `d = 0`
and `nt < lt` have a result is log entry 28; that the other torn and late samples have R192's is log entry 30.) -/
def Obligations.XTmoFailsAttempt : Prop :=
  ∀ s : State, s.regs.xfer.st = .wait →
    (Coherent s.timerOk s.cfg.period s.regs.xfer.t0 s.time →
      s.regs.xfer.tmo.toNat ≤ (elapsedValue s.cfg.period s.regs.xfer.t0 s.time).toNat →
      (s.regs.xfer.att + 1 ≤ s.regs.xfer.maxr.toNat → exec .xTmo s = .next { s with
        log := s.log ++ [.chunkTimeout s.regs.xfer.cur]
        regs := { s.regs with xfer := { s.regs.xfer with
          att := s.regs.xfer.att + 1, rtot := s.regs.xfer.rtot + 1, st := .send } } })
      ∧ (s.regs.xfer.maxr.toNat < s.regs.xfer.att + 1 → exec .xTmo s = .next { s with
        log := s.log ++ [.chunkTimeout s.regs.xfer.cur, .xferDone (.failed s.regs.xfer.cur s.regs.xfer.maxr)]
        regs := { s.regs with xfer := { s.regs.xfer with
          att := s.regs.xfer.att + 1, result := .failed s.regs.xfer.cur s.regs.xfer.maxr, st := .idle,
          abort := false } } }))
    ∧ (¬ Coherent s.timerOk s.cfg.period s.regs.xfer.t0 s.time → ∃ d,
      exec .xTmo s = .next { s with draws := d }
      ∨ (s.regs.xfer.att + 1 ≤ s.regs.xfer.maxr.toNat ∧ exec .xTmo s = .next { s with
        draws := d
        log := s.log ++ [.chunkTimeout s.regs.xfer.cur]
        regs := { s.regs with xfer := { s.regs.xfer with
          att := s.regs.xfer.att + 1, rtot := s.regs.xfer.rtot + 1, st := .send } } })
      ∨ (s.regs.xfer.maxr.toNat < s.regs.xfer.att + 1 ∧ exec .xTmo s = .next { s with
        draws := d
        log := s.log ++ [.chunkTimeout s.regs.xfer.cur, .xferDone (.failed s.regs.xfer.cur s.regs.xfer.maxr)]
        regs := { s.regs with xfer := { s.regs.xfer with
          att := s.regs.xfer.att + 1, result := .failed s.regs.xfer.cur s.regs.xfer.maxr, st := .idle,
          abort := false } } }))

/-- R242: the control state of the transfer engine changes only along the rows of the table: by the operation of the
row, under its condition, to the state of the row. -/
def Obligations.TransferStateTransitions : Prop :=
  ∀ (i : Instr) (s t : State), exec i s = .next t → t.regs.xfer.st ≠ s.regs.xfer.st →
    (s.regs.xfer.st = .idle ∧ t.regs.xfer.st = .next ∧ ∃ b base seg tmo maxr, i = .xferStart b base seg tmo maxr)
    ∨ (s.regs.xfer.st = .next ∧ i = .xNext ∧
      ((s.regs.xfer.cur = s.regs.xfer.total ∧ t.regs.xfer.st = .idle
          ∧ t.regs.xfer.result = .success s.regs.xfer.total s.regs.xfer.rtot)
        ∨ (s.regs.xfer.cur ≠ s.regs.xfer.total ∧ s.regs.xfer.abort = true ∧ t.regs.xfer.st = .idle
          ∧ t.regs.xfer.result = .aborted s.regs.xfer.cur)
        ∨ (s.regs.xfer.cur ≠ s.regs.xfer.total ∧ s.regs.xfer.abort = false ∧ t.regs.xfer.st = .send)))
    ∨ (s.regs.xfer.st = .send ∧ i = .xSend ∧
      ((s.sendOk = true ∧ t.regs.xfer.st = .wait)
        ∨ (s.sendOk = false ∧ s.regs.xfer.maxr.toNat < s.regs.xfer.att + 1 ∧ t.regs.xfer.st = .idle
          ∧ t.regs.xfer.result = .failed s.regs.xfer.cur s.regs.xfer.maxr)))
    ∨ (s.regs.xfer.st = .wait ∧ i = .rxFrame ∧ ∃ f rest, s.rxq = f :: rest ∧ Awaited s f ∧ 4 ≤ f.data.length ∧
      ((f.data.getD 0 0 = 0x01 ∧ (f.data.getD 1 0).toNat = s.regs.xfer.cur ∧ t.regs.xfer.st = .next)
        ∨ (f.data.getD 0 0 = 0x00 ∧ s.regs.xfer.att + 1 ≤ s.regs.xfer.maxr.toNat ∧ t.regs.xfer.st = .send)
        ∨ (f.data.getD 0 0 = 0x00 ∧ s.regs.xfer.maxr.toNat < s.regs.xfer.att + 1 ∧ t.regs.xfer.st = .idle
          ∧ t.regs.xfer.result = .failed s.regs.xfer.cur s.regs.xfer.maxr)))
    ∨ (s.regs.xfer.st = .wait ∧ i = .xTmo ∧
      s.regs.xfer.tmo.toNat ≤ (s.elapsed s.regs.xfer.t0).toNat ∧
      ((s.regs.xfer.att + 1 ≤ s.regs.xfer.maxr.toNat ∧ t.regs.xfer.st = .send)
        ∨ (s.regs.xfer.maxr.toNat < s.regs.xfer.att + 1 ∧ t.regs.xfer.st = .idle
          ∧ t.regs.xfer.result = .failed s.regs.xfer.cur s.regs.xfer.maxr)))
    ∨ (i = .softReset ∧ t.regs.xfer.st = .idle ∧ t.regs.xfer.result = .nothing)

/-- R256: the chunk index moves only by one, on an acknowledgment of the current chunk (or is 0 at a start or reset),
and an extended frame is sent only by X_SEND, for the current chunk: chunk N+1 is never sent before chunk N is
acknowledged. -/
def Obligations.ChunksGoInOrder : Prop :=
  ∀ (i : Instr) (s t : State), exec i s = .next t →
    (t.regs.xfer.cur = s.regs.xfer.cur
      ∨ (t.regs.xfer.cur = s.regs.xfer.cur + 1 ∧ i = .rxFrame ∧ ∃ f rest, s.rxq = f :: rest ∧ Awaited s f
        ∧ 4 ≤ f.data.length ∧ f.data.getD 0 0 = 0x01 ∧ (f.data.getD 1 0).toNat = s.regs.xfer.cur)
      ∨ (t.regs.xfer.cur = 0 ∧ (i = .softReset ∨ ∃ b base seg tmo maxr, i = .xferStart b base seg tmo maxr)))
    ∧ (t.sent = s.sent
      ∨ (i = .xSend ∧ s.regs.xfer.st = .send ∧ ∃ data, t.sent = s.sent ++ [⟨⟨BitVec.ofNat 29
          (s.regs.xfer.base.toNat ||| (s.regs.xfer.cur <<< 8) ||| s.regs.xfer.seg.toNat), true, data⟩, s.sendOk⟩])
      ∨ ((∃ c seg pr, i = .txRecord c seg pr) ∧ ∃ f, f.ext = false ∧ t.sent = s.sent ++ [⟨f, s.sendOk⟩]))

/-- R266: a transfer of the empty buffer ends with SUCCESS(0, 0) at the first step of the engine, and no frame is
sent. (For a segment below N_SEG, log entry 18.) -/
def Obligations.EmptyTransferSucceeds : Prop :=
  ∀ (s : State) (base : BitVec 29) (seg : Nat) (tmo : BitVec 32) (maxr : Byte),
    s.regs.xfer.st = .idle → base.toNat % 0x10000 = 0 → seg ≤ 7 → seg < s.cfg.nSeg →
    ∃ t u, exec (.xferStart [] base seg tmo maxr) s = .next t ∧ exec .xNext t = .next u
      ∧ u.regs.xfer.st = .idle ∧ u.regs.xfer.result = .success 0 0 ∧ u.sent = s.sent
      ∧ u.log = s.log ++ [.xferDone (.success 0 0)]

/-! ### System operations, reset, timer, bus -/

/-- R290 and R294: SEG_SET keeps the bits of the mask below N_SEG and clears the others; SEG_GET returns the register.
Nothing else changes. -/
def Obligations.SegmentMaskSetAndGet : Prop :=
  ∀ (s : State) (mask : Byte),
    (∃ m : Byte, exec (.segSet mask) s = .next { s with regs := { s.regs with segEn := m }, ret := .done }
      ∧ ∀ j < 8, m.getLsbD j = (mask.getLsbD j && decide (j < s.cfg.nSeg)))
    ∧ exec .segGet s = .next { s with ret := .segMask s.regs.segEn }

/-- R292: REC_READ of an RX class and a segment in range returns the slot and changes nothing else; a class that is not
RX, or an operand out of range, raises BadOperand. -/
def Obligations.RecReadReturnsSlot : Prop :=
  ∀ (s : State) (c seg : Nat),
    (∀ k, s.cfg.classes[c]? = some k → k.dir = .rx → seg < s.cfg.nSeg →
      exec (.recRead c seg) s = .next { s with ret := .recSlot (s.record c seg) })
    ∧ ((∀ k, s.cfg.classes[c]? = some k → k.dir = .rx → s.cfg.nSeg ≤ seg) →
      exec (.recRead c seg) s = .next { s with log := s.log ++ [.badOperand 0x51], ret := .raised (.badOperand 0x51) })

/-- R296: SOFT_RESET puts every register of `S` at its reset value (R37), a session in progress included, and leaves CFG, the
timer, RXQ, the transmit path and LOG alone (R352). -/
def Obligations.SoftResetRestoresS : Prop :=
  ∀ s : State, ∃ t, exec .softReset s = .next t
    ∧ t.regs.segEn = 0 ∧ (∀ c seg, t.record c seg = none) ∧ (∀ l, t.link l = ⟨⟨0, 0⟩, false⟩)
    ∧ (∀ q, t.seqIndex q = 0) ∧ t.regs.xfer.st = .idle ∧ t.regs.xfer.result = .nothing ∧ t.regs.xfer.abort = false
    ∧ (∀ a, Memory.read t.regs.xfer.buf a = 0) ∧ t.regs.xfer.len = 0 ∧ t.regs.xfer.total = 0 ∧ t.regs.xfer.cur = 0
    ∧ t.regs.xfer.att = 0 ∧ t.regs.xfer.base = 0 ∧ t.regs.xfer.seg = 0 ∧ t.regs.xfer.tmo = 0 ∧ t.regs.xfer.maxr = 0
    ∧ t.regs.xfer.t0 = ⟨0, 0⟩ ∧ t.regs.xfer.rtot = 0
    ∧ t.ret = .done ∧ t.log = s.log ∧ State.EnvKept s t ∧ t.draws = s.draws

/-- R37: what reset leaves in `S`, in the state after reset and in every state the reset is applied to, and that
the configuration and LOG are unchanged by it. -/
def Obligations.ResetLeavesS : Prop :=
  (State.reset.regs.segEn = 0 ∧ (∀ c seg, State.reset.record c seg = none)
    ∧ (∀ l, State.reset.link l = ⟨⟨0, 0⟩, false⟩) ∧ (∀ q, State.reset.seqIndex q = 0)
    ∧ State.reset.regs.xfer = ⟨.idle, [], 0, 0, 0, 0, 0, 0, 0, 0, ⟨0, 0⟩, false, 0, .nothing⟩)
  ∧ ∀ s : State, s.resetBlock.regs = State.reset.regs ∧ s.resetBlock.cfg = s.cfg ∧ s.resetBlock.log = s.log

/-- R326: TICK adds one tick below the period, else wraps the ticks to 0 and adds one to the overflow count modulo 2^32;
it changes nothing else. (For tick values below 2^32, as PERIOD is at most 2^32.) -/
def Obligations.TickAdvancesTimer : Prop :=
  ∀ s : State, s.cfg.period ≤ 2 ^ 32 → ∃ now, exec .tick s = .next { s with time := now }
    ∧ (s.time.ticks.toNat + 1 < s.cfg.period →
      now.ticks.toNat = s.time.ticks.toNat + 1 ∧ now.ovf = s.time.ovf)
    ∧ (s.cfg.period ≤ s.time.ticks.toNat + 1 →
      now.ticks = 0 ∧ now.ovf.toNat = (s.time.ovf.toNat + 1) % 2 ^ 32)

/-- R96, R98, R99, R100: the identifier rows name a standard identifier, a request identifier and a response identifier, each
part in its own bits. That the peer's frame then has that identifier is the model's reading of a format row (log
entry 8). Nothing else changes. -/
def Obligations.IdentifierRowsNameFrame : Prop :=
  ∀ s : State,
    (∀ id : BitVec 11, exec (.fTelem id) s = .next { s with head := ⟨BitVec.ofNat 29 id.toNat, false⟩ })
    ∧ (∀ (b : BitVec 13) (k : Byte) (seg : BitVec 3), exec (.fXreq b k seg) s = .next { s with
      head := ⟨BitVec.ofNat 29 (b.toNat * 2 ^ 16 + k.toNat * 2 ^ 8 + seg.toNat), true⟩ })
    ∧ (∀ (b : BitVec 13) (k : Byte) (seg : BitVec 3), exec (.fXrsp b k seg) s = .next { s with
      head := ⟨BitVec.ofNat 29 (b.toNat * 2 ^ 16 + k.toNat * 2 ^ 8 + 0xA0 + seg.toNat), true⟩ })

/-- R93, R104, R105: the payload rows complete the peer's frame with their bytes, a checksum big-endian, and place it at the tail of
RXQ (R35). That a format row is the peer's move is log entry 8. Nothing else changes. -/
def Obligations.PayloadRowsDeliverFrame : Prop :=
  ∀ s : State, (s.head.ext = true ∨ s.head.id.toNat ≤ 0x7FF) →
    (∀ p : List Byte, p.length ≤ 8 → exec (.pFields p) s = .next { s with
      rxq := s.rxq ++ [⟨s.head.id, s.head.ext, p⟩] })
    ∧ (∀ p : List Byte, p.length = 8 → exec (.pChunk p) s = .next { s with
      rxq := s.rxq ++ [⟨s.head.id, s.head.ext, p⟩] })
    ∧ (∀ (status k : Byte) (ck : BitVec 16) (r : List Byte), r.length ≤ 4 →
      exec (.pAck status k ck r) s = .next { s with rxq := s.rxq ++ [⟨s.head.id, s.head.ext,
        status :: k :: BitVec.ofNat 8 (ck.toNat / 256) :: BitVec.ofNat 8 ck.toNat :: r⟩] }
      ∧ exec (.pAckAck k ck r) s = .next { s with rxq := s.rxq ++ [⟨s.head.id, s.head.ext,
        0x01 :: k :: BitVec.ofNat 8 (ck.toNat / 256) :: BitVec.ofNat 8 ck.toNat :: r⟩] }
      ∧ exec (.pAckNack k ck r) s = .next { s with rxq := s.rxq ++ [⟨s.head.id, s.head.ext,
        0x00 :: k :: BitVec.ofNat 8 (ck.toNat / 256) :: BitVec.ofNat 8 ck.toNat :: r⟩] })

/-! ### Whole-machine rules -/

/-- R38, with the canonical forms and the environment's premises: every step from a state that meets the invariant
leaves one that meets it. -/
def Obligations.InvariantKeptByStep : Prop :=
  ∀ s t : State, s.Inv → step s = .next t → t.Inv

/-- The invariant holds after reset (with the configuration and the timer of log entries 2 and 10). -/
def Obligations.InvariantAtReset : Prop := State.reset.Inv

/-- R68: the pure reads change no state: `S` and the environment stay, they return a value, and at most LOG (SEQ_CUR's
SeqConfigError, or an outcome raised) and the free-value counter move. -/
def Obligations.PureReadsChangeNothing : Prop :=
  ∀ (i : Instr) (s t : State), isPureRead i = true → exec i s = .next t →
    t.regs = s.regs ∧ State.EnvKept s t ∧ ∃ new, t.log = s.log ++ new

/-- R26, R28, R29, R30, R31, R228 (e): each part of `S` is written only by the operations its rule names. R35 and R326:
the timer is written only by TICK. No instruction writes the model's own flag that the timer has kept its contract
(DESIGN CHOICE, log entry 28). -/
def Obligations.WritersOfState : Prop :=
  ∀ (i : Instr) (s t : State), exec i s = .next t →
    (t.regs.segEn ≠ s.regs.segEn → (∃ m, i = .segSet m) ∨ i = .softReset)
    ∧ (t.regs.recs ≠ s.regs.recs → i = .rxFrame ∨ i = .softReset)
    ∧ (t.regs.links ≠ s.regs.links → i = .rxFrame ∨ (∃ l, i = .lhRx l) ∨ (∃ l th, i = .lhCheck l th)
      ∨ (∃ l, i = .lhDisc l) ∨ i = .softReset)
    ∧ (t.regs.seqs ≠ s.regs.seqs → (∃ q, i = .seqAdv q) ∨ (∃ q, i = .seqRst q) ∨ (∃ l th, i = .lhCheck l th)
      ∨ (∃ l, i = .lhDisc l) ∨ i = .softReset)
    ∧ (t.regs.xfer ≠ s.regs.xfer → (∃ b base seg tmo maxr, i = .xferStart b base seg tmo maxr) ∨ i = .xferAbort
      ∨ i = .rxFrame ∨ i = .xNext ∨ i = .xSend ∨ i = .xTmo ∨ i = .softReset)
    ∧ (t.time ≠ s.time → i = .tick) ∧ t.timerOk = s.timerOk

/-- R12, R36, R338: no step writes the configuration, and LOG only grows at its end. So does the list of the frames handed
to the transport, which is the model's own record of the transmit path (log entry 6). -/
def Obligations.ConfigConstantLogAppended : Prop :=
  ∀ s t : State, step s = .next t →
    t.cfg = s.cfg ∧ (∃ new, t.log = s.log ++ new) ∧ ∃ more, t.sent = s.sent ++ more

/-- R310: under ConfigWF no step stops: after every outcome the machine goes on. In any configuration an instruction is
refused exactly where `Stops` says: on a field outside the word (R64) for DECODE, ENCODE, TX_RECORD and RX_FRAME, a
factor 0 (R144) for ENCODE and TX_RECORD, an identifier above 11 bits (R162) for RESOLVE and TX_RECORD. (That the
operation that meets the entry refuses, and not the configuration beforehand, is the model's reading, log entry
14.) -/
def Obligations.MachineNeverStops : Prop :=
  (∀ s : State, ConfigWF s.cfg → ∃ t, step s = .next t)
  ∧ ∀ (i : Instr) (s : State) (r : Refusal), exec i s = .refused r ↔ Stops s i r
end

