-- ==== Sys2Proof/Laws/Numerals.lean ====
section
/-!
SUPPORT. Each reader of the decoder reads back what its writer of the encoder wrote, with whatever follows.
-/

namespace Sys2Proof

theorem rdNat_wrNatFuel (f n : Nat) (h : n < 2 ^ (f + 1)) (bs : List Byte) :
    rdNat (wrNatFuel f n ++ bs) = some (n, bs) := by
  induction f generalizing n with
  | zero =>
    have h2 : n < 2 := by simpa using h
    have : n % 2 ^ 8 = n := Nat.mod_eq_of_lt (by omega)
    simp only [wrNatFuel, List.cons_append, List.nil_append, rdNat, BitVec.toNat_ofNat, this]
    rw [if_pos (by omega)]
  | succ f ih =>
    unfold wrNatFuel
    split
    · rename_i h1
      have : n % 2 ^ 8 = n := Nat.mod_eq_of_lt (by omega)
      simp only [List.cons_append, List.nil_append, rdNat, BitVec.toNat_ofNat, this]
      rw [if_pos h1]
    · rename_i h1
      have hm : (n % 128 + 128) % 2 ^ 8 = n % 128 + 128 := Nat.mod_eq_of_lt (by omega)
      have hd : n / 128 < 2 ^ (f + 1) := by
        have : 2 ^ (f + 1 + 1) = 2 * 2 ^ (f + 1) := by ring
        omega
      simp only [List.cons_append, rdNat, BitVec.toNat_ofNat, hm, ih _ hd]
      rw [if_neg (by omega)]
      simp only [Option.some.injEq, Prod.mk.injEq, and_true]
      omega

@[simp] theorem rdNat_wrNat (n : Nat) (bs : List Byte) : rdNat (wrNat n ++ bs) = some (n, bs) := by
  exact rdNat_wrNatFuel _ n Nat.lt_log2_self bs

@[simp] theorem rdWord_wrNat {w : Nat} (v : BitVec w) (bs : List Byte) :
    rdWord w (wrNat v.toNat ++ bs) = some (v, bs) := by
  simp [rdWord, v.isLt]

/-- A numeral has a digit, so an operand that is given is not taken for a default. -/
@[simp] theorem rdDefault_wrNat {α : Type} (d : α) (rd : List Byte → Option (α × List Byte)) (n : Nat)
    (bs : List Byte) : rdDefault d rd (wrNat n ++ bs) = rd (wrNat n ++ bs) := by
  have h : ∀ f, ∃ b l, wrNatFuel f n = b :: l := fun f => by
    cases f with
    | zero => exact ⟨_, _, rfl⟩
    | succ f => unfold wrNatFuel; split <;> exact ⟨_, _, rfl⟩
  obtain ⟨b, l, h⟩ := h n.log2
  rw [wrNat, h]; rfl

@[simp] theorem rdDefault_wrNat_last {α : Type} (d : α) (rd : List Byte → Option (α × List Byte)) (n : Nat) :
    rdDefault d rd (wrNat n) = rd (wrNat n) := by simpa using rdDefault_wrNat d rd n []

@[simp] theorem rdBool_wrBool (b : Bool) (bs : List Byte) : rdBool (wrBool b ++ bs) = some (b, bs) := by
  cases b <;> simp [rdBool, wrBool]

@[simp] theorem rdBytes_wrBytes (p bs : List Byte) : rdBytes (wrBytes p ++ bs) = some (p, bs) := by
  simp [rdBytes, wrBytes, List.append_assoc]

@[simp] theorem rdRat_wrRat (q : Q) (bs : List Byte) : rdRat (wrRat q ++ bs) = some (q, bs) := by
  have h : mkRat (if decide (q.num < 0) = true then -(q.num.natAbs : Int) else q.num.natAbs) q.den = q := by
    have : (if decide (q.num < 0) = true then -(q.num.natAbs : Int) else q.num.natAbs) = q.num := by
      split
      · rename_i h; have := of_decide_eq_true h; omega
      · rename_i h; have : ¬ q.num < 0 := fun h' => h (decide_eq_true h'); omega
    rw [this, Rat.mkRat_self]
  simp only [rdRat, wrRat, List.append_assoc, rdBool_wrBool, rdNat_wrNat, Option.bind_eq_bind, Option.bind_some]
  rw [if_neg q.den_nz, h]

@[simp] theorem rdFieldVal_wrFieldVal (v : FieldVal) (bs : List Byte) :
    rdFieldVal (wrFieldVal v ++ bs) = some (v, bs) := by
  simp [rdFieldVal, wrFieldVal, List.append_assoc]

theorem rdMany_flatMap {α : Type} {rd : List Byte → Option (α × List Byte)} {wr : α → List Byte}
    (h : ∀ a bs, rd (wr a ++ bs) = some (a, bs)) (as : List α) (bs : List Byte) :
    rdMany rd as.length (as.flatMap wr ++ bs) = some (as, bs) := by
  induction as with
  | nil => rfl
  | cons a as ih => simp [rdMany, List.append_assoc, h, ih]

theorem rdList_wrList {α : Type} {rd : List Byte → Option (α × List Byte)} {wr : α → List Byte}
    (h : ∀ a bs, rd (wr a ++ bs) = some (a, bs)) (as : List α) (bs : List Byte) :
    rdList rd (wrList wr as ++ bs) = some (as, bs) := by
  simp [rdList, wrList, List.append_assoc, rdMany_flatMap h]

@[simp] theorem rdList_wrList_rat (as : List Q) (bs : List Byte) :
    rdList rdRat (wrList wrRat as ++ bs) = some (as, bs) := rdList_wrList rdRat_wrRat as bs

@[simp] theorem rdList_wrList_fieldVal (as : Record) (bs : List Byte) :
    rdList rdFieldVal (wrList wrFieldVal as ++ bs) = some (as, bs) := rdList_wrList rdFieldVal_wrFieldVal as bs

/-! ### Little-endian words -/

@[simp] theorem Machine.length_leBytes (n v : Nat) : (Machine.leBytes n v).length = n := by
  induction n generalizing v with
  | zero => rfl
  | succ n ih => simp [Machine.leBytes, ih]

theorem Machine.leNat_leBytes (n v : Nat) : Machine.leNat (Machine.leBytes n v) = v % 2 ^ (8 * n) := by
  induction n generalizing v with
  | zero => simp [Machine.leBytes, Machine.leNat, Nat.mod_one]
  | succ n ih =>
    have h : (2 : Nat) ^ (8 * (n + 1)) = 256 * 2 ^ (8 * n) := by
      rw [show 8 * (n + 1) = 8 * n + 8 by ring, pow_add]; ring
    simp only [Machine.leBytes, Machine.leNat, ih, BitVec.toNat_ofNat, h]
    rw [Nat.mod_mul]

theorem Machine.leNat_lt (bs : List Byte) : Machine.leNat bs < 2 ^ (8 * bs.length) := by
  induction bs with
  | nil => simp [Machine.leNat]
  | cons b bs ih =>
    have h : (2 : Nat) ^ (8 * (b :: bs).length) = 256 * 2 ^ (8 * bs.length) := by
      rw [List.length_cons, show 8 * (bs.length + 1) = 8 * bs.length + 8 by ring, pow_add]; ring
    have hb := b.isLt
    simp only [Machine.leNat, h]
    omega

/-- The number a standard identifier's two bytes stand for (R96). -/
theorem leNat_telemWord (id : BitVec 11) : Machine.leNat (telemWord id) = id.toNat := by
  rw [telemWord, Machine.leNat_leBytes]; omega

/-- The number an extended identifier's four bytes stand for, with the format bit (R98, R99). -/
theorem leNat_xferWord (m : Nat) (hm : m < 32) (b : BitVec 13) (k : Byte) (g : BitVec 3) :
    Machine.leNat (xferWord m b k g) = 2 ^ 29 + b.toNat * 2 ^ 16 + k.toNat * 2 ^ 8 + m * 2 ^ 3 + g.toNat := by
  rw [xferWord, Machine.leNat_leBytes]; omega

/-- The two checksum bytes, high first, are the checksum (R62). -/
theorem checksum_append (ck : BitVec 16) : ck.extractLsb' 8 8 ++ ck.extractLsb' 0 8 = ck := by
  apply BitVec.eq_of_getLsbD_eq; intro j hj
  simp only [BitVec.getLsbD_append, BitVec.getLsbD_extractLsb']
  split
  · rename_i h; simp [h]
  · rename_i h; rw [show 8 + (j - 8) = j by omega]; simp; omega

end Sys2Proof
end

