-- ==== Sys2Proof/Laws/State.lean ====
section
/-!
SUPPORT. The small lemmas of the state's updates: one for each field and each update, true by unfolding, so that
no later proof unfolds a record update. Then what each update does to the registers read by number.
-/

namespace Sys2Proof.Machine

/-! ### `State.setRegs` -/

@[simp] theorem State.setRegs_cfg (s : State) (r : Regs) : (s.setRegs r).cfg = s.cfg := rfl
@[simp] theorem State.setRegs_regs (s : State) (r : Regs) : (s.setRegs r).regs = r := rfl
@[simp] theorem State.setRegs_time (s : State) (r : Regs) : (s.setRegs r).time = s.time := rfl
@[simp] theorem State.setRegs_timerOk (s : State) (r : Regs) : (s.setRegs r).timerOk = s.timerOk := rfl
@[simp] theorem State.setRegs_rxq (s : State) (r : Regs) : (s.setRegs r).rxq = s.rxq := rfl
@[simp] theorem State.setRegs_head (s : State) (r : Regs) : (s.setRegs r).head = s.head := rfl
@[simp] theorem State.setRegs_answers (s : State) (r : Regs) : (s.setRegs r).answers = s.answers := rfl
@[simp] theorem State.setRegs_sent (s : State) (r : Regs) : (s.setRegs r).sent = s.sent := rfl
@[simp] theorem State.setRegs_log (s : State) (r : Regs) : (s.setRegs r).log = s.log := rfl
@[simp] theorem State.setRegs_ret (s : State) (r : Regs) : (s.setRegs r).ret = s.ret := rfl
@[simp] theorem State.setRegs_inputs (s : State) (r : Regs) : (s.setRegs r).inputs = s.inputs := rfl
@[simp] theorem State.setRegs_draws (s : State) (r : Regs) : (s.setRegs r).draws = s.draws := rfl

/-! ### `State.setTime` -/

@[simp] theorem State.setTime_cfg (s : State) (t : Stamp) : (s.setTime t).cfg = s.cfg := rfl
@[simp] theorem State.setTime_regs (s : State) (t : Stamp) : (s.setTime t).regs = s.regs := rfl
@[simp] theorem State.setTime_time (s : State) (t : Stamp) : (s.setTime t).time = t := rfl
@[simp] theorem State.setTime_timerOk (s : State) (t : Stamp) : (s.setTime t).timerOk = s.timerOk := rfl
@[simp] theorem State.setTime_rxq (s : State) (t : Stamp) : (s.setTime t).rxq = s.rxq := rfl
@[simp] theorem State.setTime_head (s : State) (t : Stamp) : (s.setTime t).head = s.head := rfl
@[simp] theorem State.setTime_answers (s : State) (t : Stamp) : (s.setTime t).answers = s.answers := rfl
@[simp] theorem State.setTime_sent (s : State) (t : Stamp) : (s.setTime t).sent = s.sent := rfl
@[simp] theorem State.setTime_log (s : State) (t : Stamp) : (s.setTime t).log = s.log := rfl
@[simp] theorem State.setTime_ret (s : State) (t : Stamp) : (s.setTime t).ret = s.ret := rfl
@[simp] theorem State.setTime_inputs (s : State) (t : Stamp) : (s.setTime t).inputs = s.inputs := rfl
@[simp] theorem State.setTime_draws (s : State) (t : Stamp) : (s.setTime t).draws = s.draws := rfl

/-! ### `State.breakTime` -/

@[simp] theorem State.breakTime_cfg (s : State) (t : Stamp) : (s.breakTime t).cfg = s.cfg := rfl
@[simp] theorem State.breakTime_regs (s : State) (t : Stamp) : (s.breakTime t).regs = s.regs := rfl
@[simp] theorem State.breakTime_time (s : State) (t : Stamp) : (s.breakTime t).time = t := rfl
@[simp] theorem State.breakTime_timerOk (s : State) (t : Stamp) : (s.breakTime t).timerOk = false := rfl
@[simp] theorem State.breakTime_rxq (s : State) (t : Stamp) : (s.breakTime t).rxq = s.rxq := rfl
@[simp] theorem State.breakTime_head (s : State) (t : Stamp) : (s.breakTime t).head = s.head := rfl
@[simp] theorem State.breakTime_answers (s : State) (t : Stamp) : (s.breakTime t).answers = s.answers := rfl
@[simp] theorem State.breakTime_sent (s : State) (t : Stamp) : (s.breakTime t).sent = s.sent := rfl
@[simp] theorem State.breakTime_log (s : State) (t : Stamp) : (s.breakTime t).log = s.log := rfl
@[simp] theorem State.breakTime_ret (s : State) (t : Stamp) : (s.breakTime t).ret = s.ret := rfl
@[simp] theorem State.breakTime_inputs (s : State) (t : Stamp) : (s.breakTime t).inputs = s.inputs := rfl
@[simp] theorem State.breakTime_draws (s : State) (t : Stamp) : (s.breakTime t).draws = s.draws := rfl

/-! ### `State.setRxq` -/

@[simp] theorem State.setRxq_cfg (s : State) (q : List Frame) : (s.setRxq q).cfg = s.cfg := rfl
@[simp] theorem State.setRxq_regs (s : State) (q : List Frame) : (s.setRxq q).regs = s.regs := rfl
@[simp] theorem State.setRxq_time (s : State) (q : List Frame) : (s.setRxq q).time = s.time := rfl
@[simp] theorem State.setRxq_timerOk (s : State) (q : List Frame) : (s.setRxq q).timerOk = s.timerOk := rfl
@[simp] theorem State.setRxq_rxq (s : State) (q : List Frame) : (s.setRxq q).rxq = q := rfl
@[simp] theorem State.setRxq_head (s : State) (q : List Frame) : (s.setRxq q).head = s.head := rfl
@[simp] theorem State.setRxq_answers (s : State) (q : List Frame) : (s.setRxq q).answers = s.answers := rfl
@[simp] theorem State.setRxq_sent (s : State) (q : List Frame) : (s.setRxq q).sent = s.sent := rfl
@[simp] theorem State.setRxq_log (s : State) (q : List Frame) : (s.setRxq q).log = s.log := rfl
@[simp] theorem State.setRxq_ret (s : State) (q : List Frame) : (s.setRxq q).ret = s.ret := rfl
@[simp] theorem State.setRxq_inputs (s : State) (q : List Frame) : (s.setRxq q).inputs = s.inputs := rfl
@[simp] theorem State.setRxq_draws (s : State) (q : List Frame) : (s.setRxq q).draws = s.draws := rfl

/-! ### `State.setHead` -/

@[simp] theorem State.setHead_cfg (s : State) (h : BusHead) : (s.setHead h).cfg = s.cfg := rfl
@[simp] theorem State.setHead_regs (s : State) (h : BusHead) : (s.setHead h).regs = s.regs := rfl
@[simp] theorem State.setHead_time (s : State) (h : BusHead) : (s.setHead h).time = s.time := rfl
@[simp] theorem State.setHead_timerOk (s : State) (h : BusHead) : (s.setHead h).timerOk = s.timerOk := rfl
@[simp] theorem State.setHead_rxq (s : State) (h : BusHead) : (s.setHead h).rxq = s.rxq := rfl
@[simp] theorem State.setHead_head (s : State) (h : BusHead) : (s.setHead h).head = h := rfl
@[simp] theorem State.setHead_answers (s : State) (h : BusHead) : (s.setHead h).answers = s.answers := rfl
@[simp] theorem State.setHead_sent (s : State) (h : BusHead) : (s.setHead h).sent = s.sent := rfl
@[simp] theorem State.setHead_log (s : State) (h : BusHead) : (s.setHead h).log = s.log := rfl
@[simp] theorem State.setHead_ret (s : State) (h : BusHead) : (s.setHead h).ret = s.ret := rfl
@[simp] theorem State.setHead_inputs (s : State) (h : BusHead) : (s.setHead h).inputs = s.inputs := rfl
@[simp] theorem State.setHead_draws (s : State) (h : BusHead) : (s.setHead h).draws = s.draws := rfl

/-! ### `State.setAnswers` -/

@[simp] theorem State.setAnswers_cfg (s : State) (a : List Bool) : (s.setAnswers a).cfg = s.cfg := rfl
@[simp] theorem State.setAnswers_regs (s : State) (a : List Bool) : (s.setAnswers a).regs = s.regs := rfl
@[simp] theorem State.setAnswers_time (s : State) (a : List Bool) : (s.setAnswers a).time = s.time := rfl
@[simp] theorem State.setAnswers_timerOk (s : State) (a : List Bool) : (s.setAnswers a).timerOk = s.timerOk := rfl
@[simp] theorem State.setAnswers_rxq (s : State) (a : List Bool) : (s.setAnswers a).rxq = s.rxq := rfl
@[simp] theorem State.setAnswers_head (s : State) (a : List Bool) : (s.setAnswers a).head = s.head := rfl
@[simp] theorem State.setAnswers_answers (s : State) (a : List Bool) : (s.setAnswers a).answers = a := rfl
@[simp] theorem State.setAnswers_sent (s : State) (a : List Bool) : (s.setAnswers a).sent = s.sent := rfl
@[simp] theorem State.setAnswers_log (s : State) (a : List Bool) : (s.setAnswers a).log = s.log := rfl
@[simp] theorem State.setAnswers_ret (s : State) (a : List Bool) : (s.setAnswers a).ret = s.ret := rfl
@[simp] theorem State.setAnswers_inputs (s : State) (a : List Bool) : (s.setAnswers a).inputs = s.inputs := rfl
@[simp] theorem State.setAnswers_draws (s : State) (a : List Bool) : (s.setAnswers a).draws = s.draws := rfl

/-! ### `State.pushSent` -/

@[simp] theorem State.pushSent_cfg (s : State) (x : Sent) : (s.pushSent x).cfg = s.cfg := rfl
@[simp] theorem State.pushSent_regs (s : State) (x : Sent) : (s.pushSent x).regs = s.regs := rfl
@[simp] theorem State.pushSent_time (s : State) (x : Sent) : (s.pushSent x).time = s.time := rfl
@[simp] theorem State.pushSent_timerOk (s : State) (x : Sent) : (s.pushSent x).timerOk = s.timerOk := rfl
@[simp] theorem State.pushSent_rxq (s : State) (x : Sent) : (s.pushSent x).rxq = s.rxq := rfl
@[simp] theorem State.pushSent_head (s : State) (x : Sent) : (s.pushSent x).head = s.head := rfl
@[simp] theorem State.pushSent_answers (s : State) (x : Sent) : (s.pushSent x).answers = s.answers := rfl
@[simp] theorem State.pushSent_sent (s : State) (x : Sent) : (s.pushSent x).sent = s.sent ++ [x] := rfl
@[simp] theorem State.pushSent_log (s : State) (x : Sent) : (s.pushSent x).log = s.log := rfl
@[simp] theorem State.pushSent_ret (s : State) (x : Sent) : (s.pushSent x).ret = s.ret := rfl
@[simp] theorem State.pushSent_inputs (s : State) (x : Sent) : (s.pushSent x).inputs = s.inputs := rfl
@[simp] theorem State.pushSent_draws (s : State) (x : Sent) : (s.pushSent x).draws = s.draws := rfl

/-! ### `State.pushLog` -/

@[simp] theorem State.pushLog_cfg (s : State) (e : Event) : (s.pushLog e).cfg = s.cfg := rfl
@[simp] theorem State.pushLog_regs (s : State) (e : Event) : (s.pushLog e).regs = s.regs := rfl
@[simp] theorem State.pushLog_time (s : State) (e : Event) : (s.pushLog e).time = s.time := rfl
@[simp] theorem State.pushLog_timerOk (s : State) (e : Event) : (s.pushLog e).timerOk = s.timerOk := rfl
@[simp] theorem State.pushLog_rxq (s : State) (e : Event) : (s.pushLog e).rxq = s.rxq := rfl
@[simp] theorem State.pushLog_head (s : State) (e : Event) : (s.pushLog e).head = s.head := rfl
@[simp] theorem State.pushLog_answers (s : State) (e : Event) : (s.pushLog e).answers = s.answers := rfl
@[simp] theorem State.pushLog_sent (s : State) (e : Event) : (s.pushLog e).sent = s.sent := rfl
@[simp] theorem State.pushLog_log (s : State) (e : Event) : (s.pushLog e).log = s.log ++ [e] := rfl
@[simp] theorem State.pushLog_ret (s : State) (e : Event) : (s.pushLog e).ret = s.ret := rfl
@[simp] theorem State.pushLog_inputs (s : State) (e : Event) : (s.pushLog e).inputs = s.inputs := rfl
@[simp] theorem State.pushLog_draws (s : State) (e : Event) : (s.pushLog e).draws = s.draws := rfl

/-! ### `State.setRet` -/

@[simp] theorem State.setRet_cfg (s : State) (r : Ret) : (s.setRet r).cfg = s.cfg := rfl
@[simp] theorem State.setRet_regs (s : State) (r : Ret) : (s.setRet r).regs = s.regs := rfl
@[simp] theorem State.setRet_time (s : State) (r : Ret) : (s.setRet r).time = s.time := rfl
@[simp] theorem State.setRet_timerOk (s : State) (r : Ret) : (s.setRet r).timerOk = s.timerOk := rfl
@[simp] theorem State.setRet_rxq (s : State) (r : Ret) : (s.setRet r).rxq = s.rxq := rfl
@[simp] theorem State.setRet_head (s : State) (r : Ret) : (s.setRet r).head = s.head := rfl
@[simp] theorem State.setRet_answers (s : State) (r : Ret) : (s.setRet r).answers = s.answers := rfl
@[simp] theorem State.setRet_sent (s : State) (r : Ret) : (s.setRet r).sent = s.sent := rfl
@[simp] theorem State.setRet_log (s : State) (r : Ret) : (s.setRet r).log = s.log := rfl
@[simp] theorem State.setRet_ret (s : State) (r : Ret) : (s.setRet r).ret = r := rfl
@[simp] theorem State.setRet_inputs (s : State) (r : Ret) : (s.setRet r).inputs = s.inputs := rfl
@[simp] theorem State.setRet_draws (s : State) (r : Ret) : (s.setRet r).draws = s.draws := rfl

/-! ### `State.setInputs` -/

@[simp] theorem State.setInputs_cfg (s : State) (l : List Input) : (s.setInputs l).cfg = s.cfg := rfl
@[simp] theorem State.setInputs_regs (s : State) (l : List Input) : (s.setInputs l).regs = s.regs := rfl
@[simp] theorem State.setInputs_time (s : State) (l : List Input) : (s.setInputs l).time = s.time := rfl
@[simp] theorem State.setInputs_timerOk (s : State) (l : List Input) : (s.setInputs l).timerOk = s.timerOk := rfl
@[simp] theorem State.setInputs_rxq (s : State) (l : List Input) : (s.setInputs l).rxq = s.rxq := rfl
@[simp] theorem State.setInputs_head (s : State) (l : List Input) : (s.setInputs l).head = s.head := rfl
@[simp] theorem State.setInputs_answers (s : State) (l : List Input) : (s.setInputs l).answers = s.answers := rfl
@[simp] theorem State.setInputs_sent (s : State) (l : List Input) : (s.setInputs l).sent = s.sent := rfl
@[simp] theorem State.setInputs_log (s : State) (l : List Input) : (s.setInputs l).log = s.log := rfl
@[simp] theorem State.setInputs_ret (s : State) (l : List Input) : (s.setInputs l).ret = s.ret := rfl
@[simp] theorem State.setInputs_inputs (s : State) (l : List Input) : (s.setInputs l).inputs = l := rfl
@[simp] theorem State.setInputs_draws (s : State) (l : List Input) : (s.setInputs l).draws = s.draws := rfl

/-! ### `State.countDraw` -/

@[simp] theorem State.countDraw_cfg (s : State) : (s.countDraw).cfg = s.cfg := rfl
@[simp] theorem State.countDraw_regs (s : State) : (s.countDraw).regs = s.regs := rfl
@[simp] theorem State.countDraw_time (s : State) : (s.countDraw).time = s.time := rfl
@[simp] theorem State.countDraw_timerOk (s : State) : (s.countDraw).timerOk = s.timerOk := rfl
@[simp] theorem State.countDraw_rxq (s : State) : (s.countDraw).rxq = s.rxq := rfl
@[simp] theorem State.countDraw_head (s : State) : (s.countDraw).head = s.head := rfl
@[simp] theorem State.countDraw_answers (s : State) : (s.countDraw).answers = s.answers := rfl
@[simp] theorem State.countDraw_sent (s : State) : (s.countDraw).sent = s.sent := rfl
@[simp] theorem State.countDraw_log (s : State) : (s.countDraw).log = s.log := rfl
@[simp] theorem State.countDraw_ret (s : State) : (s.countDraw).ret = s.ret := rfl
@[simp] theorem State.countDraw_inputs (s : State) : (s.countDraw).inputs = s.inputs := rfl
@[simp] theorem State.countDraw_draws (s : State) : (s.countDraw).draws = s.draws + 1 := rfl

/-! ### `State.setSegEn` -/

@[simp] theorem State.setSegEn_cfg (s : State) (m : Byte) : (s.setSegEn m).cfg = s.cfg := rfl
@[simp] theorem State.setSegEn_regs (s : State) (m : Byte) : (s.setSegEn m).regs = { s.regs with segEn := m } := rfl
@[simp] theorem State.setSegEn_time (s : State) (m : Byte) : (s.setSegEn m).time = s.time := rfl
@[simp] theorem State.setSegEn_timerOk (s : State) (m : Byte) : (s.setSegEn m).timerOk = s.timerOk := rfl
@[simp] theorem State.setSegEn_rxq (s : State) (m : Byte) : (s.setSegEn m).rxq = s.rxq := rfl
@[simp] theorem State.setSegEn_head (s : State) (m : Byte) : (s.setSegEn m).head = s.head := rfl
@[simp] theorem State.setSegEn_answers (s : State) (m : Byte) : (s.setSegEn m).answers = s.answers := rfl
@[simp] theorem State.setSegEn_sent (s : State) (m : Byte) : (s.setSegEn m).sent = s.sent := rfl
@[simp] theorem State.setSegEn_log (s : State) (m : Byte) : (s.setSegEn m).log = s.log := rfl
@[simp] theorem State.setSegEn_ret (s : State) (m : Byte) : (s.setSegEn m).ret = s.ret := rfl
@[simp] theorem State.setSegEn_inputs (s : State) (m : Byte) : (s.setSegEn m).inputs = s.inputs := rfl
@[simp] theorem State.setSegEn_draws (s : State) (m : Byte) : (s.setSegEn m).draws = s.draws := rfl

/-! ### `State.setRecs` -/

@[simp] theorem State.setRecs_cfg (s : State) (m : RecStore) : (s.setRecs m).cfg = s.cfg := rfl
@[simp] theorem State.setRecs_regs (s : State) (m : RecStore) : (s.setRecs m).regs = { s.regs with recs := m } := rfl
@[simp] theorem State.setRecs_time (s : State) (m : RecStore) : (s.setRecs m).time = s.time := rfl
@[simp] theorem State.setRecs_timerOk (s : State) (m : RecStore) : (s.setRecs m).timerOk = s.timerOk := rfl
@[simp] theorem State.setRecs_rxq (s : State) (m : RecStore) : (s.setRecs m).rxq = s.rxq := rfl
@[simp] theorem State.setRecs_head (s : State) (m : RecStore) : (s.setRecs m).head = s.head := rfl
@[simp] theorem State.setRecs_answers (s : State) (m : RecStore) : (s.setRecs m).answers = s.answers := rfl
@[simp] theorem State.setRecs_sent (s : State) (m : RecStore) : (s.setRecs m).sent = s.sent := rfl
@[simp] theorem State.setRecs_log (s : State) (m : RecStore) : (s.setRecs m).log = s.log := rfl
@[simp] theorem State.setRecs_ret (s : State) (m : RecStore) : (s.setRecs m).ret = s.ret := rfl
@[simp] theorem State.setRecs_inputs (s : State) (m : RecStore) : (s.setRecs m).inputs = s.inputs := rfl
@[simp] theorem State.setRecs_draws (s : State) (m : RecStore) : (s.setRecs m).draws = s.draws := rfl

/-! ### `State.setLinks` -/

@[simp] theorem State.setLinks_cfg (s : State) (m : Sparse Link) : (s.setLinks m).cfg = s.cfg := rfl
@[simp] theorem State.setLinks_regs (s : State) (m : Sparse Link) : (s.setLinks m).regs = { s.regs with links := m } := rfl
@[simp] theorem State.setLinks_time (s : State) (m : Sparse Link) : (s.setLinks m).time = s.time := rfl
@[simp] theorem State.setLinks_timerOk (s : State) (m : Sparse Link) : (s.setLinks m).timerOk = s.timerOk := rfl
@[simp] theorem State.setLinks_rxq (s : State) (m : Sparse Link) : (s.setLinks m).rxq = s.rxq := rfl
@[simp] theorem State.setLinks_head (s : State) (m : Sparse Link) : (s.setLinks m).head = s.head := rfl
@[simp] theorem State.setLinks_answers (s : State) (m : Sparse Link) : (s.setLinks m).answers = s.answers := rfl
@[simp] theorem State.setLinks_sent (s : State) (m : Sparse Link) : (s.setLinks m).sent = s.sent := rfl
@[simp] theorem State.setLinks_log (s : State) (m : Sparse Link) : (s.setLinks m).log = s.log := rfl
@[simp] theorem State.setLinks_ret (s : State) (m : Sparse Link) : (s.setLinks m).ret = s.ret := rfl
@[simp] theorem State.setLinks_inputs (s : State) (m : Sparse Link) : (s.setLinks m).inputs = s.inputs := rfl
@[simp] theorem State.setLinks_draws (s : State) (m : Sparse Link) : (s.setLinks m).draws = s.draws := rfl

/-! ### `State.setSeqs` -/

@[simp] theorem State.setSeqs_cfg (s : State) (m : Sparse Byte) : (s.setSeqs m).cfg = s.cfg := rfl
@[simp] theorem State.setSeqs_regs (s : State) (m : Sparse Byte) : (s.setSeqs m).regs = { s.regs with seqs := m } := rfl
@[simp] theorem State.setSeqs_time (s : State) (m : Sparse Byte) : (s.setSeqs m).time = s.time := rfl
@[simp] theorem State.setSeqs_timerOk (s : State) (m : Sparse Byte) : (s.setSeqs m).timerOk = s.timerOk := rfl
@[simp] theorem State.setSeqs_rxq (s : State) (m : Sparse Byte) : (s.setSeqs m).rxq = s.rxq := rfl
@[simp] theorem State.setSeqs_head (s : State) (m : Sparse Byte) : (s.setSeqs m).head = s.head := rfl
@[simp] theorem State.setSeqs_answers (s : State) (m : Sparse Byte) : (s.setSeqs m).answers = s.answers := rfl
@[simp] theorem State.setSeqs_sent (s : State) (m : Sparse Byte) : (s.setSeqs m).sent = s.sent := rfl
@[simp] theorem State.setSeqs_log (s : State) (m : Sparse Byte) : (s.setSeqs m).log = s.log := rfl
@[simp] theorem State.setSeqs_ret (s : State) (m : Sparse Byte) : (s.setSeqs m).ret = s.ret := rfl
@[simp] theorem State.setSeqs_inputs (s : State) (m : Sparse Byte) : (s.setSeqs m).inputs = s.inputs := rfl
@[simp] theorem State.setSeqs_draws (s : State) (m : Sparse Byte) : (s.setSeqs m).draws = s.draws := rfl

/-! ### `State.setXfer` -/

@[simp] theorem State.setXfer_cfg (s : State) (x : Xfer) : (s.setXfer x).cfg = s.cfg := rfl
@[simp] theorem State.setXfer_regs (s : State) (x : Xfer) : (s.setXfer x).regs = { s.regs with xfer := x } := rfl
@[simp] theorem State.setXfer_time (s : State) (x : Xfer) : (s.setXfer x).time = s.time := rfl
@[simp] theorem State.setXfer_timerOk (s : State) (x : Xfer) : (s.setXfer x).timerOk = s.timerOk := rfl
@[simp] theorem State.setXfer_rxq (s : State) (x : Xfer) : (s.setXfer x).rxq = s.rxq := rfl
@[simp] theorem State.setXfer_head (s : State) (x : Xfer) : (s.setXfer x).head = s.head := rfl
@[simp] theorem State.setXfer_answers (s : State) (x : Xfer) : (s.setXfer x).answers = s.answers := rfl
@[simp] theorem State.setXfer_sent (s : State) (x : Xfer) : (s.setXfer x).sent = s.sent := rfl
@[simp] theorem State.setXfer_log (s : State) (x : Xfer) : (s.setXfer x).log = s.log := rfl
@[simp] theorem State.setXfer_ret (s : State) (x : Xfer) : (s.setXfer x).ret = s.ret := rfl
@[simp] theorem State.setXfer_inputs (s : State) (x : Xfer) : (s.setXfer x).inputs = s.inputs := rfl
@[simp] theorem State.setXfer_draws (s : State) (x : Xfer) : (s.setXfer x).draws = s.draws := rfl

/-! ### Registers read by number -/

@[simp] theorem State.record_setTime (s : State) (t : Stamp) (c g : Nat) : (s.setTime t).record c g = s.record c g := rfl
@[simp] theorem State.record_breakTime (s : State) (t : Stamp) (c g : Nat) : (s.breakTime t).record c g = s.record c g := rfl
@[simp] theorem State.record_setRxq (s : State) (q : List Frame) (c g : Nat) : (s.setRxq q).record c g = s.record c g := rfl
@[simp] theorem State.record_setHead (s : State) (h : BusHead) (c g : Nat) : (s.setHead h).record c g = s.record c g := rfl
@[simp] theorem State.record_setAnswers (s : State) (a : List Bool) (c g : Nat) : (s.setAnswers a).record c g = s.record c g := rfl
@[simp] theorem State.record_pushSent (s : State) (x : Sent) (c g : Nat) : (s.pushSent x).record c g = s.record c g := rfl
@[simp] theorem State.record_pushLog (s : State) (e : Event) (c g : Nat) : (s.pushLog e).record c g = s.record c g := rfl
@[simp] theorem State.record_setRet (s : State) (r : Ret) (c g : Nat) : (s.setRet r).record c g = s.record c g := rfl
@[simp] theorem State.record_setInputs (s : State) (l : List Input) (c g : Nat) : (s.setInputs l).record c g = s.record c g := rfl
@[simp] theorem State.record_countDraw (s : State) (c g : Nat) : (s.countDraw).record c g = s.record c g := rfl
@[simp] theorem State.record_setSegEn (s : State) (m : Byte) (c g : Nat) : (s.setSegEn m).record c g = s.record c g := rfl
@[simp] theorem State.record_setLinks (s : State) (m : Sparse Link) (c g : Nat) : (s.setLinks m).record c g = s.record c g := rfl
@[simp] theorem State.record_setSeqs (s : State) (m : Sparse Byte) (c g : Nat) : (s.setSeqs m).record c g = s.record c g := rfl
@[simp] theorem State.record_setXfer (s : State) (x : Xfer) (c g : Nat) : (s.setXfer x).record c g = s.record c g := rfl

@[simp] theorem State.link_setTime (s : State) (t : Stamp) (l : Nat) : (s.setTime t).link l = s.link l := rfl
@[simp] theorem State.link_breakTime (s : State) (t : Stamp) (l : Nat) : (s.breakTime t).link l = s.link l := rfl
@[simp] theorem State.link_setRxq (s : State) (q : List Frame) (l : Nat) : (s.setRxq q).link l = s.link l := rfl
@[simp] theorem State.link_setHead (s : State) (h : BusHead) (l : Nat) : (s.setHead h).link l = s.link l := rfl
@[simp] theorem State.link_setAnswers (s : State) (a : List Bool) (l : Nat) : (s.setAnswers a).link l = s.link l := rfl
@[simp] theorem State.link_pushSent (s : State) (x : Sent) (l : Nat) : (s.pushSent x).link l = s.link l := rfl
@[simp] theorem State.link_pushLog (s : State) (e : Event) (l : Nat) : (s.pushLog e).link l = s.link l := rfl
@[simp] theorem State.link_setRet (s : State) (r : Ret) (l : Nat) : (s.setRet r).link l = s.link l := rfl
@[simp] theorem State.link_setInputs (s : State) (ins : List Input) (l : Nat) : (s.setInputs ins).link l = s.link l := rfl
@[simp] theorem State.link_countDraw (s : State) (l : Nat) : (s.countDraw).link l = s.link l := rfl
@[simp] theorem State.link_setSegEn (s : State) (m : Byte) (l : Nat) : (s.setSegEn m).link l = s.link l := rfl
@[simp] theorem State.link_setRecs (s : State) (m : RecStore) (l : Nat) : (s.setRecs m).link l = s.link l := rfl
@[simp] theorem State.link_setSeqs (s : State) (m : Sparse Byte) (l : Nat) : (s.setSeqs m).link l = s.link l := rfl
@[simp] theorem State.link_setXfer (s : State) (x : Xfer) (l : Nat) : (s.setXfer x).link l = s.link l := rfl

@[simp] theorem State.seqIndex_setTime (s : State) (t : Stamp) (q : Nat) : (s.setTime t).seqIndex q = s.seqIndex q := rfl
@[simp] theorem State.seqIndex_breakTime (s : State) (t : Stamp) (q : Nat) : (s.breakTime t).seqIndex q = s.seqIndex q := rfl
@[simp] theorem State.seqIndex_setRxq (s : State) (qs : List Frame) (q : Nat) : (s.setRxq qs).seqIndex q = s.seqIndex q := rfl
@[simp] theorem State.seqIndex_setHead (s : State) (h : BusHead) (q : Nat) : (s.setHead h).seqIndex q = s.seqIndex q := rfl
@[simp] theorem State.seqIndex_setAnswers (s : State) (a : List Bool) (q : Nat) : (s.setAnswers a).seqIndex q = s.seqIndex q := rfl
@[simp] theorem State.seqIndex_pushSent (s : State) (x : Sent) (q : Nat) : (s.pushSent x).seqIndex q = s.seqIndex q := rfl
@[simp] theorem State.seqIndex_pushLog (s : State) (e : Event) (q : Nat) : (s.pushLog e).seqIndex q = s.seqIndex q := rfl
@[simp] theorem State.seqIndex_setRet (s : State) (r : Ret) (q : Nat) : (s.setRet r).seqIndex q = s.seqIndex q := rfl
@[simp] theorem State.seqIndex_setInputs (s : State) (l : List Input) (q : Nat) : (s.setInputs l).seqIndex q = s.seqIndex q := rfl
@[simp] theorem State.seqIndex_countDraw (s : State) (q : Nat) : (s.countDraw).seqIndex q = s.seqIndex q := rfl
@[simp] theorem State.seqIndex_setSegEn (s : State) (m : Byte) (q : Nat) : (s.setSegEn m).seqIndex q = s.seqIndex q := rfl
@[simp] theorem State.seqIndex_setRecs (s : State) (m : RecStore) (q : Nat) : (s.setRecs m).seqIndex q = s.seqIndex q := rfl
@[simp] theorem State.seqIndex_setLinks (s : State) (m : Sparse Link) (q : Nat) : (s.setLinks m).seqIndex q = s.seqIndex q := rfl
@[simp] theorem State.seqIndex_setXfer (s : State) (x : Xfer) (q : Nat) : (s.setXfer x).seqIndex q = s.seqIndex q := rfl

/-! ### `State.putLink` -/

@[simp] theorem State.putLink_cfg (s : State) (l : Nat) (v : Link) : (s.putLink l v).cfg = s.cfg := rfl
@[simp] theorem State.putLink_time (s : State) (l : Nat) (v : Link) : (s.putLink l v).time = s.time := rfl
@[simp] theorem State.putLink_timerOk (s : State) (l : Nat) (v : Link) : (s.putLink l v).timerOk = s.timerOk := rfl
@[simp] theorem State.putLink_rxq (s : State) (l : Nat) (v : Link) : (s.putLink l v).rxq = s.rxq := rfl
@[simp] theorem State.putLink_head (s : State) (l : Nat) (v : Link) : (s.putLink l v).head = s.head := rfl
@[simp] theorem State.putLink_answers (s : State) (l : Nat) (v : Link) : (s.putLink l v).answers = s.answers := rfl
@[simp] theorem State.putLink_sent (s : State) (l : Nat) (v : Link) : (s.putLink l v).sent = s.sent := rfl
@[simp] theorem State.putLink_log (s : State) (l : Nat) (v : Link) : (s.putLink l v).log = s.log := rfl
@[simp] theorem State.putLink_ret (s : State) (l : Nat) (v : Link) : (s.putLink l v).ret = s.ret := rfl
@[simp] theorem State.putLink_inputs (s : State) (l : Nat) (v : Link) : (s.putLink l v).inputs = s.inputs := rfl
@[simp] theorem State.putLink_draws (s : State) (l : Nat) (v : Link) : (s.putLink l v).draws = s.draws := rfl
@[simp] theorem State.putLink_regs_segEn (s : State) (l : Nat) (v : Link) : (s.putLink l v).regs.segEn = s.regs.segEn := rfl
@[simp] theorem State.putLink_regs_recs (s : State) (l : Nat) (v : Link) : (s.putLink l v).regs.recs = s.regs.recs := rfl
@[simp] theorem State.putLink_regs_seqs (s : State) (l : Nat) (v : Link) : (s.putLink l v).regs.seqs = s.regs.seqs := rfl
@[simp] theorem State.putLink_regs_xfer (s : State) (l : Nat) (v : Link) : (s.putLink l v).regs.xfer = s.regs.xfer := rfl

/-! ### `State.putSeq` -/

@[simp] theorem State.putSeq_cfg (s : State) (q : Nat) (v : Byte) : (s.putSeq q v).cfg = s.cfg := rfl
@[simp] theorem State.putSeq_time (s : State) (q : Nat) (v : Byte) : (s.putSeq q v).time = s.time := rfl
@[simp] theorem State.putSeq_timerOk (s : State) (q : Nat) (v : Byte) : (s.putSeq q v).timerOk = s.timerOk := rfl
@[simp] theorem State.putSeq_rxq (s : State) (q : Nat) (v : Byte) : (s.putSeq q v).rxq = s.rxq := rfl
@[simp] theorem State.putSeq_head (s : State) (q : Nat) (v : Byte) : (s.putSeq q v).head = s.head := rfl
@[simp] theorem State.putSeq_answers (s : State) (q : Nat) (v : Byte) : (s.putSeq q v).answers = s.answers := rfl
@[simp] theorem State.putSeq_sent (s : State) (q : Nat) (v : Byte) : (s.putSeq q v).sent = s.sent := rfl
@[simp] theorem State.putSeq_log (s : State) (q : Nat) (v : Byte) : (s.putSeq q v).log = s.log := rfl
@[simp] theorem State.putSeq_ret (s : State) (q : Nat) (v : Byte) : (s.putSeq q v).ret = s.ret := rfl
@[simp] theorem State.putSeq_inputs (s : State) (q : Nat) (v : Byte) : (s.putSeq q v).inputs = s.inputs := rfl
@[simp] theorem State.putSeq_draws (s : State) (q : Nat) (v : Byte) : (s.putSeq q v).draws = s.draws := rfl
@[simp] theorem State.putSeq_regs_segEn (s : State) (q : Nat) (v : Byte) : (s.putSeq q v).regs.segEn = s.regs.segEn := rfl
@[simp] theorem State.putSeq_regs_recs (s : State) (q : Nat) (v : Byte) : (s.putSeq q v).regs.recs = s.regs.recs := rfl
@[simp] theorem State.putSeq_regs_links (s : State) (q : Nat) (v : Byte) : (s.putSeq q v).regs.links = s.regs.links := rfl
@[simp] theorem State.putSeq_regs_xfer (s : State) (q : Nat) (v : Byte) : (s.putSeq q v).regs.xfer = s.regs.xfer := rfl

/-! ### `State.recWrite` -/

@[simp] theorem State.recWrite_cfg (s : State) (c seg : Nat) (r : Record) : (s.recWrite c seg r).cfg = s.cfg := rfl
@[simp] theorem State.recWrite_time (s : State) (c seg : Nat) (r : Record) : (s.recWrite c seg r).time = s.time := rfl
@[simp] theorem State.recWrite_timerOk (s : State) (c seg : Nat) (r : Record) : (s.recWrite c seg r).timerOk = s.timerOk := rfl
@[simp] theorem State.recWrite_rxq (s : State) (c seg : Nat) (r : Record) : (s.recWrite c seg r).rxq = s.rxq := rfl
@[simp] theorem State.recWrite_head (s : State) (c seg : Nat) (r : Record) : (s.recWrite c seg r).head = s.head := rfl
@[simp] theorem State.recWrite_answers (s : State) (c seg : Nat) (r : Record) : (s.recWrite c seg r).answers = s.answers := rfl
@[simp] theorem State.recWrite_sent (s : State) (c seg : Nat) (r : Record) : (s.recWrite c seg r).sent = s.sent := rfl
@[simp] theorem State.recWrite_log (s : State) (c seg : Nat) (r : Record) : (s.recWrite c seg r).log = s.log := rfl
@[simp] theorem State.recWrite_ret (s : State) (c seg : Nat) (r : Record) : (s.recWrite c seg r).ret = s.ret := rfl
@[simp] theorem State.recWrite_inputs (s : State) (c seg : Nat) (r : Record) : (s.recWrite c seg r).inputs = s.inputs := rfl
@[simp] theorem State.recWrite_draws (s : State) (c seg : Nat) (r : Record) : (s.recWrite c seg r).draws = s.draws := rfl
@[simp] theorem State.recWrite_regs_segEn (s : State) (c seg : Nat) (r : Record) : (s.recWrite c seg r).regs.segEn = s.regs.segEn := rfl
@[simp] theorem State.recWrite_regs_links (s : State) (c seg : Nat) (r : Record) : (s.recWrite c seg r).regs.links = s.regs.links := rfl
@[simp] theorem State.recWrite_regs_seqs (s : State) (c seg : Nat) (r : Record) : (s.recWrite c seg r).regs.seqs = s.regs.seqs := rfl
@[simp] theorem State.recWrite_regs_xfer (s : State) (c seg : Nat) (r : Record) : (s.recWrite c seg r).regs.xfer = s.regs.xfer := rfl

end Sys2Proof.Machine
end

