-- ==== Sys2Proof/Laws/Sparse.lean ====
section
/-!
SUPPORT. The keyed stores: reading after a write, in any store, and the canonical form every write keeps.
-/

namespace Sys2Proof.Machine

variable {α : Type}

@[simp] theorem Sparse.get_nil (d : α) (k : Nat) : Sparse.get d [] k = d := rfl

theorem Sparse.get_drop_same (d : α) (m : Sparse α) (k : Nat) : Sparse.get d (Sparse.drop m k) k = d := by
  induction m with
  | nil => rfl
  | cons c m ih =>
    obtain ⟨a, v⟩ := c
    by_cases h : a = k
    · subst h; simpa [Sparse.drop, List.filter_cons] using ih
    · simpa [Sparse.drop, List.filter_cons, h, Sparse.get] using ih

theorem Sparse.get_drop_other (d : α) (m : Sparse α) {k j : Nat} (h : j ≠ k) :
    Sparse.get d (Sparse.drop m k) j = Sparse.get d m j := by
  induction m with
  | nil => rfl
  | cons c m ih =>
    obtain ⟨a, v⟩ := c
    simp only [Sparse.drop] at ih ⊢
    by_cases hk : a = k
    · subst hk; simp [Sparse.get, ih, Ne.symm h]
    · simp [hk, Sparse.get, ih]

theorem Sparse.get_insert_same (d : α) (m : Sparse α) (k : Nat) (v : α) (h : ∀ c ∈ m, c.1 ≠ k) :
    Sparse.get d (Sparse.insert m k v) k = v := by
  induction m with
  | nil => simp [Sparse.insert, Sparse.get]
  | cons c m ih =>
    obtain ⟨a, w⟩ := c
    have ha : a ≠ k := h (a, w) (by simp)
    by_cases hk : k < a
    · simp [Sparse.insert, hk, Sparse.get]
    · simp [Sparse.insert, hk, Sparse.get, ha, ih fun c hc => h c (by simp [hc])]

theorem Sparse.get_insert_other (d : α) (m : Sparse α) {k j : Nat} (v : α) (h : j ≠ k) :
    Sparse.get d (Sparse.insert m k v) j = Sparse.get d m j := by
  induction m with
  | nil => simp [Sparse.insert, Sparse.get, Ne.symm h]
  | cons c m ih =>
    obtain ⟨a, w⟩ := c
    by_cases hk : k < a
    · simp [Sparse.insert, hk, Sparse.get, Ne.symm h]
    · simp [Sparse.insert, hk, Sparse.get, ih]

theorem Sparse.ne_of_mem_drop (m : Sparse α) (k : Nat) : ∀ c ∈ Sparse.drop m k, c.1 ≠ k := by
  intro c hc
  simpa [Sparse.drop] using (List.mem_filter.mp hc).2

/-- A read after a write to the same number gives the value written, in every store. -/
@[simp] theorem Sparse.get_put_same [DecidableEq α] (d : α) (m : Sparse α) (k : Nat) (v : α) :
    Sparse.get d (Sparse.put d m k v) k = v := by
  unfold Sparse.put
  split
  · rename_i h; rw [h, Sparse.get_drop_same]
  · exact Sparse.get_insert_same d _ k v (Sparse.ne_of_mem_drop m k)

/-- A write leaves every other number alone, in every store. -/
theorem Sparse.get_put_other [DecidableEq α] (d : α) (m : Sparse α) {k j : Nat} (v : α) (h : j ≠ k) :
    Sparse.get d (Sparse.put d m k v) j = Sparse.get d m j := by
  unfold Sparse.put
  split
  · exact Sparse.get_drop_other d m h
  · rw [Sparse.get_insert_other d _ v h, Sparse.get_drop_other d m h]

/-- A read after a write, both cases. -/
theorem Sparse.get_put [DecidableEq α] (d : α) (m : Sparse α) (k j : Nat) (v : α) :
    Sparse.get d (Sparse.put d m k v) j = if j = k then v else Sparse.get d m j := by
  split
  · rename_i h; rw [h, Sparse.get_put_same]
  · rename_i h; exact Sparse.get_put_other d m v h

theorem Sparse.wf_drop {d : α} {m : Sparse α} (h : Sparse.wf d m) (k : Nat) : Sparse.wf d (Sparse.drop m k) :=
  ⟨h.1.filter _, fun c hc => h.2 c (List.mem_of_mem_filter hc)⟩

theorem Sparse.mem_insert {m : Sparse α} {k : Nat} {v : α} {c : Nat × α} :
    c ∈ Sparse.insert m k v ↔ c = (k, v) ∨ c ∈ m := by
  induction m with
  | nil => simp [Sparse.insert]
  | cons b m ih =>
    by_cases hk : k < b.1
    · simp [Sparse.insert, hk]
    · simp [Sparse.insert, hk, ih]; tauto

theorem Sparse.wf_insert {d : α} {m : Sparse α} (h : Sparse.wf d m) {k : Nat} {v : α} (hk : ∀ c ∈ m, c.1 ≠ k)
    (hv : v ≠ d) : Sparse.wf d (Sparse.insert m k v) := by
  refine ⟨?_, fun c hc => ?_⟩
  · induction m with
    | nil => simp [Sparse.insert]
    | cons b m ih =>
      have hb : b.1 ≠ k := hk b (by simp)
      obtain ⟨hbm, hm⟩ := List.pairwise_cons.mp h.1
      by_cases hkb : k < b.1
      · simp only [Sparse.insert, hkb, if_true]
        refine List.pairwise_cons.mpr ⟨fun c hc => ?_, h.1⟩
        rcases List.mem_cons.mp hc with rfl | hc
        · exact hkb
        · exact hkb.trans (hbm c hc)
      · simp only [Sparse.insert, hkb, if_false]
        refine List.pairwise_cons.mpr ⟨fun c hc => ?_, ?_⟩
        · rcases Sparse.mem_insert.mp hc with rfl | hc
          · show b.1 < k; omega
          · exact hbm c hc
        · exact ih ⟨hm, fun c hc => h.2 c (by simp [hc])⟩ fun c hc => hk c (by simp [hc])
  · rcases Sparse.mem_insert.mp hc with rfl | hc
    · exact hv
    · exact h.2 c hc

/-- Every write keeps the canonical form. -/
theorem Sparse.wf_put [DecidableEq α] {d : α} {m : Sparse α} (h : Sparse.wf d m) (k : Nat) (v : α) :
    Sparse.wf d (Sparse.put d m k v) := by
  unfold Sparse.put
  split
  · exact Sparse.wf_drop h k
  · rename_i hv; exact Sparse.wf_insert (Sparse.wf_drop h k) (Sparse.ne_of_mem_drop m k) hv

/-- An entry after a write is the one written or one that was there. -/
theorem Sparse.mem_of_mem_put [DecidableEq α] {d : α} {m : Sparse α} {k : Nat} {v : α} {c : Nat × α}
    (hc : c ∈ Sparse.put d m k v) : c = (k, v) ∨ c ∈ m := by
  unfold Sparse.put at hc
  split at hc
  · exact .inr (List.mem_of_mem_filter hc)
  · rcases Sparse.mem_insert.mp hc with h | h
    · exact .inl h
    · exact .inr (List.mem_of_mem_filter h)

/-- What is read is the default or an entry. -/
theorem Sparse.get_mem (d : α) (m : Sparse α) (k : Nat) : Sparse.get d m k = d ∨ (k, Sparse.get d m k) ∈ m := by
  induction m with
  | nil => exact .inl rfl
  | cons c m ih =>
    obtain ⟨a, v⟩ := c
    by_cases h : a = k
    · subst h; right; simp [Sparse.get]
    · simp only [Sparse.get, h, if_false]
      exact ih.imp id fun h => List.mem_cons_of_mem _ h

/-! ### The record store -/

/-- A read of a record slot after a write of one. -/
theorem RecStore.get_put (m : RecStore) (c g c' g' : Nat) (r : Option Record) :
    RecStore.get (RecStore.put m c g r) c' g' = if c' = c ∧ g' = g then r else RecStore.get m c' g' := by
  unfold RecStore.get RecStore.put
  rw [Sparse.get_put]
  by_cases hc : c' = c
  · subst hc
    simp only [if_true, Sparse.get_put, true_and]
  · simp [hc]

/-- A write of a record slot keeps the canonical form. -/
theorem RecStore.wf_put {m : RecStore} (h : RecStore.wf m) (c g : Nat) (r : Option Record) :
    RecStore.wf (RecStore.put m c g r) := by
  refine ⟨Sparse.wf_put h.1 _ _, fun x hx => ?_⟩
  rcases Sparse.mem_of_mem_put hx with rfl | hx
  · refine Sparse.wf_put ?_ _ _
    rcases Sparse.get_mem ([] : Sparse (Option Record)) m c with h0 | h0
    · rw [h0]; exact ⟨List.Pairwise.nil, by simp⟩
    · exact h.2 _ h0
  · exact h.2 x hx

end Sys2Proof.Machine
end

