-- ==== Sys2Proof/Laws/Memory.lean ====
section
/-!
SUPPORT. The transfer buffer: what XFER_START's write leaves, what one byte's write leaves, and the canonical form
that every operation keeps.
-/

namespace Sys2Proof.Machine

/-- One byte after a write of one byte. -/
theorem Memory.read_write (m : Memory) (a j : Nat) (b : Byte) :
    Memory.read (Memory.write m a b) j = if j = a then b else Memory.read m j :=
  Sparse.get_put _ m a j b

/-- A write of one byte keeps the canonical form. -/
theorem Memory.wf_write {m : Memory} (h : Memory.wf m) (a : Nat) (b : Byte) : Memory.wf (Memory.write m a b) :=
  Sparse.wf_put h a b

theorem Memory.mem_ofBytesAt {bs : List Byte} {a : Nat} {c : Host.Cell} (hc : c ∈ Memory.ofBytesAt a bs) :
    a ≤ c.1 ∧ c.1 < a + bs.length ∧ c.2 ≠ Memory.unlisted := by
  induction bs generalizing a with
  | nil => simp [Memory.ofBytesAt] at hc
  | cons b bs ih =>
    unfold Memory.ofBytesAt at hc
    split at hc
    · obtain ⟨h1, h2, h3⟩ := ih hc
      refine ⟨by omega, ?_, h3⟩
      simp only [List.length_cons]; omega
    · rename_i hb
      rcases List.mem_cons.mp hc with rfl | hc
      · exact ⟨le_rfl, by simp, hb⟩
      · obtain ⟨h1, h2, h3⟩ := ih hc
        refine ⟨by omega, ?_, h3⟩
        simp only [List.length_cons]; omega

/-- The buffer XFER_START writes is canonical. -/
theorem Memory.wf_ofBytes (bs : List Byte) : Memory.wf (Memory.ofBytes bs) := by
  refine ⟨?_, fun c hc => (Memory.mem_ofBytesAt hc).2.2⟩
  unfold Memory.ofBytes
  generalize 0 = a
  induction bs generalizing a with
  | nil => simp [Memory.ofBytesAt]
  | cons b bs ih =>
    unfold Memory.ofBytesAt
    split
    · exact ih (a + 1)
    · refine List.pairwise_cons.mpr ⟨fun c hc => ?_, ih (a + 1)⟩
      exact (Memory.mem_ofBytesAt hc).1

/-- The buffer XFER_START writes lists no offset past its length. -/
theorem Memory.lt_of_mem_ofBytes {bs : List Byte} {c : Host.Cell} (hc : c ∈ Memory.ofBytes bs) :
    c.1 < bs.length := by
  have h := (Memory.mem_ofBytesAt hc).2.1
  omega

theorem Memory.read_ofBytesAt (bs : List Byte) (a j : Nat) :
    Memory.read (Memory.ofBytesAt a bs) j = if a ≤ j then bs.getD (j - a) 0 else 0 := by
  induction bs generalizing a with
  | nil => simp [Memory.ofBytesAt, Memory.read, Memory.unlisted]
  | cons b bs ih =>
    have h := ih (a + 1)
    unfold Memory.read at h ⊢
    unfold Memory.ofBytesAt
    split
    · rename_i hb
      rw [h]
      by_cases hj : a = j
      · subst hj; simp [hb, Memory.unlisted]
      · by_cases hlt : a ≤ j
        · have : j - a = (j - (a + 1)) + 1 := by omega
          rw [if_pos (by omega), if_pos hlt, this, List.getD_cons_succ]
        · rw [if_neg (by omega), if_neg hlt]
    · simp only [Sparse.get]
      by_cases hj : a = j
      · subst hj; simp
      · rw [if_neg hj, h]
        by_cases hlt : a ≤ j
        · have : j - a = (j - (a + 1)) + 1 := by omega
          rw [if_pos (by omega), if_pos hlt, this, List.getD_cons_succ]
        · rw [if_neg (by omega), if_neg hlt]

/-- Every byte of the buffer XFER_START writes: its own, or zero past the end. -/
theorem Memory.read_ofBytes (bs : List Byte) (j : Nat) : Memory.read (Memory.ofBytes bs) j = bs.getD j 0 := by
  simpa [Memory.ofBytes] using Memory.read_ofBytesAt bs 0 j

@[simp] theorem Memory.length_readBytes (m : Memory) (a n : Nat) : (m.readBytes a n).length = n := by
  induction n generalizing a with
  | zero => rfl
  | succ n ih => simp [Memory.readBytes, ih]

@[simp] theorem Memory.getElem_readBytes (m : Memory) (a n i : Nat) (h : i < (m.readBytes a n).length) :
    (m.readBytes a n)[i] = Memory.read m (a + i) := by
  induction n generalizing a i with
  | zero => simp at h
  | succ n ih =>
    cases i with
    | zero => rfl
    | succ i =>
      simp only [Memory.readBytes, List.getElem_cons_succ]
      rw [ih (a + 1) i (by simpa [Memory.readBytes] using h)]
      congr 1; omega

/-- The canonical form holds after reset. -/
theorem Memory.wf_reset : Memory.wf State.reset.regs.xfer.buf := by decide

end Sys2Proof.Machine
end

