-- ==== Sys2Proof/Laws/Ops.lean ====
section
/-!
SUPPORT. One lemma for each shared operation: what it does, and what it leaves.
-/

namespace Sys2Proof.Machine

/-! ### Writes of one register -/

theorem State.link_putLink (s : State) (l j : Nat) (v : Link) :
    (s.putLink l v).link j = if j = l then v else s.link j := Sparse.get_put _ _ l j v

theorem State.seqIndex_putSeq (s : State) (q j : Nat) (v : Byte) :
    (s.putSeq q v).seqIndex j = if j = q then v else s.seqIndex j := Sparse.get_put _ _ q j v

theorem State.record_recWrite (s : State) (c g c' g' : Nat) (r : Record) :
    (s.recWrite c g r).record c' g' = if c' = c ∧ g' = g then some r else s.record c' g' :=
  RecStore.get_put _ c g c' g' _

/-- A link's write is a write of the link registers. -/
theorem State.putLink_eq (s : State) (l : Nat) (v : Link) :
    s.putLink l v = s.setLinks (Sparse.put Link.down s.regs.links l v) := rfl

/-- A cursor's write is a write of the cursor indices. -/
theorem State.putSeq_eq (s : State) (q : Nat) (v : Byte) :
    s.putSeq q v = s.setSeqs (Sparse.put 0 s.regs.seqs q v) := rfl

/-- A record's write is a write of the record store. -/
theorem State.recWrite_eq (s : State) (c g : Nat) (r : Record) :
    s.recWrite c g r = s.setRecs (RecStore.put s.regs.recs c g (some r)) := rfl

/-- What the reset of a link's cursor does: at most one index is written, with 0. -/
theorem State.resetBoundCursor_cases (s : State) (l : Nat) :
    (∃ q, s.cfg.seqOfLink.getD l none = some q ∧ s.resetBoundCursor l = s.putSeq q 0)
    ∨ (s.cfg.seqOfLink.getD l none = none ∧ s.resetBoundCursor l = s) := by
  unfold State.resetBoundCursor
  split
  · rename_i q h; exact .inl ⟨q, h, rfl⟩
  · rename_i h; exact .inr ⟨h, rfl⟩

/-! ### Outcomes -/

/-- Raising an outcome writes LOG and the response, nothing else (R318). -/
theorem State.raise_eq (s : State) (e : Event) :
    s.raise e = { s with log := s.log ++ [e], ret := .raised e } := rfl

@[simp] theorem answer_eq (s : State) (r : Ret) : answer s r = .next { s with ret := r } := rfl

@[simp] theorem raised_eq (s : State) (e : Event) : raised s e = .next (s.raise e) := rfl

/-! ### Elapsed time and Send -/

/-- Evaluating `Elapsed` changes at most the free-value counter. -/
theorem State.measured_cases (s : State) (last : Stamp) :
    s.measured last = s ∨ s.measured last = s.countDraw := by
  unfold State.measured
  split
  · exact .inr rfl
  · exact .inl rfl

/-- On a sample with a stated result `Elapsed` is the rule's value and draws nothing (R192). -/
theorem State.elapsed_of_not_torn {s : State} {last : Stamp} (h : s.torn last = false) :
    s.elapsed last = elapsedSat s.cfg.period last s.time ∧ s.measured last = s := by
  simp [State.elapsed, State.measured, h]

/-- On a torn sample `Elapsed` is a free value (R206). -/
theorem State.elapsed_of_torn {s : State} {last : Stamp} (h : s.torn last = true) :
    s.elapsed last = Config.freeElapsed s.draws ∧ s.measured last = s.countDraw := by
  simp [State.elapsed, State.measured, h]

/-- `Send` hands over exactly one frame, with its answer, and touches nothing else but the answers and the
free-value counter (R330). -/
theorem State.afterSend_cases (s : State) (f : Frame) :
    (∃ a rest, s.answers = a :: rest ∧ s.sendOk = a
      ∧ s.afterSend f = { s with answers := rest, sent := s.sent ++ [⟨f, s.sendOk⟩] })
    ∨ (s.answers = [] ∧ s.sendOk = Config.freeSend s.draws
      ∧ s.afterSend f = { s with draws := s.draws + 1, sent := s.sent ++ [⟨f, s.sendOk⟩] }) := by
  unfold State.afterSend State.sendOk
  cases h : s.answers with
  | nil => exact .inr ⟨rfl, rfl, by simp [State.pushSent, State.countDraw, h]⟩
  | cons a rest => exact .inl ⟨a, rest, rfl, rfl, rfl⟩

@[simp] theorem State.afterSend_regs (s : State) (f : Frame) : (s.afterSend f).regs = s.regs := by
  rcases s.afterSend_cases f with ⟨a, r, -, -, h⟩ | ⟨-, -, h⟩ <;> rw [h]

@[simp] theorem State.afterSend_cfg (s : State) (f : Frame) : (s.afterSend f).cfg = s.cfg := by
  rcases s.afterSend_cases f with ⟨a, r, -, -, h⟩ | ⟨-, -, h⟩ <;> rw [h]

@[simp] theorem State.afterSend_time (s : State) (f : Frame) : (s.afterSend f).time = s.time := by
  rcases s.afterSend_cases f with ⟨a, r, -, -, h⟩ | ⟨-, -, h⟩ <;> rw [h]

@[simp] theorem State.afterSend_timerOk (s : State) (f : Frame) : (s.afterSend f).timerOk = s.timerOk := by
  rcases s.afterSend_cases f with ⟨a, r, -, -, h⟩ | ⟨-, -, h⟩ <;> rw [h]

@[simp] theorem State.afterSend_rxq (s : State) (f : Frame) : (s.afterSend f).rxq = s.rxq := by
  rcases s.afterSend_cases f with ⟨a, r, -, -, h⟩ | ⟨-, -, h⟩ <;> rw [h]

@[simp] theorem State.afterSend_head (s : State) (f : Frame) : (s.afterSend f).head = s.head := by
  rcases s.afterSend_cases f with ⟨a, r, -, -, h⟩ | ⟨-, -, h⟩ <;> rw [h]

@[simp] theorem State.afterSend_log (s : State) (f : Frame) : (s.afterSend f).log = s.log := by
  rcases s.afterSend_cases f with ⟨a, r, -, -, h⟩ | ⟨-, -, h⟩ <;> rw [h]

@[simp] theorem State.afterSend_ret (s : State) (f : Frame) : (s.afterSend f).ret = s.ret := by
  rcases s.afterSend_cases f with ⟨a, r, -, -, h⟩ | ⟨-, -, h⟩ <;> rw [h]

@[simp] theorem State.afterSend_inputs (s : State) (f : Frame) : (s.afterSend f).inputs = s.inputs := by
  rcases s.afterSend_cases f with ⟨a, r, -, -, h⟩ | ⟨-, -, h⟩ <;> rw [h]

@[simp] theorem State.afterSend_sent (s : State) (f : Frame) :
    (s.afterSend f).sent = s.sent ++ [⟨f, s.sendOk⟩] := by
  rcases s.afterSend_cases f with ⟨a, r, -, -, h⟩ | ⟨-, -, h⟩ <;> rw [h]

/-- Each `Send` takes the answer laid down first and uses up exactly that one (log entry 6). -/
theorem State.afterSend_answers (s : State) (f : Frame) :
    (∀ a r, s.answers = a :: r → s.sendOk = a ∧ (s.afterSend f).answers = r ∧ (s.afterSend f).draws = s.draws)
    ∧ (s.answers = [] → (s.afterSend f).answers = [] ∧ (s.afterSend f).draws = s.draws + 1) := by
  rcases s.afterSend_cases f with ⟨a, r, h1, h2, h⟩ | ⟨h1, -, h⟩ <;> rw [h]
  · refine ⟨fun a' r' h3 => ?_, fun h3 => by rw [h1] at h3; cases h3⟩
    rw [h1] at h3; cases h3
    exact ⟨h2, rfl, rfl⟩
  · exact ⟨fun a' r' h3 => (by rw [h1] at h3; cases h3), fun _ => ⟨h1, rfl⟩⟩

/-- Why ENCODE of a table is refused (R64, R144). -/
theorem encodeRefusal_cases (t : FieldTable) :
    (hasFieldOutsideWord t = true ∧ encodeRefusal t = some .fieldOutsideWord)
    ∨ (hasFieldOutsideWord t = false ∧ hasZeroFactor t = true ∧ encodeRefusal t = some .zeroFactor)
    ∨ (hasFieldOutsideWord t = false ∧ hasZeroFactor t = false ∧ encodeRefusal t = none) := by
  unfold encodeRefusal
  cases h : hasFieldOutsideWord t <;> cases h2 : hasZeroFactor t <;> simp

/-- The peer's frame is at the tail of RXQ, where it is a frame (R22, R35). -/
theorem State.deliver_cases (s : State) (f : Frame) :
    (f.wf = true ∧ s.deliver f = { s with rxq := s.rxq ++ [f] }) ∨ (f.wf = false ∧ s.deliver f = s) := by
  unfold State.deliver
  cases h : f.wf with
  | true => exact .inl ⟨rfl, rfl⟩
  | false => exact .inr ⟨rfl, rfl⟩

/-! ### The units -/

/-- `LinkRefresh` writes one link and may log LinkUp (R196). -/
theorem State.linkRefresh_cases (s : State) (l : Nat) :
    ((s.link l).connected = true ∧ s.linkRefresh l = s.putLink l ⟨s.time, true⟩)
    ∨ ((s.link l).connected = false ∧ s.linkRefresh l = (s.putLink l ⟨s.time, true⟩).pushLog (.linkUp l)) := by
  unfold State.linkRefresh
  cases h : (s.link l).connected with
  | true => exact .inl ⟨rfl, rfl⟩
  | false => exact .inr ⟨rfl, rfl⟩

/-- `AttemptFailed` either sends the chunk once more or ends the session with FAILED (R252). -/
theorem State.attemptFailed_cases (s : State) :
    (s.regs.xfer.att + 1 ≤ s.regs.xfer.maxr.toNat ∧ s.attemptFailed =
      s.setXfer { s.regs.xfer with att := s.regs.xfer.att + 1, rtot := s.regs.xfer.rtot + 1, st := .send })
    ∨ (s.regs.xfer.maxr.toNat < s.regs.xfer.att + 1 ∧ s.attemptFailed =
      (s.setXfer { s.regs.xfer with
        att := s.regs.xfer.att + 1, result := .failed s.regs.xfer.cur s.regs.xfer.maxr, st := .idle,
        abort := false }).pushLog (.xferDone (.failed s.regs.xfer.cur s.regs.xfer.maxr))) := by
  unfold State.attemptFailed
  split
  · rename_i h; exact .inl ⟨h, rfl⟩
  · rename_i h; exact .inr ⟨by omega, rfl⟩

/-- What `XferResponse` does with a frame (R254): an ACK of the current chunk advances, a NACK fails the attempt,
anything else is logged and the wait goes on. -/
theorem State.xferResponse_cases (s : State) (f : Frame) :
    (∃ a, ackUnpack f.data = some a ∧ a.status = Config.stAck ∧ a.echo.toNat = s.regs.xfer.cur
      ∧ s.xferResponse f = s.chunkAcked a.cksum)
    ∨ (∃ a, ackUnpack f.data = some a ∧ a.status = Config.stNack
      ∧ s.xferResponse f = (s.pushLog (.chunkNacked s.regs.xfer.cur a.echo)).attemptFailed)
    ∨ s.xferResponse f = s.pushLog (.badResponse f.id) := by
  unfold State.xferResponse
  split
  · exact .inr (.inr rfl)
  · rename_i a ha
    split
    · rename_i h; exact .inl ⟨a, ha, h.1, h.2, rfl⟩
    · split
      · rename_i h; exact .inr (.inl ⟨a, ha, h, rfl⟩)
      · exact .inr (.inr rfl)

/-- What telemetry dispatch does with a frame (R170). -/
theorem State.dispatchTelemetry_cases (s : State) (f : Frame) :
    s.dispatchTelemetry f = s.pushLog (.unknownFrame f.id f.ext)
    ∨ (∃ c seg k, classifyId s.cfg s.regs.segEn f.id.toNat f.ext = some (c, seg) ∧ s.cfg.classes[c]? = some k
      ∧ s.dispatchTelemetry f = s.acceptRecord c seg k f.data) := by
  unfold State.dispatchTelemetry
  split
  · exact .inl rfl
  · rename_i c seg h
    split
    · rename_i k hk; exact .inr ⟨c, seg, k, h, hk, rfl⟩
    · exact .inl rfl

end Sys2Proof.Machine
end

