-- ==== Sys2Proof/Laws/Codec.lean ====
section
/-!
SUPPORT. The codec's own definitions equal the formulas of the rules as `Safety` writes them, and what ENCODE's word
holds: the lemmas to cite instead of unfolding `extract`, `roundHaz`, `satW`, `encodeWord`, `violationsFrom`, `ackUnpack`.
-/

namespace Sys2Proof.Machine

/-! ### The definitions are the formulas -/

/-- The two readings of R16's `round_haz` agree. -/
theorem roundHaz_eq_roundAway (q : Q) : roundHaz q = roundAway q := by
  unfold roundHaz roundAway
  by_cases h : 0 ≤ q
  · rw [if_pos h, if_neg (not_lt.mpr h), abs_of_nonneg h, one_mul]; rfl
  · rw [if_neg h, if_pos (not_le.mp h), abs_of_neg (not_le.mp h)]; simp; rfl

/-- The two readings of R16's `sat_w` agree. -/
theorem satW_eq_saturate (w : Nat) (n : Int) : satW w n = saturate w n := by
  have : (1 : Int) ≤ 2 ^ w := by exact_mod_cast Nat.one_le_two_pow
  have h2 : ((2 ^ w - 1 : Nat) : Int) = 2 ^ w - 1 := by
    rw [Nat.cast_sub Nat.one_le_two_pow]; norm_num
  unfold satW saturate
  split
  · omega
  · split
    · omega
    · omega

/-- The clamp before scaling (R138). -/
theorem clampPhys_eq_clampedOperand (m e p) : clampPhys m e p = clampedOperand m e p := by
  cases m <;> simp [clampPhys, clampedOperand]

/-- The rounded quotient (R138). -/
theorem encodeQuotient_eq_quotientOf (m e p) : encodeQuotient m e p = quotientOf m e p := by
  simp [encodeQuotient, rawOf, quotientOf, roundHaz_eq_roundAway, clampPhys_eq_clampedOperand]

/-- The raw value ENCODE puts into a field (R138). -/
theorem encodeRaw_eq_saturate (m e p) : encodeRaw m e p = saturate e.bitWidth (quotientOf m e p) := by
  simp [encodeRaw, satW_eq_saturate, encodeQuotient_eq_quotientOf]

/-- A little-endian number is the sum of R15. -/
theorem leNat_take_eq_sum (p : List Byte) (n : Nat) : leNat (p.take n) = ∑ i ∈ Finset.range n, (p.getD i 0).toNat * 2
    ^ (8 * i) := by
  induction n generalizing p with
  | zero => simp [leNat]
  | succ n ih =>
    rw [Finset.sum_range_succ']
    cases p with
    | nil => simp [leNat]
    | cons b p =>
      simp only [List.take_succ_cons, leNat, ih, List.getD_cons_succ, List.getD_cons_zero]
      rw [Finset.mul_sum, add_comm]
      congr 1
      · apply Finset.sum_congr rfl; intro i _; rw [show 8 * (i + 1) = 8 * i + 8 by ring, pow_add]; ring
      · simp

/-- The payload word is the sum of R15. -/
theorem payloadWord_eq_payloadSum (p : List Byte) : payloadWord p = payloadSum p := leNat_take_eq_sum p 8

/-- A field by division (R94). -/
theorem extract_eq_div_mod (word o w : Nat) : extract word o w = word / 2 ^ o % 2 ^ w := by
  simp [extract, Nat.shiftRight_eq_div_pow, Nat.and_two_pow_sub_one_eq_mod]

/-- DECODE's record (R134). -/
theorem decodeRecord_eq_recordOf (t : FieldTable) (p : List Byte) : decodeRecord t p = recordOf t (payloadSum p) := by
  simp only [decodeRecord, decodeWord, recordOf, payloadWord_eq_payloadSum]
  apply List.map_congr_left; intro e _
  simp [decodeField, extract_eq_div_mod, physOf, fieldRaw, fieldPhys]

/-- The bytes of a number by division (R15). -/
theorem leBytes_eq_map (n v : Nat) : leBytes n v = (List.range n).map fun i => BitVec.ofNat 8 (v / 2 ^ (8 * i)) := by
  induction n generalizing v with
  | zero => rfl
  | succ n ih =>
    rw [List.range_succ_eq_map, List.map_cons, List.map_map, leBytes, ih]
    congr 1
    · simp
    · apply List.map_congr_left; intro i _
      simp only [Function.comp]
      rw [show 8 * (i + 1) = 8 + 8 * i by ring, pow_add, ← Nat.div_div_eq_div_mul]
      norm_num

/-- ENCODE's word as one OR over the fields (R138). -/
theorem encodeWord_foldl (m : ClampMode) (t : FieldTable) (pr : PhysRecord) (a : Nat) :
    (t.zip pr).foldl (fun word x => insertField word x.1.bitOffset (encodeRaw m x.1 x.2)) a
    = (List.zipWith (fun e p => saturate e.bitWidth (quotientOf m e p) <<< e.bitOffset) t pr).foldl (· ||| ·) a := by
  induction t generalizing pr a with
  | nil => simp
  | cons e t ih =>
    cases pr with
    | nil => simp
    | cons p pr =>
      simp only [List.zip_cons_cons, List.foldl_cons, List.zipWith_cons_cons]
      rw [ih]
      simp [insertField, encodeRaw_eq_saturate]

/-! ### Rounding and saturation -/

/-- A saturated value fits its field. -/
theorem saturate_lt (w : Nat) (n : Int) : saturate w n < 2 ^ w := by
  unfold saturate
  have : (1 : Int) ≤ 2 ^ w := by exact_mod_cast Nat.one_le_two_pow
  have h2 : ((2 ^ w : Nat) : Int) = 2 ^ w := by norm_num
  omega

/-- Saturation leaves a value of the field alone. -/
theorem saturate_of_lt (w r : Nat) (h : r < 2 ^ w) : saturate w (r : Int) = r := by
  unfold saturate
  have h2 : ((2 ^ w : Nat) : Int) = 2 ^ w := by norm_num
  omega

/-- Saturation is monotone. -/
theorem saturate_mono (w : Nat) {a b : Int} (h : a ≤ b) : saturate w a ≤ saturate w b := by
  unfold saturate; omega

/-- Rounding leaves an integer alone. -/
theorem roundAway_int (n : Int) : roundAway (n : Q) = n := by
  unfold roundAway
  split
  · rename_i h
    rw [abs_of_neg h]
    have : ⌊(-(n:Q)) + 1/2⌋ = -n := by rw [Int.floor_eq_iff]; push_cast; constructor <;> linarith
    rw [this]; ring
  · rename_i h
    rw [abs_of_nonneg (not_lt.mp h)]
    have : ⌊((n:Q)) + 1/2⌋ = n := by rw [Int.floor_eq_iff]; constructor <;> linarith
    rw [this]; ring

/-- Rounding is monotone. -/
theorem roundAway_mono {a b : Q} (h : a ≤ b) : roundAway a ≤ roundAway b := by
  unfold roundAway
  split <;> split
  · rename_i h1 h2
    rw [abs_of_neg h1, abs_of_neg h2]
    have : ⌊-b + 1/2⌋ ≤ ⌊-a + 1/2⌋ := Int.floor_le_floor (by linarith)
    linarith
  · rename_i h1 h2
    have : 0 ≤ ⌊|a| + 1/2⌋ := Int.floor_nonneg.mpr (by positivity)
    have : 0 ≤ ⌊|b| + 1/2⌋ := Int.floor_nonneg.mpr (by positivity)
    linarith
  · rename_i h1 h2; exfalso; linarith
  · rename_i h1 h2
    rw [abs_of_nonneg (not_lt.mp h1), abs_of_nonneg (not_lt.mp h2)]
    have : ⌊a + 1/2⌋ ≤ ⌊b + 1/2⌋ := Int.floor_le_floor (by linarith)
    linarith

/-- Rounding moves by at most a half. -/
theorem abs_roundAway_sub_le (q : Q) : |(roundAway q : Q) - q| ≤ 1 / 2 := by
  unfold roundAway
  split
  · rename_i h
    rw [abs_of_neg h]
    have h1 := Int.floor_le (-q + 1/2)
    have h2 := Int.lt_floor_add_one (-q + 1/2)
    push_cast
    rw [abs_le]; constructor <;> linarith
  · rename_i h
    rw [abs_of_nonneg (not_lt.mp h)]
    have h1 := Int.floor_le (q + 1/2)
    have h2 := Int.lt_floor_add_one (q + 1/2)
    push_cast
    rw [abs_le]; constructor <;> linarith

/-- Clamping is monotone. -/
theorem clampedOperand_mono (m e) {p q : Q} (h : p ≤ q) : clampedOperand m e p ≤ clampedOperand m e q := by
  unfold clampedOperand; split
  · exact min_le_min_right _ (max_le_max_right _ h)
  · exact h

/-- A grid value, in range where the mode clamps, has its own raw value (R142 b). -/
theorem saturate_quotientOf_grid {m : ClampMode} {e : FieldEntry} {r : Nat} (hf : e.factor ≠ 0) (hr : r < 2 ^
    e.bitWidth) (p : Q) (hp : p = (r : Q) * e.factor + e.offset)
    (h : m = .rawOnly ∨ inDeclared e p) : saturate e.bitWidth (quotientOf m e p) = r := by
  have hc : clampedOperand m e p = p := by
    rcases h with rfl | h
    · simp [clampedOperand]
    · unfold clampedOperand; split
      · rw [max_eq_left h.1, min_eq_left h.2]
      · rfl
  have : (p - e.offset) / e.factor = ((r : Int) : Q) := by rw [hp]; field_simp; push_cast; ring
  rw [quotientOf, hc, this, roundAway_int, saturate_of_lt _ _ hr]

/-! ### The word of separate fields -/

/-- A bit of a folded OR. -/
theorem testBit_foldl_or (l : List Nat) (a j : Nat) :
    (l.foldl (· ||| ·) a).testBit j = (a.testBit j || l.any (·.testBit j)) := by
  induction l generalizing a with
  | nil => simp
  | cons x l ih => simp [ih, Bool.or_assoc]

/-- The word that holds each raw value at its field's place. -/
def fieldsWord (t : FieldTable) (rs : List Nat) : Nat :=
  (List.zipWith (fun e r => r <<< e.bitOffset) t rs).foldl (· ||| ·) 0

/-- A bit of that word belongs to some field. -/
theorem testBit_fieldsWord (t : FieldTable) (rs : List Nat) (j : Nat) :
    (fieldsWord t rs).testBit j = true ↔ ∃ i : Nat, ∃ e r, t[i]? = some e ∧ rs[i]? = some r ∧ e.bitOffset ≤ j ∧
        r.testBit (j - e.bitOffset) = true := by
  unfold fieldsWord
  rw [testBit_foldl_or]
  simp only [Nat.zero_testBit, Bool.false_or, List.any_eq_true]
  constructor
  · rintro ⟨x, hx, hb⟩
    obtain ⟨i, hi⟩ := List.mem_iff_getElem?.mp hx
    rw [List.getElem?_zipWith] at hi
    cases he : t[i]? <;> cases hr : rs[i]? <;> simp [he, hr] at hi
    rename_i e r
    subst hi
    simp [Nat.testBit_shiftLeft] at hb
    exact ⟨i, e, r, he, hr, hb.1, hb.2⟩
  · rintro ⟨i, e, r, he, hr, h1, h2⟩
    refine ⟨r <<< e.bitOffset, ?_, by simp [Nat.testBit_shiftLeft, h1, h2]⟩
    apply List.mem_iff_getElem?.mpr
    exact ⟨i, by rw [List.getElem?_zipWith, he, hr]⟩

/-- Each field of that word reads its raw value, when fields share no bit and every value fits. -/
theorem fieldRaw_fieldsWord (t : FieldTable) (rs : List Nat) (hap : t.Pairwise (fun e f => e.apart f))
    (hlt : ∀ (i : Nat) e r, t[i]? = some e → rs[i]? = some r → r < 2 ^ e.bitWidth)
    (i : Nat) (e) (r) (he : t[i]? = some e) (hr : rs[i]? = some r) : fieldRaw (fieldsWord t rs) e = r := by
  apply Nat.eq_of_testBit_eq
  intro j
  unfold fieldRaw
  rw [Nat.testBit_mod_two_pow, Nat.testBit_div_two_pow]
  by_cases hj : j < e.bitWidth
  · simp only [hj, decide_true, Bool.true_and]
    rw [Bool.eq_iff_iff, testBit_fieldsWord]
    constructor
    · rintro ⟨i', e', r', he', hr', h1, h2⟩
      by_cases hii : i' = i
      · subst hii; rw [he] at he'; rw [hr] at hr'; cases he'; cases hr'
        simpa using h2
      · exfalso
        have hw : j + e.bitOffset - e'.bitOffset < e'.bitWidth := by
          by_contra hc
          have := hlt _ _ _ he' hr'
          have h3 : r' < 2 ^ (j + e.bitOffset - e'.bitOffset) := lt_of_lt_of_le this (Nat.pow_le_pow_right (by omega) (by omega))
          rw [Nat.testBit_lt_two_pow h3] at h2; cases h2
        have hpair := List.pairwise_iff_getElem.mp hap
        obtain ⟨b1, rfl⟩ := List.getElem?_eq_some_iff.mp he
        obtain ⟨b2, rfl⟩ := List.getElem?_eq_some_iff.mp he'
        rcases Nat.lt_or_gt_of_ne hii with hl | hl
        · have := hpair i' i b2 b1 hl; unfold FieldEntry.apart at this; omega
        · have := hpair i i' b1 b2 hl; unfold FieldEntry.apart at this; omega
    · intro h
      exact ⟨i, e, r, he, hr, by omega, by simpa using h⟩
  · simp only [hj, decide_false, Bool.false_and]
    have := hlt _ _ _ he hr
    have h3 : r < 2 ^ j := lt_of_lt_of_le this (Nat.pow_le_pow_right (by omega) (by omega))
    rw [Nat.testBit_lt_two_pow h3]

/-- A set bit of that word lies in some field. -/
theorem covered_of_testBit_fieldsWord (t : FieldTable) (rs : List Nat)
    (hlt : ∀ (i : Nat) e r, t[i]? = some e → rs[i]? = some r → r < 2 ^ e.bitWidth) (j : Nat)
    (h : (fieldsWord t rs).testBit j = true) : ∃ e ∈ t, e.bitOffset ≤ j ∧ j < e.bitOffset + e.bitWidth := by
  obtain ⟨i', e', r', he', hr', h1, h2⟩ := (testBit_fieldsWord _ _ _).mp h
  refine ⟨e', List.mem_iff_getElem?.mpr ⟨_, he'⟩, h1, ?_⟩
  by_contra hc
  have := hlt _ _ _ he' hr'
  have h3 : r' < 2 ^ (j - e'.bitOffset) := lt_of_lt_of_le this (Nat.pow_le_pow_right (by omega) (by omega))
  rw [Nat.testBit_lt_two_pow h3] at h2; cases h2

/-- That word has 64 bits. -/
theorem fieldsWord_lt (t : FieldTable) (rs : List Nat) (hwf : ∀ e ∈ t, e.WF)
    (hlt : ∀ (i : Nat) e r, t[i]? = some e → rs[i]? = some r → r < 2 ^ e.bitWidth) : fieldsWord t rs < 2 ^ 64 := by
  apply Nat.lt_pow_two_of_testBit
  intro j hj
  by_contra hc
  simp only [Bool.not_eq_false] at hc
  obtain ⟨e, he, h1, h2⟩ := covered_of_testBit_fieldsWord t rs hlt j hc
  have := (hwf e he).2.2.1
  omega

/-- A bit of the mask of a table (R142). -/
theorem testBit_foldl_fieldMask (t : FieldTable) (a j : Nat) : (t.foldl (fun m e => m ||| fieldMask e) a).testBit j =
    (a.testBit j || t.any (fun e => decide (e.bitOffset ≤ j) && decide (j - e.bitOffset < e.bitWidth))) := by
  induction t generalizing a with
  | nil => simp
  | cons e t ih =>
    rw [List.foldl_cons, ih, List.any_cons, Nat.testBit_or, fieldMask, Nat.testBit_shiftLeft,
        Nat.testBit_two_pow_sub_one, Bool.or_assoc]

/-! ### What ENCODE returns -/

/-- The raw values ENCODE makes of a physical record. -/
def rawsOf (m : ClampMode) (t : FieldTable) (pr : PhysRecord) : List Nat :=
  List.zipWith (fun e p => saturate e.bitWidth (quotientOf m e p)) t pr

theorem rawsOf_getElem? {m t pr} {i : Nat} {e p} (he : t[i]? = some e) (hp : pr[i]? = some p) :
    (rawsOf m t pr)[i]? = some (saturate e.bitWidth (quotientOf m e p)) := by
  simp [rawsOf, List.getElem?_zipWith, he, hp]

/-- Each fits its field. -/
theorem rawsOf_lt {m} {t : FieldTable} {pr : PhysRecord} (i : Nat) (e r) (he : t[i]? = some e) (hr : (rawsOf m t
    pr)[i]? = some r) : r < 2 ^ e.bitWidth := by
  cases hp : pr[i]? with
  | none => simp [rawsOf, List.getElem?_zipWith, he, hp] at hr
  | some p => rw [rawsOf_getElem? he hp] at hr; cases hr; exact saturate_lt _ _

/-- ENCODE's word is the word of those raw values. -/
theorem encodeWord_eq_fieldsWord (m t pr) : encodeWord m t pr = fieldsWord t (rawsOf m t pr) := by
  unfold encodeWord fieldsWord
  rw [encodeWord_foldl]
  congr 1
  apply List.ext_getElem?
  intro i
  simp only [List.getElem?_zipWith, rawsOf]
  cases t[i]? <;> cases pr[i]? <;> simp

/-- The payload word of the eight bytes of a word is the word (R15). -/
theorem payloadSum_bytes8 (w : Nat) (h : w < 2 ^ 64) : payloadSum (bytes8 w) = w := by
  rw [← payloadWord_eq_payloadSum, payloadWord, bytes8]
  rw [List.take_of_length_le (by simp [Config.payloadBytes]), leNat_leBytes]
  exact Nat.mod_eq_of_lt h

theorem length_bytes8 (w) : (bytes8 w).length = 8 := by simp [bytes8, Config.payloadBytes]

/-! ### Refused tables (R64, R144) -/

/-- The machine's test of a table is R64's. -/
theorem hasFieldOutsideWord_eq_false (t : FieldTable) : hasFieldOutsideWord t = false ↔ ∀ e ∈ t, InWord e := by
  simp only [hasFieldOutsideWord, List.any_eq_false, Bool.or_eq_true, decide_eq_true_eq, not_or, InWord]
  exact forall₂_congr fun e _ => by omega

/-- The machine's test of a table is R144's. -/
theorem hasZeroFactor_eq_false (t : FieldTable) : hasZeroFactor t = false ↔ ∀ e ∈ t, e.factor ≠ 0 := by
  simp [hasZeroFactor]

/-- A table is not refused exactly when every entry lies in the word and has a factor (R64, R144). -/
theorem encodeRefusal_eq_none (t : FieldTable) :
    encodeRefusal t = none ↔ (∀ e ∈ t, InWord e) ∧ ∀ e ∈ t, e.factor ≠ 0 := by
  rw [← hasFieldOutsideWord_eq_false, ← hasZeroFactor_eq_false]
  rcases encodeRefusal_cases t with ⟨h, h2⟩ | ⟨h, h1, h2⟩ | ⟨h, h1, h2⟩ <;> simp [*]

/-- Under TableWF no table is refused (R23). -/
theorem encodeRefusal_of_tableWF {t : FieldTable} (h : TableWF t) : encodeRefusal t = none :=
  (encodeRefusal_eq_none t).mpr ⟨fun e he => ⟨(h.1 e he).1, (h.1 e he).2.2.1⟩, fun e he => (h.1 e he).2.2.2.1⟩

/-- Under TableWF every entry lies in the word (R23). -/
theorem hasFieldOutsideWord_of_tableWF {t : FieldTable} (h : TableWF t) : hasFieldOutsideWord t = false :=
  (hasFieldOutsideWord_eq_false t).mpr ((encodeRefusal_eq_none t).mp (encodeRefusal_of_tableWF h)).1

/-- Under ConfigWF every class has such a table (R25 a). -/
theorem tableWF_of_configWF {s : State} (h : ConfigWF s.cfg) {c : Nat} {k : MsgClass} (hk : s.cfg.classes[c]? =
    some k) : TableWF k.table := h.1 k (List.mem_iff_getElem?.mpr ⟨_, hk⟩)

/-! ### ENCODE -/

/-- ENCODE of a well-formed class completes (R138). -/
theorem exec_encode_of_tableWF {s : State} {c k pr} (hk : s.cfg.classes[c]? = some k)
    (hl : pr.length = k.table.length) (hwf : TableWF k.table) :
    exec (.encode c pr) s = answer s (.encoded
      (bytes8 (fieldsWord k.table (rawsOf s.cfg.encClampMode k.table pr)))
      (encodeFlags s.cfg.encClampMode k.table pr)) := by
  simp [exec, execEncode, hk, hl, encodeRefusal_of_tableWF hwf, encodePayload, encodeWord_eq_fieldsWord]

/-- The payload word of what ENCODE returns. -/
theorem payloadSum_bytes8_fieldsWord {m t pr} (hwf : TableWF t) : payloadSum (bytes8 (fieldsWord t (rawsOf m t pr)))
    = fieldsWord t (rawsOf m t pr) :=
  payloadSum_bytes8 _ (fieldsWord_lt _ _ hwf.1 rawsOf_lt)

/-- A raw value fits its field. -/
theorem fieldRaw_lt (w e) : fieldRaw w e < 2 ^ e.bitWidth := by unfold fieldRaw; exact Nat.mod_lt _ (by positivity)

/-- Encoding a decoded record gives its raw values back, field by field (R142 a). -/
theorem rawsOf_recordOf {m : ClampMode} {t : FieldTable} {W : Nat} (hwf : TableWF t) (hm : m = .rawOnly ∨ ∀ e ∈ t,
    inDeclared e (fieldPhys W e)) :
   ∀ (i : Nat) e, t[i]? = some e → (rawsOf m t ((recordOf t W).map (·.phys)))[i]? = some (fieldRaw W e) := by
    intro i e he
    have hp : ((recordOf t W).map (·.phys))[i]? = some (fieldPhys W e) := by
      simp [recordOf, he]
    have hmem : e ∈ t := List.mem_iff_getElem?.mpr ⟨_, he⟩
    rw [rawsOf_getElem? he hp, saturate_quotientOf_grid (hwf.1 e hmem).2.2.2.1 (r := fieldRaw W e) (fieldRaw_lt _ _)
        (fieldPhys W e) rfl]
    rcases hm with h | h
    · exact .inl h
    · exact .inr (h e hmem)

/-! ### Range checks -/

/-- The out-of-range flag is the comparison with both bounds. -/
theorem oorFlag_iff (e : FieldEntry) (p : Q) : oorFlag e p = true ↔ (p < e.minPhys ∨ e.maxPhys < p) := by simp [oorFlag]

/-- Which indices the range check lists (R140). -/
theorem mem_violationsFrom (n : Nat) (t : FieldTable) (r : Record) (h : r.length = t.length) (i : Nat) :
    i ∈ violationsFrom n t r ↔ n ≤ i ∧ ∃ e v, t[i - n]? = some e ∧ r[i - n]? = some v ∧ (v.phys < e.minPhys ∨
        e.maxPhys < v.phys) := by
  induction t generalizing n r with
  | nil => simp [violationsFrom]
  | cons e t ih =>
    cases r with
    | nil => simp at h
    | cons v r =>
      simp at h
      have ih' := ih (n + 1) r h
      unfold violationsFrom
      have hstep : (n + 1 ≤ i ∧ ∃ e' v', t[i - (n+1)]? = some e' ∧ r[i - (n+1)]? = some v' ∧ (v'.phys < e'.minPhys ∨
          e'.maxPhys < v'.phys))
        ↔ (n < i ∧ ∃ e' v', (e :: t)[i - n]? = some e' ∧ (v :: r)[i - n]? = some v' ∧ (v'.phys < e'.minPhys ∨
            e'.maxPhys < v'.phys)) := by
        constructor
        · rintro ⟨h1, h2⟩
          refine ⟨by omega, ?_⟩
          rw [show i - n = (i - (n+1)) + 1 by omega]; simpa using h2
        · rintro ⟨h1, h2⟩
          refine ⟨by omega, ?_⟩
          rw [show i - n = (i - (n+1)) + 1 by omega] at h2; simpa using h2
      by_cases ho : oorFlag e v.phys = true
      · rw [if_pos ho, List.mem_cons, ih', hstep]
        constructor
        · rintro (rfl | ⟨h1, h2⟩)
          · exact ⟨le_rfl, e, v, by simp, by simp, (oorFlag_iff _ _).mp ho⟩
          · exact ⟨h1.le, h2⟩
        · rintro ⟨h1, h2⟩
          rcases Nat.eq_or_lt_of_le h1 with h3 | h3
          · exact .inl h3.symm
          · exact .inr ⟨h3, h2⟩
      · rw [if_neg ho, ih', hstep]
        constructor
        · rintro ⟨h1, h2⟩; exact ⟨h1.le, h2⟩
        · rintro ⟨h1, h2⟩
          refine ⟨?_, h2⟩
          rcases Nat.eq_or_lt_of_le h1 with h3 | h3
          · subst h3; obtain ⟨e', v', h4, h5, h6⟩ := h2
            simp at h4 h5; subst h4; subst h5
            exact absurd ((oorFlag_iff _ _).mpr h6) ho
          · exact h3

theorem le_of_mem_violationsFrom (n : Nat) (t : FieldTable) (r : Record) : ∀ i ∈ violationsFrom n t r, n ≤ i := by
  induction t generalizing n r with
  | nil => simp [violationsFrom]
  | cons e t ih =>
    cases r with
    | nil => simp [violationsFrom]
    | cons v r =>
      unfold violationsFrom
      intro i hi
      split at hi
      · rcases List.mem_cons.mp hi with rfl | hi
        · exact le_rfl
        · have := ih _ _ i hi; omega
      · have := ih _ _ i hi; omega

/-- They ascend. -/
theorem violationsFrom_pairwise (n : Nat) (t : FieldTable) (r : Record) : (violationsFrom n t r).Pairwise (· < ·) := by
  induction t generalizing n r with
  | nil => simp [violationsFrom]
  | cons e t ih =>
    cases r with
    | nil => simp [violationsFrom]
    | cons v r =>
      unfold violationsFrom
      split
      · exact List.pairwise_cons.mpr ⟨fun i hi => le_of_mem_violationsFrom _ _ _ i hi, ih _ _⟩
      · exact ih _ _

/-- What makes a list of pairs a record (R24). -/
theorem recordTyped_of {t : FieldTable} {r : Record} (h : r.length = t.length) (hh : ∀ (i : Nat) (e : FieldEntry) (v
    : FieldVal), t[i]? = some e → r[i]? = some v → v.raw < 2 ^ e.bitWidth) : recordTyped t r = true := by
  simp only [recordTyped, h, decide_true, Bool.true_and, List.all_eq_true, decide_eq_true_eq]
  rintro ⟨e, v⟩ hx
  obtain ⟨i, hi⟩ := List.mem_iff_getElem?.mp hx
  rw [List.getElem?_zip_eq_some] at hi
  exact hh i e v hi.1 hi.2

/-- DECODE makes a record. -/
theorem recordTyped_recordOf (t : FieldTable) (W : Nat) : recordTyped t (recordOf t W) = true :=
  recordTyped_of (by simp [recordOf]) (by
    intro i e v he hv; simp [recordOf, he] at hv; subst hv; exact fieldRaw_lt _ _)

/-- A decoded record is in range when every field is (R140). -/
theorem rangeOk_recordOf (t : FieldTable) (W : Nat) : rangeOk t (recordOf t W) = true ↔ ∀ e ∈ t, inDeclared e
    (fieldPhys W e) := by
  rw [rangeOk, decide_eq_true_iff, List.eq_nil_iff_forall_not_mem]
  have hm := fun i => mem_violationsFrom 0 t (recordOf t W) (by simp [recordOf]) i
  constructor
  · intro h e he
    obtain ⟨i, hi⟩ := List.mem_iff_getElem?.mp he
    have := mt (hm i).mpr (h i)
    unfold inDeclared
    by_contra hc
    apply this
    refine ⟨by omega, e, ⟨fieldRaw W e, fieldPhys W e⟩, by simpa using hi, by simp [recordOf, hi], ?_⟩
    simp only []
    by_contra h2; push Not at h2; exact hc h2
  · intro h i hi
    obtain ⟨-, e, v, he, hv, h2⟩ := (hm i).mp hi
    simp only [Nat.sub_zero] at he hv
    simp [recordOf, he] at hv
    subst hv
    have := h e (List.mem_iff_getElem?.mpr ⟨_, he⟩)
    unfold inDeclared at this
    rcases h2 with h2 | h2
    · exact absurd this.1 (not_le.mpr h2)
    · exact absurd this.2 (not_le.mpr h2)

/-! ### The acknowledgment payload -/

/-- Four bytes or more are unpacked (R104). -/
theorem ackUnpack_of_le (p : List Byte) (h : 4 ≤ p.length) : ackUnpack p = some ⟨p.getD 0 0, p.getD 1 0, BitVec.ofNat
    16 ((p.getD 2 0).toNat * 256 + (p.getD 3 0).toNat)⟩ := by
  match p, h with
  | a :: b :: c :: d :: r, _ =>
    have e : c ++ d = BitVec.ofNat 16 (c.toNat * 256 + d.toNat) := by
      apply BitVec.eq_of_toNat_eq
      have hc := c.isLt; have hd := d.isLt
      rw [BitVec.toNat_append, BitVec.toNat_ofNat, Nat.mod_eq_of_lt (by omega), Nat.shiftLeft_eq, Nat.mul_comm, ← Nat.two_pow_add_eq_or_of_lt hd]
    simp [ackUnpack, e]

/-- Fewer are not (R104). -/
theorem ackUnpack_of_lt (p : List Byte) (h : p.length < 4) : ackUnpack p = none := by
  match p, h with
  | [], _ => rfl
  | [_], _ => rfl
  | [_, _], _ => rfl
  | [_, _, _], _ => rfl

/-- What was unpacked had four bytes. -/
theorem ackUnpack_fields {f : Frame} {a} (h : ackUnpack f.data = some a) : 4 ≤ f.data.length ∧ a.status = f.data.getD
    0 0 ∧ a.echo = f.data.getD 1 0 := by
  have hl : 4 ≤ f.data.length := by
    by_contra hc; rw [ackUnpack_of_lt _ (by omega)] at h; cases h
  rw [ackUnpack_of_le _ hl] at h; cases h; exact ⟨hl, rfl, rfl⟩

theorem checksum_high (ck : BitVec 16) : ck.extractLsb' 8 8 = BitVec.ofNat 8 (ck.toNat / 256) := by
  apply BitVec.eq_of_toNat_eq; simp [BitVec.extractLsb'_toNat, Nat.shiftRight_eq_div_pow]

theorem checksum_low (ck : BitVec 16) : ck.extractLsb' 0 8 = BitVec.ofNat 8 ck.toNat := by
  apply BitVec.eq_of_toNat_eq; simp [BitVec.extractLsb'_toNat]

end Sys2Proof.Machine
end

