-- ==== Sys2Proof/Laws/Elapsed.lean ====
section
/-!
SUPPORT. Elapsed time: the machine's test is `Coherent`, its value `elapsedValue`, and where the timer is after `n`
ticks.
-/

namespace Sys2Proof.Machine

theorem wrapsSince_eq_wraps (last now : Stamp) : wrapsSince last now = wraps last now := by
  have := last.ovf.isLt; have := now.ovf.isLt
  simp only [wrapsSince, wraps, BitVec.toNat_sub]; congr 1; omega

/-- A sample is torn exactly when the rules state no result for it (R206). -/
theorem State.torn_eq_false (s : State) (last : Stamp) :
    s.torn last = false ↔ Coherent s.timerOk s.cfg.period last s.time := by
  simp only [State.torn, tornSample, Coherent, wrapsSince_eq_wraps, Bool.or_eq_false_iff, Bool.and_eq_false_iff,
    decide_eq_false_iff_not, Bool.not_eq_false', not_le, not_lt]
  cases s.timerOk <;> simp [and_assoc, imp_iff_not_or]

/-- Where the rules state a result `Elapsed` is it, and draws nothing. -/
theorem State.elapsed_of_coherent {s : State} {last : Stamp} (h : Coherent s.timerOk s.cfg.period last s.time) :
    s.elapsed last = elapsedValue s.cfg.period last s.time ∧ s.measured last = s := by
  have := State.elapsed_of_not_torn ((State.torn_eq_false s last).mpr h)
  refine ⟨this.1.trans ?_, this.2⟩
  simp only [elapsedSat, elapsedExact, elapsedValue, wrapsSince_eq_wraps, ne_eq, ite_not]

/-- The timer after `n` ticks (R326). -/
theorem Stamp.after_toNat (period : Nat) (hp : 1 ≤ period) (hp2 : period ≤ 2 ^ 32) (n : Nat) (t : Stamp) (ht :
    t.ticks.toNat < period) :
    (Stamp.after period n t).ticks.toNat = (t.ticks.toNat + n) % period ∧
    (Stamp.after period n t).ovf.toNat = (t.ovf.toNat + (t.ticks.toNat + n) / period) % 2 ^ 32 := by
  induction n generalizing t with
  | zero => 
    have := t.ovf.isLt
    simp only [Stamp.after, Nat.add_zero, Nat.mod_eq_of_lt ht, Nat.div_eq_of_lt ht, Nat.mod_eq_of_lt this, and_self]
  | succ n ih =>
    simp only [Stamp.after, Stamp.tick]
    have ho := t.ovf.isLt
    split
    · rename_i h
      have e1 : (t.ticks + 1).toNat = t.ticks.toNat + 1 := by
        rw [BitVec.toNat_add]; simp; omega
      have := ih ⟨t.ticks + 1, t.ovf⟩ (by simp only [e1]; exact h)
      simp only [e1] at this
      rw [this.1, this.2, show t.ticks.toNat + 1 + n = t.ticks.toNat + (n + 1) by ring]
      exact ⟨rfl, rfl⟩
    · rename_i h
      have e1 : t.ticks.toNat + 1 = period := by omega
      have := ih ⟨0, t.ovf + 1⟩ (by simpa using (show 0 < period by omega))
      have e2 : (t.ovf + 1).toNat = (t.ovf.toNat + 1) % 2 ^ 32 := by rw [BitVec.toNat_add]; simp
      have checksum_append : (0 : BitVec 32).toNat = 0 := rfl
      simp only [e2, checksum_append, Nat.zero_add] at this
      rw [this.1, this.2, show t.ticks.toNat + (n + 1) = n + period by omega, Nat.add_mod_right, Nat.add_div_right _ (by omega)]
      refine ⟨rfl, ?_⟩
      rw [Nat.add_mod, Nat.mod_mod, ← Nat.add_mod]; congr 1; omega

end Sys2Proof.Machine
end

