-- ==== Sys2Proof/Laws/Registry.lean ====
section
/-!
SUPPORT. Identifiers: what CLASSIFY finds is the one match of R164, and the OR of R98 and R99 is a sum where the
parts share no bit (R100).
-/

namespace Sys2Proof.Machine

/-- `TelemMatch` answers a segment exactly for its identifier (R97). -/
theorem telemMatch_eq_some (nSeg : Nat) (en : Byte) (id : Nat) (base : BitVec 11) (seg : Nat) :
    telemMatch nSeg en id base = some seg ↔ (id = base.toNat + seg * 0x100 ∧ seg < nSeg ∧ en.getLsbD seg = true) := by
  unfold telemMatch Config.segStride
  constructor
  · intro h
    split at h
    · rename_i hc; cases h
      refine ⟨by omega, hc.2.2.1, hc.2.2.2⟩
    · cases h
  · rintro ⟨rfl, h1, h2⟩
    have e : (base.toNat + seg * 256 - base.toNat) / 256 = seg := by omega
    rw [e, if_pos ⟨by omega, by omega, h1, h2⟩]

/-- What the match set lists, from class number `n` on. -/
theorem mem_telemMatches (nSeg : Nat) (en : Byte) (id : Nat) (l : List MsgClass) (n c seg : Nat) :
    (c, seg) ∈ telemMatches nSeg en id l n ↔ ∃ k, n ≤ c ∧ l[c - n]? = some k ∧ k.dir = .rx ∧ telemMatch nSeg en id
        k.base = some seg := by
  induction l generalizing n with
  | nil => simp [telemMatches]
  | cons k l ih =>
    have hstep : (∃ k', n + 1 ≤ c ∧ l[c - (n+1)]? = some k' ∧ k'.dir = .rx ∧ telemMatch nSeg en id k'.base = some seg)
       ↔ (∃ k', n < c ∧ (k :: l)[c - n]? = some k' ∧ k'.dir = .rx ∧ telemMatch nSeg en id k'.base = some seg) := by
      constructor
      · rintro ⟨k', h1, h2⟩; refine ⟨k', by omega, ?_⟩; rw [show c - n = (c - (n+1)) + 1 by omega]; simpa using h2
      · rintro ⟨k', h1, h2⟩; refine ⟨k', by omega, ?_⟩; rw [show c - n = (c - (n+1)) + 1 by omega] at h2; simpa using h2
    unfold telemMatches
    split
    · rename_i s' hd hm
      rw [List.mem_cons, ih, hstep]
      constructor
      · rintro (h | ⟨k', h1, h2⟩)
        · cases h; exact ⟨k, le_rfl, by simp, hd, hm⟩
        · exact ⟨k', h1.le, h2⟩
      · rintro ⟨k', h1, h2⟩
        rcases Nat.eq_or_lt_of_le h1 with h3 | h3
        · subst h3; simp at h2; obtain ⟨rfl, h4, h5⟩ := h2; rw [hm] at h5; cases h5; exact .inl rfl
        · exact .inr ⟨k', h3, h2⟩
    · rename_i hno
      rw [ih, hstep]
      constructor
      · rintro ⟨k', h1, h2⟩; exact ⟨k', h1.le, h2⟩
      · rintro ⟨k', h1, h2⟩
        rcases Nat.eq_or_lt_of_le h1 with h3 | h3
        · subst h3; simp at h2; obtain ⟨rfl, h4, h5⟩ := h2; exact absurd h5 (hno _ h4)
        · exact ⟨k', h3, h2⟩

/-- The match set is the set of matches (R164). -/
theorem mem_telemMatches_classes (g : Cfg) (en : Byte) (id c seg : Nat) : (c, seg) ∈ telemMatches g.nSeg en id
    g.classes 0 ↔ Matches g en id c seg := by
  rw [mem_telemMatches]; simp only [Nat.zero_le, true_and, Nat.sub_zero, telemMatch_eq_some, Matches]

/-- It lists no match twice. -/
theorem telemMatches_nodup (nSeg : Nat) (en : Byte) (id : Nat) (l : List MsgClass) (n : Nat) : (telemMatches nSeg en
    id l n).Nodup := by
  induction l generalizing n with
  | nil => simp [telemMatches]
  | cons k l ih =>
    unfold telemMatches
    split
    · refine List.nodup_cons.mpr ⟨?_, ih _⟩
      rw [mem_telemMatches]; rintro ⟨k', h, -⟩; omega
    · exact ih _

/-- CLASSIFY answers the one match (R164, R166, R168). -/
theorem classifyId_eq_some (g : Cfg) (en : Byte) (id : Nat) (ext : Bool) (c seg : Nat) :
    classifyId g en id ext = some (c, seg) ↔ UniqueMatch g en id ext c seg := by
  unfold classifyId UniqueMatch
  cases ext
  · simp only [Bool.false_eq_true, if_false, true_and]
    have hm := mem_telemMatches_classes g en id
    have hn := telemMatches_nodup g.nSeg en id g.classes 0
    generalize telemMatches g.nSeg en id g.classes 0 = M at *
    match M, hm, hn with
    | [], hm, _ => simp [← hm]
    | [m], hm, _ =>
      simp only [Option.some.injEq, ← hm, List.mem_singleton]
      constructor
      · rintro rfl; exact ⟨rfl, by simp⟩
      · rintro ⟨h, -⟩; exact h.symm
    | (a, b) :: (a', b') :: r, hm, hn =>
      constructor
      · rintro ⟨⟩
      · rintro ⟨h, hu⟩
        have h1 := hu a b ((hm _ _).mp (by simp))
        have h2 := hu a' b' ((hm _ _).mp (by simp))
        simp [h1, h2] at hn
  · simp

/-- The parts of a transfer identifier share no bit (R100). -/
theorem or_chunk_or_segment (a k g m : Nat) (ha : a % 0x10000 = 0) (hk : k ≤ 255) (hg : g ≤ 7) (hm : m = 0 ∨ m = 160) :
    (a + m) ||| (k <<< 8) ||| g = a + k * 256 + m + g := by
  obtain ⟨b, rfl⟩ : ∃ b, a = b * 65536 := ⟨a / 65536, by omega⟩
  have h1 : (b * 65536 + m) ||| (k <<< 8) = b * 65536 + (k * 256 + m) := by
    have hm' : m < 2 ^ 8 := by omega
    rw [show b * 65536 + m = 2 ^ 8 * (b * 256) + m by ring, Nat.two_pow_add_eq_or_of_lt hm', Nat.or_assoc, Nat.or_comm m, ← Nat.or_assoc, Nat.shiftLeft_eq]
    rw [show 2 ^ 8 * (b * 256) = 2 ^ 16 * b by ring, ← Nat.two_pow_add_eq_or_of_lt (show k * 2 ^ 8 < 2 ^ 16 by omega)]
    rw [show 2 ^ 16 * b + k * 2 ^ 8 = 2 ^ 8 * (b * 256 + k) by ring, ← Nat.two_pow_add_eq_or_of_lt hm']
    ring
  rw [h1]
  have hg' : g < 2 ^ 3 := by omega
  obtain ⟨m', rfl⟩ : ∃ m', m = 8 * m' := ⟨m / 8, by omega⟩
  rw [show b * 65536 + (k * 256 + 8 * m') = 2 ^ 3 * (b * 8192 + k * 32 + m') by ring, ← Nat.two_pow_add_eq_or_of_lt hg']
  ring

/-- A request identifier as a sum. -/
theorem xidReqOf_eq_add (base : BitVec 29) (k : Byte) (seg : BitVec 3) (h : base.toNat % 0x10000 = 0) :
    xidReqOf base.toNat k.toNat seg.toNat = base.toNat + k.toNat * 256 + seg.toNat := by
  have := or_chunk_or_segment base.toNat k.toNat seg.toNat 0 h (by have := k.isLt; omega) (by have := seg.isLt; omega) (.inl rfl)
  simpa [xidReqOf] using this

/-- A response identifier as a sum. -/
theorem xidRspOf_eq_add (base : BitVec 29) (k : Byte) (seg : BitVec 3) (h : base.toNat % 0x10000 = 0) :
    xidRspOf base.toNat k.toNat seg.toNat = base.toNat + k.toNat * 256 + 160 + seg.toNat := 
  or_chunk_or_segment base.toNat k.toNat seg.toNat 160 h (by have := k.isLt; omega) (by have := seg.isLt; omega) (.inr rfl)

/-- A field of an identifier by division. -/
theorem extractLsb'_eq_iff {w : Nat} (id : BitVec 29) (o : Nat) (v : BitVec w) : id.extractLsb' o w = v ↔ id.toNat /
    2 ^ o % 2 ^ w = v.toNat := by
  rw [← BitVec.toNat_inj, BitVec.extractLsb'_toNat, Nat.shiftRight_eq_div_pow]

/-- Under ConfigWF every telemetry identifier has 11 bits (R25 b). -/
theorem telemId_le_of_configWF {s : State} (h : ConfigWF s.cfg) {c seg : Nat} {k : MsgClass} (hk : s.cfg.classes[c]?
    = some k) (hs : seg < s.cfg.nSeg) : telemId k.base seg ≤ Config.stdIdMax := by
  have hb := h.2.1 k (List.mem_iff_getElem?.mpr ⟨_, hk⟩)
  have h1 : seg * 256 ≤ (s.cfg.nSeg - 1) * 256 := Nat.mul_le_mul_right _ (by omega)
  exact le_trans (Nat.add_le_add_left h1 _) hb

end Sys2Proof.Machine
end

