-- ==== Sys2Proof/Laws/Frames.lean ====
section
/-!
SUPPORT. What each operation can leave: one shape lemma per operation, and `exec_cases`, which says once everything an
instruction can do to the state. Each shape names the only fields that can differ.
-/

namespace Sys2Proof.Machine

/-! ### Shared operations -/

theorem eq_of_next_eq_next {a b : State} (h : (Host.Outcome.next a : Host.Outcome State Fault Refusal) = .next b) : b = a := by injection h with h; exact h.symm

/-- Evaluating `Elapsed` moves at most the free-value counter. -/
theorem State.measured_shape (s : State) (last : Stamp) : ∃ n, s.measured last = { s with draws := n } := by
  rcases State.measured_cases s last with h | h
  · exact ⟨s.draws, h⟩
  · exact ⟨_, h⟩

/-- `Send` touches the answers, the counter and the frames sent. -/
theorem State.afterSend_shape (s : State) (f : Frame) : ∃ a d, s.afterSend f =
    { s with answers := a, draws := d, sent := s.sent ++ [⟨f, s.sendOk⟩] } := by
  rcases s.afterSend_cases f with ⟨x, r, -, -, h⟩ | ⟨-, -, h⟩
  · exact ⟨r, s.draws, h⟩
  · exact ⟨s.answers, s.draws + 1, h⟩

/-- The reset of a link's cursor writes cursor indices only. -/
theorem State.resetBoundCursor_shape (t : State) (l : Nat) : ∃ v, t.resetBoundCursor l = t.setSeqs v := by
  rcases State.resetBoundCursor_cases t l with ⟨q', h1, h2⟩ | ⟨h1, h2⟩
  · exact ⟨_, h2⟩
  · exact ⟨t.regs.seqs, h2⟩

/-- The bound cursor is at 0, every other as it was (R198, R200). -/
theorem State.boundCursorReset_resetBoundCursor {s t : State} {l : Nat} (hc : t.cfg = s.cfg) (hs : ∀ q, t.seqIndex q
    = s.seqIndex q) : State.BoundCursorReset l s (t.resetBoundCursor l) := by
  intro q
  rcases State.resetBoundCursor_cases t l with ⟨q', h1, h2⟩ | ⟨h1, h2⟩
  · rw [h2, State.seqIndex_putSeq]; rw [hc] at h1; rw [h1]
    by_cases h : q = q'
    · simp [h]
    · simp [h, Ne.symm h, hs]
  · rw [h2]; rw [hc] at h1; rw [h1]; simp [hs]

/-- A playlist the configuration lists is that cursor's. -/
theorem State.playlist_of_getElem? {s : State} {q p} (h : s.cfg.seqs[q]? = some p) : q < s.cfg.nSeq ∧ s.playlist q =
    p := by
  obtain ⟨h1, h2⟩ := List.getElem?_eq_some_iff.mp h
  refine ⟨h1, by simp [State.playlist, h]⟩

/-- The chunk read for a request frame (R250). -/
theorem State.bufRead_chunk (s : State) : s.bufRead (8 * s.regs.xfer.cur) 8 = (List.range 8).map (fun i => if 8 *
    s.regs.xfer.cur + i < s.regs.xfer.len
          then Memory.read s.regs.xfer.buf (8 * s.regs.xfer.cur + i) else 0) := by
  unfold State.bufRead
  apply List.ext_getElem
  · simp
  · intro i h1 h2; simp

/-- `AttemptFailed` writes the session and LOG. -/
theorem State.attemptFailed_shape (s : State) : ∃ x l, s.attemptFailed =
    { s with regs := { s.regs with xfer := x }, log := s.log ++ l } := by
  rcases s.attemptFailed_cases with ⟨-, h⟩ | ⟨-, h⟩
  · exact ⟨_, [], by rw [h]; simp [State.setXfer, State.setRegs]; rfl⟩
  · exact ⟨_, _, by rw [h]; simp [State.setXfer, State.setRegs, State.pushLog]; exact ⟨rfl, rfl⟩⟩

/-- How `AttemptFailed` ends (R252). -/
theorem State.attemptFailed_ends (s : State) :
    (s.regs.xfer.att + 1 ≤ s.regs.xfer.maxr.toNat ∧ s.attemptFailed.regs.xfer.st = .send ∧
        s.attemptFailed.regs.xfer.cur = s.regs.xfer.cur)
    ∨ (s.regs.xfer.maxr.toNat < s.regs.xfer.att + 1 ∧ s.attemptFailed.regs.xfer.st = .idle ∧
        s.attemptFailed.regs.xfer.result = .failed s.regs.xfer.cur s.regs.xfer.maxr ∧ s.attemptFailed.regs.xfer.cur =
        s.regs.xfer.cur) := by
  rcases s.attemptFailed_cases with ⟨h1, h2⟩ | ⟨h1, h2⟩
  · exact .inl ⟨h1, by rw [h2]; rfl, by rw [h2]; rfl⟩
  · exact .inr ⟨h1, by rw [h2]; rfl, by rw [h2]; rfl, by rw [h2]; rfl⟩

/-- `XferResponse` writes the session and LOG. -/
theorem State.xferResponse_shape (s : State) (f : Frame) : ∃ x l, s.xferResponse f =
    { s with regs := { s.regs with xfer := x }, log := s.log ++ l } := by
  rcases s.xferResponse_cases f with ⟨a, -, -, -, h⟩ | ⟨a, -, -, h⟩ | h
  · exact ⟨_, _, by rw [h]; rfl⟩
  · obtain ⟨x, l, h2⟩ := State.attemptFailed_shape (s.pushLog (.chunkNacked s.regs.xfer.cur a.echo))
    exact ⟨x, _, by rw [h, h2]; simp [State.pushLog]; rfl⟩
  · exact ⟨_, _, by rw [h]; rfl⟩

/-- Telemetry dispatch writes records, links and LOG. -/
theorem State.dispatchTelemetry_shape (s : State) (f : Frame) : ∃ r lk l, s.dispatchTelemetry f =
    { s with regs := { s.regs with recs := r, links := lk }, log := s.log ++ l } := by
  rcases s.dispatchTelemetry_cases f with h | ⟨c, seg, k, -, -, h⟩
  · exact ⟨_, _, _, by rw [h]; rfl⟩
  · rw [h]; unfold State.acceptRecord State.refreshLinkOf
    split
    · split
      · rename_i l _
        rcases ((s.recWrite c seg (decodeRecord k.table f.data)).linkRefresh_cases l) with ⟨-, h⟩ | ⟨-, h⟩
        · exact ⟨_, _, [], by rw [h]; simp [State.putLink, State.setLinks, State.recWrite, State.setRecs, State.setRegs]; exact ⟨rfl, rfl⟩⟩
        · exact ⟨_, _, _, by rw [h]; simp [State.putLink, State.setLinks, State.recWrite, State.setRecs, State.setRegs, State.pushLog]; exact ⟨⟨rfl, rfl⟩, rfl⟩⟩
      · exact ⟨_, _, [], by simp [State.recWrite, State.setRecs, State.setRegs]; exact ⟨rfl, rfl⟩⟩
    · exact ⟨_, _, _, rfl⟩

/-- What the peer completes is at the tail of RXQ, where it is a frame (R22, R35). -/
theorem State.putData_eq {s : State} (h : s.head.ext = true ∨ s.head.id.toNat ≤ 0x7FF) (p : List Byte) (hp : p.length
    ≤ 8) :
   s.putData p = { s with rxq := s.rxq ++ [⟨s.head.id, s.head.ext, p⟩] } := by
  have hw : (⟨s.head.id, s.head.ext, p⟩ : Frame).wf = true := by
    simp only [Frame.wf, Bool.and_eq_true, decide_eq_true_eq, Bool.or_eq_true]; exact ⟨hp, h⟩
  unfold State.putData State.deliver; rw [if_pos hw]; rfl

/-! ### RX_FRAME -/

/-- The machine's test of the awaited response is R170's. -/
theorem State.awaits_iff (s : State) (f : Frame) : s.awaits f = true ↔ Awaited s f := by
  simp only [State.awaits, Bool.and_eq_true, decide_eq_true_eq, and_assoc]; rfl

theorem State.awaits_setRxq_eq_false {s : State} {f : Frame} (h : ¬ Awaited s f) (q) : (s.setRxq q).awaits f = false
    := by
  rw [Bool.eq_false_iff]; intro h'; exact h ((State.awaits_iff s f).mp h')

theorem State.receive_of_not_awaited {s : State} {f : Frame} (h : ¬ Awaited s f) (q) : (s.setRxq q).receive f =
    (s.setRxq q).dispatchTelemetry f := by
  unfold State.receive; rw [if_neg]; rw [State.awaits_setRxq_eq_false h]; decide

theorem State.dispatchTelemetry_unknown {s : State} {f : Frame} (h : classifyId s.cfg s.regs.segEn f.id.toNat f.ext =
    none) : s.dispatchTelemetry f = s.pushLog (.unknownFrame f.id f.ext) := by
  unfold State.dispatchTelemetry; rw [h]

theorem State.dispatchTelemetry_known {s : State} {f : Frame} {c seg k} (h : classifyId s.cfg s.regs.segEn f.id.toNat
    f.ext = some (c, seg)) (hk : s.cfg.classes[c]? = some k) : s.dispatchTelemetry f = s.acceptRecord c seg k f.data
    := by
  unfold State.dispatchTelemetry; rw [h]; simp only [hk]

/-- A frame is refused exactly when it has one match, of a class with a field outside the word (R64). -/
theorem State.refusesFrame_eq_true (s : State) (f : Frame) : s.refusesFrame f = true ↔
    ¬ Awaited s f ∧ ∃ c seg k, UniqueMatch s.cfg s.regs.segEn f.id.toNat f.ext c seg ∧ s.cfg.classes[c]? = some k
      ∧ hasFieldOutsideWord k.table = true := by
  simp only [State.refusesFrame, Bool.and_eq_true, Bool.not_eq_true', ← State.awaits_iff, Bool.not_eq_true,
    ← classifyId_eq_some]
  refine and_congr_right fun _ => ?_
  cases hc : classifyId s.cfg s.regs.segEn f.id.toNat f.ext with
  | none => simp
  | some m =>
    cases hk : s.cfg.classes[m.1]? with
    | none => simp only [hk, Option.any_none, Bool.false_eq_true, false_iff]; rintro ⟨c, seg, k, h, h2, -⟩; cases h; rw [hk] at h2; cases h2
    | some k =>
      simp only [hk, Option.any_some]
      exact ⟨fun h => ⟨m.1, m.2, k, rfl, hk, h⟩, fun ⟨c, seg, k', h, h2, h3⟩ => by cases h; rw [hk] at h2; cases h2; exact h3⟩

/-- An awaited response is not refused. -/
theorem State.refusesFrame_of_awaited {s : State} {f : Frame} (h : Awaited s f) : s.refusesFrame f = false := by
  rw [Bool.eq_false_iff]; exact fun h' => ((State.refusesFrame_eq_true s f).mp h').1 h

/-- What is not refused is taken from RXQ and handled (R170). -/
theorem exec_rxFrame_of_not_refused {s : State} {f : Frame} {rest} (hq : s.rxq = f :: rest)
    (h : s.refusesFrame f = false) : exec .rxFrame s = .next ((s.setRxq rest).receive f) := by
  simp only [exec, execRxFrame, hq, h, Bool.false_eq_true, if_false]

/-- A frame with one match goes to its class (R170). -/
theorem exec_rxFrame_known {s : State} {f : Frame} {rest c seg k} (hq : s.rxq = f :: rest) (ha : ¬ Awaited s f)
   (hu : UniqueMatch s.cfg s.regs.segEn f.id.toNat f.ext c seg) (hk : s.cfg.classes[c]? = some k)
   (hw : hasFieldOutsideWord k.table = false) :
   exec .rxFrame s = .next ((s.setRxq rest).acceptRecord c seg k f.data) := by
  have hc := (classifyId_eq_some _ _ _ _ _ _).mpr hu
  have hr : s.refusesFrame f = false := by
    rw [Bool.eq_false_iff]; intro h
    obtain ⟨-, c', seg', k', h1, h2, h3⟩ := (State.refusesFrame_eq_true s f).mp h
    obtain ⟨rfl, rfl⟩ := hu.2.2 _ _ h1.2.1
    rw [hk] at h2; cases h2; rw [hw] at h3; cases h3
  rw [exec_rxFrame_of_not_refused hq hr, State.receive_of_not_awaited ha,
    State.dispatchTelemetry_known (s := s.setRxq rest) hc hk]

/-! ### Operations that only return -/

/-- Only LOG, the response and the free-value counter can differ. -/
def State.Returns (s t : State) : Prop := ∃ l r d, t = { s with log := s.log ++ l, ret := r, draws := d }

theorem State.Returns.kept {s t : State} (h : State.Returns s t) : t.regs = s.regs ∧ State.EnvKept s t ∧ ∃ new, t.log
    = s.log ++ new := by
  obtain ⟨l, r, d, rfl⟩ := h
  exact ⟨rfl, ⟨rfl, rfl, rfl, rfl, rfl, rfl, rfl, rfl⟩, _, rfl⟩

theorem State.returns_setRet (s r) : State.Returns s (s.setRet r) := ⟨[], r, s.draws, by simp [State.setRet]⟩

theorem State.returns_raise (s e) : State.Returns s (s.raise e) := ⟨[e], _, s.draws, rfl⟩

theorem returns_of_answer {s t : State} {r} (h : answer s r = .next t) : State.Returns s t := by
  unfold answer at h; injection h with h; rw [← h]; exact State.returns_setRet _ _

theorem returns_of_raised {s t : State} {e} (h : raised s e = .next t) : State.Returns s t := by
  unfold raised at h; injection h with h; rw [← h]; exact State.returns_raise _ _

theorem returns_of_refused {s t : State} {r} (h : (Host.Outcome.refused r : Host.Outcome State Fault Refusal) = .next t) : State.Returns s t := by cases h

theorem exec_decode_returns (c : Nat) (p : List Byte) {s t : State} (h : exec (.decode c p) s = .next t) :
    State.Returns s t := by
  simp only [exec, execDecode] at h
  repeat' split at h
  all_goals
    first
      | with_reducible exact returns_of_answer h
      | with_reducible exact returns_of_raised h
      | with_reducible exact returns_of_refused h

theorem exec_encode_returns (c : Nat) (pr : PhysRecord) {s t : State} (h : exec (.encode c pr) s = .next t) :
    State.Returns s t := by
  simp only [exec, execEncode] at h
  repeat' split at h
  all_goals
    first
      | with_reducible exact returns_of_answer h
      | with_reducible exact returns_of_raised h
      | with_reducible exact returns_of_refused h

theorem exec_rangechk_returns (c : Nat) (r : Record) {s t : State} (h : exec (.rangechk c r) s = .next t) :
    State.Returns s t := by
  simp only [exec, execRangechk] at h
  repeat' split at h
  all_goals first | with_reducible exact returns_of_answer h | with_reducible exact returns_of_raised h

theorem exec_ackpack_returns (a b : Byte) (ck : BitVec 16) {s t : State} (h : exec (.ackpack a b ck) s = .next t) :
    State.Returns s t := by
  simp only [exec, execAckpack] at h
  exact returns_of_answer h

theorem exec_ackunpack_returns (p : List Byte) {s t : State} (h : exec (.ackunpack p) s = .next t) : State.Returns s
    t := by
  simp only [exec, execAckunpack] at h
  repeat' split at h
  all_goals first | with_reducible exact returns_of_answer h | with_reducible exact returns_of_raised h

theorem exec_resolve_returns (c g : Nat) {s t : State} (h : exec (.resolve c g) s = .next t) : State.Returns s t := by
  simp only [exec, execResolve] at h
  repeat' split at h
  all_goals
    first
      | with_reducible exact returns_of_answer h
      | with_reducible exact returns_of_raised h
      | with_reducible exact returns_of_refused h

theorem exec_classify_returns (id : BitVec 29) (e : Bool) {s t : State} (h : exec (.classify id e) s = .next t) :
    State.Returns s t := by
  simp only [exec, execClassify] at h
  exact returns_of_answer h

theorem exec_xidReq_returns (b : BitVec 29) (k : Byte) (g : Nat) {s t : State} (h : exec (.xidReq b k g) s = .next t)
    : State.Returns s t := by
  simp only [exec, execXidReq] at h
  repeat' split at h
  all_goals first | with_reducible exact returns_of_answer h | with_reducible exact returns_of_raised h

theorem exec_xidRsp_returns (b : BitVec 29) (k : Byte) (g : Nat) {s t : State} (h : exec (.xidRsp b k g) s = .next t)
    : State.Returns s t := by
  simp only [exec, execXidRsp] at h
  repeat' split at h
  all_goals first | with_reducible exact returns_of_answer h | with_reducible exact returns_of_raised h

theorem exec_xidParse_returns (a b : BitVec 29) {s t : State} (h : exec (.xidParse a b) s = .next t) : State.Returns
    s t := by
  simp only [exec, execXidParse] at h
  repeat' split at h
  all_goals first | with_reducible exact returns_of_answer h | with_reducible exact returns_of_raised h

theorem exec_lhStat_returns (l : Nat) {s t : State} (h : exec (.lhStat l) s = .next t) : State.Returns s t := by
  simp only [exec, execLhStat] at h
  repeat' split at h
  all_goals first | with_reducible exact returns_of_answer h | with_reducible exact returns_of_raised h

theorem exec_recRead_returns (c g : Nat) {s t : State} (h : exec (.recRead c g) s = .next t) : State.Returns s t := by
  simp only [exec, execRecRead] at h
  repeat' split at h
  all_goals first | with_reducible exact returns_of_answer h | with_reducible exact returns_of_raised h

theorem exec_xferStat_returns {s t : State} (h : exec .xferStat s = .next t) : State.Returns s t := by
  simp only [exec, execXferStat] at h
  exact returns_of_answer h

theorem exec_segGet_returns {s t : State} (h : exec .segGet s = .next t) : State.Returns s t := by
  simp only [exec, execSegGet] at h
  exact returns_of_answer h

theorem exec_lhElapsed_returns (l : Nat) {s t : State} (h : exec (.lhElapsed l) s = .next t) : State.Returns s t := by
  simp only [exec, execLhElapsed] at h
  split at h
  · obtain ⟨n, hn⟩ := State.measured_shape s (s.link l).last
    rw [hn] at h; unfold answer at h; injection h with h; rw [← h]
    exact ⟨[], .elapsed (s.elapsed (s.link l).last), n, by simp [State.setRet]⟩
  · exact returns_of_raised h

theorem exec_seqCur_returns (q : Nat) {s t : State} (h : exec (.seqCur q) s = .next t) : State.Returns s t := by
  simp only [exec, execSeqCur] at h
  split at h
  · split at h
    · exact returns_of_answer h
    · unfold answer at h; injection h with h; rw [← h]
      exact ⟨_, _, s.draws, rfl⟩
  · exact returns_of_raised h

/-- The pure reads of R68 only return. -/
theorem returns_of_isPureRead {i : Instr} {s t : State} (hi : isPureRead i = true) (h : exec i s = .next t) :
    State.Returns s t := by
  cases i
  case decode => exact exec_decode_returns _ _ h
  case encode => exact exec_encode_returns _ _ h
  case rangechk => exact exec_rangechk_returns _ _ h
  case ackpack => exact exec_ackpack_returns _ _ _ h
  case ackunpack => exact exec_ackunpack_returns _ h
  case resolve => exact exec_resolve_returns _ _ h
  case classify => exact exec_classify_returns _ _ h
  case xidReq => exact exec_xidReq_returns _ _ _ h
  case xidRsp => exact exec_xidRsp_returns _ _ _ h
  case xidParse => exact exec_xidParse_returns _ _ h
  case lhStat => exact exec_lhStat_returns _ h
  case recRead => exact exec_recRead_returns _ _ h
  case xferStat => exact exec_xferStat_returns  h
  case segGet => exact exec_segGet_returns  h
  case lhElapsed => exact exec_lhElapsed_returns _ h
  case seqCur => exact exec_seqCur_returns _ h
  all_goals (exfalso; revert hi; simp only [isPureRead]; decide)

/-! ### Operations that write -/

/-- The result of a record's `Send` (R172): the frame, LOG, the response and the transport's bookkeeping. -/
theorem State.sendRecord_shape (s : State) (f : Frame) (flags : List (Bool × Bool)) : ∃ a d l r,
    s.sendRecord f flags =
      { s with answers := a, draws := d, sent := s.sent ++ [⟨f, s.sendOk⟩], log := s.log ++ l, ret := r } := by
  obtain ⟨a, d, ha⟩ := State.afterSend_shape s f
  unfold State.sendRecord
  rw [ha]
  split
  · exact ⟨a, d, [], .sent flags, by simp [State.setRet]⟩
  · exact ⟨a, d, [.txFail f.id], .notSent f.id flags, rfl⟩

/-- TX_RECORD also moves the transport's bookkeeping. -/
theorem exec_txRecord_shape {c seg : Nat} {pr : PhysRecord} {s t : State} (h : exec (.txRecord c seg pr) s = .next t) :
    State.Returns s t ∨ ∃ f a d l r, f.ext = false ∧ t =
        { s with answers := a, draws := d, sent := s.sent ++ [⟨f, s.sendOk⟩], log := s.log ++ l, ret := r } := by
  simp only [exec, execTxRecord] at h
  split at h
  · rename_i k hk
    split at h
    · split at h
      · cases h
      · split at h
        · cases h
        · right
          obtain ⟨a, d, l, r, h2⟩ := State.sendRecord_shape s (recordFrame s.cfg.encClampMode k seg pr)
            (encodeFlags s.cfg.encClampMode k.table pr)
          exact ⟨_, a, d, l, r, rfl, (eq_of_next_eq_next h).trans h2⟩
    · exact .inl (returns_of_raised h)
  · exact .inl (returns_of_raised h)

/-- Links, cursors, LOG, the response and the counter can differ. -/
def State.LinksWritten (s t : State) : Prop := ∃ lk sq l r d, t =
    { s with regs := { s.regs with links := lk, seqs := sq }, log := s.log ++ l, ret := r, draws := d }

theorem State.Returns.linksWritten {s t} (h : State.Returns s t) : State.LinksWritten s t := by
  obtain ⟨l, r, d, rfl⟩ := h; exact ⟨s.regs.links, s.regs.seqs, l, r, d, rfl⟩

theorem exec_lhRx_shape {l : Nat} {s t : State} (h : exec (.lhRx l) s = .next t) : State.LinksWritten s t := by
  simp only [exec, execLhRx] at h
  split at h
  · rw [eq_of_next_eq_next h]
    rcases s.linkRefresh_cases l with ⟨-, h2⟩ | ⟨-, h2⟩
    · rw [h2]; exact ⟨_, s.regs.seqs, [], .done, s.draws, by simp [State.setRet, State.putLink, State.setLinks, State.setRegs]; rfl⟩
    · rw [h2]; exact ⟨_, s.regs.seqs, _, .done, s.draws, rfl⟩
  · exact State.Returns.linksWritten (returns_of_raised h)

theorem exec_lhDisc_shape {l : Nat} {s t : State} (h : exec (.lhDisc l) s = .next t) : State.LinksWritten s t := by
  simp only [exec, execLhDisc] at h
  split at h
  · rw [eq_of_next_eq_next h]
    obtain ⟨v, hv⟩ := State.resetBoundCursor_shape (s.putLink l Link.down) l
    unfold State.linkDisconnect; rw [hv]
    split
    · exact ⟨_, v, _, .done, s.draws, rfl⟩
    · exact ⟨_, v, [], .done, s.draws, by simp [State.setRet, State.putLink, State.setLinks, State.setSeqs, State.setRegs]; rfl⟩
  · exact State.Returns.linksWritten (returns_of_raised h)

theorem exec_lhCheck_shape {l : Nat} {th} {s t : State} (h : exec (.lhCheck l th) s = .next t) : State.LinksWritten s
    t := by
  simp only [exec, execLhCheck] at h
  obtain ⟨n, hn⟩ := State.measured_shape s (s.link l).last
  rw [hn] at h
  split at h
  · split at h
    · rw [eq_of_next_eq_next h]
      unfold State.linkTimeout
      obtain ⟨v, hv⟩ := State.resetBoundCursor_shape (State.putLink { s with draws := n } l ⟨(State.link
          { s with draws := n } l).last, false⟩) l
      rw [hv]
      split
      · exact ⟨_, v, _, .timedOut true, n, rfl⟩
      · exact ⟨_, v, [], .timedOut true, n, by simp [State.setRet, State.putLink, State.setLinks, State.setSeqs, State.setRegs]; rfl⟩
    · rw [eq_of_next_eq_next h]
      exact ⟨s.regs.links, s.regs.seqs, [], .timedOut false, n, by simp [State.setRet]⟩
  · exact State.Returns.linksWritten (returns_of_raised h)

/-- Cursors, LOG, the response and the counter can differ. -/
def State.CursorsWritten (s t : State) : Prop := ∃ sq l r d, t =
    { s with regs := { s.regs with seqs := sq }, log := s.log ++ l, ret := r, draws := d }

theorem State.Returns.cursorsWritten {s t} (h : State.Returns s t) : State.CursorsWritten s t := by
  obtain ⟨l, r, d, rfl⟩ := h; exact ⟨s.regs.seqs, l, r, d, rfl⟩

theorem exec_seqAdv_shape {q : Nat} {s t : State} (h : exec (.seqAdv q) s = .next t) : State.CursorsWritten s t := by
  simp only [exec, execSeqAdv] at h
  split at h
  · rw [eq_of_next_eq_next h]; exact ⟨_, [], .done, s.draws, by simp [State.setRet, State.putSeq, State.setSeqs, State.setRegs]; rfl⟩
  · exact State.Returns.cursorsWritten (returns_of_raised h)

theorem exec_seqRst_shape {q : Nat} {s t : State} (h : exec (.seqRst q) s = .next t) : State.CursorsWritten s t := by
  simp only [exec, execSeqRst] at h
  split at h
  · rw [eq_of_next_eq_next h]; exact ⟨_, [], .done, s.draws, by simp [State.setRet, State.putSeq, State.setSeqs, State.setRegs]; rfl⟩
  · exact State.Returns.cursorsWritten (returns_of_raised h)

/-- The session, the transport's bookkeeping, LOG and the response can differ. -/
def State.SessionWritten (s t : State) : Prop := ∃ x a d se l r, t =
    { s with regs := { s.regs with xfer := x }, answers := a, draws := d, sent := s.sent ++ se, log := s.log ++ l, ret := r }

theorem State.Returns.sessionWritten {s t} (h : State.Returns s t) : State.SessionWritten s t := by
  obtain ⟨l, r, d, rfl⟩ := h; exact ⟨s.regs.xfer, s.answers, d, [], l, r, by simp⟩

theorem State.sessionWritten_refl (s) : State.SessionWritten s s := ⟨s.regs.xfer, s.answers, s.draws, [], [], s.ret, by simp⟩

theorem exec_xferStart_shape {b base seg tmo maxr} {s t : State} (h : exec (.xferStart b base seg tmo maxr) s = .next
    t) : State.SessionWritten s t := by
  simp only [exec, execXferStart] at h
  split at h
  · exact State.Returns.sessionWritten (returns_of_raised h)
  · split at h
    · exact State.Returns.sessionWritten (returns_of_raised h)
    · repeat' split at h
      · exact State.Returns.sessionWritten (returns_of_raised h)
      · exact State.Returns.sessionWritten (returns_of_raised h)
      · rw [eq_of_next_eq_next h]
        exact ⟨s.regs.xfer.started b base seg tmo maxr, s.answers, s.draws, [], [], .accepted, by simp [State.setRet, State.setXfer, State.setRegs]⟩

theorem exec_xferAbort_shape {s t : State} (h : exec .xferAbort s = .next t) : State.SessionWritten s t := by
  simp only [exec, execXferAbort] at h
  split at h
  · exact State.Returns.sessionWritten (returns_of_raised h)
  · rw [eq_of_next_eq_next h]
    exact ⟨{ s.regs.xfer with abort := true }, s.answers, s.draws, [], [], .done, by simp [State.setRet, State.setXfer, State.setRegs]⟩

theorem exec_xNext_shape {s t : State} (h : exec .xNext s = .next t) : State.SessionWritten s t := by
  simp only [exec, execXNext] at h
  repeat' split at h
  all_goals rw [eq_of_next_eq_next h]
  · exact ⟨_, s.answers, s.draws, [], _, s.ret, by simp [State.finish, State.setXfer, State.setRegs, State.pushLog]; exact ⟨rfl, rfl⟩⟩
  · exact ⟨_, s.answers, s.draws, [], _, s.ret, by simp [State.finish, State.setXfer, State.setRegs, State.pushLog]; exact ⟨rfl, rfl⟩⟩
  · exact ⟨_, s.answers, s.draws, [], [], s.ret, by simp [State.setXfer, State.setRegs]; rfl⟩
  · exact State.sessionWritten_refl s

theorem exec_xSend_shape {s t : State} (h : exec .xSend s = .next t) : State.SessionWritten s t := by
  simp only [exec, execXSend] at h
  obtain ⟨a, d, ha⟩ := State.afterSend_shape s s.chunkFrame
  rw [ha] at h
  repeat' split at h
  all_goals rw [eq_of_next_eq_next h]
  · exact ⟨_, a, d, _, [], s.ret, by simp [State.beginWait, State.setXfer, State.setRegs]; exact ⟨rfl, rfl⟩⟩
  · obtain ⟨x, l, h2⟩ := State.attemptFailed_shape (State.pushLog
        { s with answers := a, draws := d, sent := s.sent ++ [⟨s.chunkFrame, s.sendOk⟩] } (.txFail s.requestId))
    rw [h2]
    exact ⟨x, a, d, _, _, s.ret, by simp [State.pushLog]; exact ⟨rfl, rfl⟩⟩
  · exact State.sessionWritten_refl s

theorem exec_xTmo_shape {s t : State} (h : exec .xTmo s = .next t) : State.SessionWritten s t := by
  simp only [exec, execXTmo] at h
  obtain ⟨n, hn⟩ := State.measured_shape s s.regs.xfer.t0
  rw [hn] at h
  repeat' split at h
  all_goals rw [eq_of_next_eq_next h]
  · obtain ⟨x, l, h2⟩ := State.attemptFailed_shape (State.pushLog { s with draws := n } (.chunkTimeout s.regs.xfer.cur))
    rw [h2]
    exact ⟨x, s.answers, n, [], _, s.ret, by simp [State.pushLog]; rfl⟩
  · exact ⟨s.regs.xfer, s.answers, n, [], [], s.ret, by simp⟩
  · exact State.sessionWritten_refl s

/-- The head of RXQ is gone; records, links, the session and LOG can differ. -/
def State.FrameHandled (s t : State) : Prop := ∃ rc lk x l, t =
    { s with regs := { s.regs with recs := rc, links := lk, xfer := x }, rxq := s.rxq.tail, log := s.log ++ l }

theorem exec_rxFrame_shape {s t : State} (h : exec .rxFrame s = .next t) : State.FrameHandled s t := by
  simp only [exec, execRxFrame] at h
  split at h
  · rename_i hq
    rw [eq_of_next_eq_next h]
    refine ⟨s.regs.recs, s.regs.links, s.regs.xfer, [], ?_⟩
    rw [hq, List.tail_nil, ← hq, List.append_nil]
  · rename_i f rest hq
    split at h
    · cases h
    rw [eq_of_next_eq_next h]; unfold State.receive
    split
    · obtain ⟨x, l, h2⟩ := State.xferResponse_shape (s.setRxq rest) f
      rw [h2]; exact ⟨s.regs.recs, s.regs.links, x, l, by rw [hq]; rfl⟩
    · obtain ⟨r, lk, l, h2⟩ := State.dispatchTelemetry_shape (s.setRxq rest) f
      rw [h2]; exact ⟨r, lk, s.regs.xfer, l, by rw [hq]; rfl⟩

/-- RX_FRAME takes the head of RXQ and leaves the rest (R170). -/
theorem exec_rxFrame_rxq {s t : State} (h : exec .rxFrame s = .next t) : t.rxq = s.rxq.tail := by
  obtain ⟨rc, lk, x, l, rfl⟩ := exec_rxFrame_shape h
  rfl

/-- The peer's identifier and RXQ can differ. -/
def State.BusMoved (s t : State) : Prop := ∃ hd q, t = { s with head := hd, rxq := q }

theorem State.busMoved_putHead (s id e) : State.BusMoved s (s.putHead id e) := ⟨⟨id, e⟩, s.rxq, rfl⟩

theorem State.busMoved_putData (s p) : State.BusMoved s (s.putData p) := by
  unfold State.putData
  rcases s.deliver_cases ⟨s.head.id, s.head.ext, p⟩ with ⟨-, h⟩ | ⟨-, h⟩
  · rw [h]; exact ⟨s.head, _, rfl⟩
  · rw [h]; exact ⟨s.head, s.rxq, rfl⟩

/-! ### Everything an instruction can do -/

/-- The shape of the state every instruction leaves. -/
theorem exec_cases {i : Instr} {s t : State} (h : exec i s = .next t) :
    (isPureRead i = true ∧ State.Returns s t)
    ∨ ((∃ c seg pr, i = .txRecord c seg pr) ∧ (State.Returns s t ∨ ∃ f a d l r, f.ext = false ∧ t =
        { s with answers := a, draws := d, sent := s.sent ++ [⟨f, s.sendOk⟩], log := s.log ++ l, ret := r }))
    ∨ (((∃ l, i = .lhRx l) ∨ (∃ l th, i = .lhCheck l th) ∨ (∃ l, i = .lhDisc l)) ∧ State.LinksWritten s t)
    ∨ (((∃ q, i = .seqAdv q) ∨ (∃ q, i = .seqRst q)) ∧ State.CursorsWritten s t)
    ∨ (((∃ b base seg tmo maxr, i = .xferStart b base seg tmo maxr) ∨ i = .xferAbort ∨ i = .xNext ∨ i = .xSend ∨ i =
        .xTmo) ∧ State.SessionWritten s t)
    ∨ (i = .rxFrame ∧ State.FrameHandled s t)
    ∨ ((∃ m, i = .segSet m) ∧ ∃ m, t = { s with regs := { s.regs with segEn := m }, ret := .done })
    ∨ (i = .softReset ∧ t = { s with regs := Regs.reset, ret := .done })
    ∨ (i = .tick ∧ ∃ n, t = { s with time := n })
    ∨ State.BusMoved s t := by
  cases i with
  | txRecord => exact .inr (.inl ⟨⟨_, _, _, rfl⟩, exec_txRecord_shape h⟩)
  | lhRx l => exact .inr (.inr (.inl ⟨.inl ⟨_, rfl⟩, exec_lhRx_shape h⟩))
  | lhCheck => exact .inr (.inr (.inl ⟨.inr (.inl ⟨_, _, rfl⟩), exec_lhCheck_shape h⟩))
  | lhDisc => exact .inr (.inr (.inl ⟨.inr (.inr ⟨_, rfl⟩), exec_lhDisc_shape h⟩))
  | seqAdv => exact .inr (.inr (.inr (.inl ⟨.inl ⟨_, rfl⟩, exec_seqAdv_shape h⟩)))
  | seqRst => exact .inr (.inr (.inr (.inl ⟨.inr ⟨_, rfl⟩, exec_seqRst_shape h⟩)))
  | xferStart => exact .inr (.inr (.inr (.inr (.inl ⟨.inl ⟨_, _, _, _, _, rfl⟩, exec_xferStart_shape h⟩))))
  | xferAbort => exact .inr (.inr (.inr (.inr (.inl ⟨.inr (.inl rfl), exec_xferAbort_shape h⟩))))
  | xNext => exact .inr (.inr (.inr (.inr (.inl ⟨.inr (.inr (.inl rfl)), exec_xNext_shape h⟩))))
  | xSend => exact .inr (.inr (.inr (.inr (.inl ⟨.inr (.inr (.inr (.inl rfl))), exec_xSend_shape h⟩))))
  | xTmo => exact .inr (.inr (.inr (.inr (.inl ⟨.inr (.inr (.inr (.inr rfl))), exec_xTmo_shape h⟩))))
  | rxFrame => exact .inr (.inr (.inr (.inr (.inr (.inl ⟨rfl, exec_rxFrame_shape h⟩)))))
  | segSet m => exact .inr (.inr (.inr (.inr (.inr (.inr (.inl ⟨⟨_, rfl⟩, _, eq_of_next_eq_next h⟩))))))
  | softReset => exact .inr (.inr (.inr (.inr (.inr (.inr (.inr (.inl ⟨rfl, eq_of_next_eq_next h⟩)))))))
  | tick => exact .inr (.inr (.inr (.inr (.inr (.inr (.inr (.inr (.inl ⟨rfl, _, eq_of_next_eq_next h⟩))))))))
  | fTelem => exact .inr (.inr (.inr (.inr (.inr (.inr (.inr (.inr (.inr (by rw [eq_of_next_eq_next h]; exact State.busMoved_putHead _ _ _)))))))))
  | fXreq => exact .inr (.inr (.inr (.inr (.inr (.inr (.inr (.inr (.inr (by rw [eq_of_next_eq_next h]; exact State.busMoved_putHead _ _ _)))))))))
  | fXrsp => exact .inr (.inr (.inr (.inr (.inr (.inr (.inr (.inr (.inr (by rw [eq_of_next_eq_next h]; exact State.busMoved_putHead _ _ _)))))))))
  | pFields => exact .inr (.inr (.inr (.inr (.inr (.inr (.inr (.inr (.inr (by rw [eq_of_next_eq_next h]; exact State.busMoved_putData _ _)))))))))
  | pAck => exact .inr (.inr (.inr (.inr (.inr (.inr (.inr (.inr (.inr (by rw [eq_of_next_eq_next h]; exact State.busMoved_putData _ _)))))))))
  | pAckAck => exact .inr (.inr (.inr (.inr (.inr (.inr (.inr (.inr (.inr (by rw [eq_of_next_eq_next h]; exact State.busMoved_putData _ _)))))))))
  | pAckNack => exact .inr (.inr (.inr (.inr (.inr (.inr (.inr (.inr (.inr (by rw [eq_of_next_eq_next h]; exact State.busMoved_putData _ _)))))))))
  | pChunk => exact .inr (.inr (.inr (.inr (.inr (.inr (.inr (.inr (.inr (by rw [eq_of_next_eq_next h]; exact State.busMoved_putData _ _)))))))))
  | decode c p => exact .inl ⟨rfl, exec_decode_returns _ _ h⟩
  | encode => exact .inl ⟨rfl, exec_encode_returns _ _ h⟩
  | rangechk => exact .inl ⟨rfl, exec_rangechk_returns _ _ h⟩
  | ackpack => exact .inl ⟨rfl, exec_ackpack_returns _ _ _ h⟩
  | ackunpack => exact .inl ⟨rfl, exec_ackunpack_returns _ h⟩
  | resolve => exact .inl ⟨rfl, exec_resolve_returns _ _ h⟩
  | classify => exact .inl ⟨rfl, exec_classify_returns _ _ h⟩
  | xidReq => exact .inl ⟨rfl, exec_xidReq_returns _ _ _ h⟩
  | xidRsp => exact .inl ⟨rfl, exec_xidRsp_returns _ _ _ h⟩
  | xidParse => exact .inl ⟨rfl, exec_xidParse_returns _ _ h⟩
  | lhElapsed => exact .inl ⟨rfl, exec_lhElapsed_returns _ h⟩
  | lhStat => exact .inl ⟨rfl, exec_lhStat_returns _ h⟩
  | seqCur => exact .inl ⟨rfl, exec_seqCur_returns _ h⟩
  | xferStat => exact .inl ⟨rfl, exec_xferStat_returns h⟩
  | recRead => exact .inl ⟨rfl, exec_recRead_returns _ _ h⟩
  | segGet => exact .inl ⟨rfl, exec_segGet_returns h⟩

/-- What no instruction writes, and what only grows. -/
theorem exec_kept {i : Instr} {s t : State} (h : exec i s = .next t) : t.cfg = s.cfg ∧ (∃ new, t.log = s.log ++ new)
    ∧ (∃ more, t.sent = s.sent ++ more) ∧ t.inputs = s.inputs := by
  have e1 : ∃ new, s.log = s.log ++ new := ⟨[], by simp⟩
  have e2 : ∃ new, s.sent = s.sent ++ new := ⟨[], by simp⟩
  rcases exec_cases h with ⟨-, l, r, d, rfl⟩ | ⟨-, ⟨l, r, d, rfl⟩ | ⟨f, a, d, l, r, -, rfl⟩⟩ | ⟨hi, lk, sq, l, r, d,
      rfl⟩ | ⟨hi, sq, l, r, d, rfl⟩ | ⟨hi, x, a, d, se, l, r, rfl⟩ | ⟨hi, rc, lk, x, l, rfl⟩ | ⟨hi, m, rfl⟩ | ⟨hi,
      rfl⟩ | ⟨hi, n, rfl⟩ | ⟨hd, q, rfl⟩
  all_goals exact ⟨rfl, by first | exact e1 | exact ⟨_, rfl⟩, by first | exact e2 | exact ⟨_, rfl⟩, rfl⟩

end Sys2Proof.Machine
end

