-- ==== Sys2Proof/Laws/Invariant.lean ====
section
/-!
SUPPORT. The shared operations keep the invariant.
-/

namespace Sys2Proof.Machine

/-- What the invariant speaks of is unchanged. -/
theorem State.Inv.of_kept {s t : State} (h : s.Inv) (h1 : t.cfg = s.cfg) (h2 : t.regs = s.regs) (h3 : t.time =
    s.time) (h6 : t.timerOk = s.timerOk) (h4 : t.rxq = s.rxq) (h5 : t.head = s.head) : t.Inv := by
  obtain ⟨a, b, c, d, e, f, g, i, j, k⟩ := h
  constructor
  · rw [h1]; exact a
  · rw [h2]; exact b
  · rw [h2]; exact c
  · simp only [State.seqIndex, State.playlist, h1, h2] at *; exact d
  · rw [h2]; exact e
  · rw [h2]; exact f
  · rw [h1, h2]; exact g
  · simp only [State.record, h1, h2] at *; exact i
  · simp only [State.link, h1, h2, h3, h6] at *; exact j
  · rw [h4, h5]; exact k

theorem State.Inv.returns {s t : State} (h : s.Inv) (hp : State.Returns s t) : t.Inv := by
  obtain ⟨l, r, d, rfl⟩ := hp; exact State.Inv.of_kept h rfl rfl rfl rfl rfl rfl

theorem State.Inv.pushLog {s : State} (h : s.Inv) (e) : (s.pushLog e).Inv := State.Inv.of_kept h rfl rfl rfl rfl rfl rfl

theorem State.Inv.setRet {s : State} (h : s.Inv) (r) : (s.setRet r).Inv := State.Inv.of_kept h rfl rfl rfl rfl rfl rfl

theorem State.Inv.drawn {s : State} (h : s.Inv) (n) : ({ s with draws := n } : State).Inv := State.Inv.of_kept h rfl
    rfl rfl rfl rfl rfl

/-- A write of a link keeps the invariant when its snapshot was taken of the timer. -/
theorem State.Inv.putLink {s : State} (h : s.Inv) (l : Nat) (v : Link) (hv : s.timerOk = true →
    v.last.ticks.toNat < s.cfg.period) :
    (s.putLink l v).Inv := by
  obtain ⟨a, b, c, d, e, f, g, i, j, k⟩ := h
  refine ⟨a, ⟨b.1, b.2.1, Sparse.wf_put b.2.2.1 _ _, b.2.2.2⟩, c, d, e, f, g, i, fun o => ⟨(j o).1, (j o).2.1, fun l' => ?_⟩, k⟩
  rw [State.link_putLink]; split
  · exact hv o
  · exact (j o).2.2 l'

/-- A write of a cursor keeps it when the index is in the playlist. -/
theorem State.Inv.putSeq {s : State} (h : s.Inv) (q : Nat) (v : Byte) (hv : q < s.cfg.nSeq → v.toNat < (s.playlist
    q).states.length) : (s.putSeq q v).Inv := by
  obtain ⟨a, b, c, d, e, f, g, i, j, k⟩ := h
  refine ⟨a, ⟨b.1, b.2.1, b.2.2.1, Sparse.wf_put b.2.2.2 _ _⟩, c, fun q' hq' => ?_, e, f, g, i, j, k⟩
  rw [State.seqIndex_putSeq]; split
  · rename_i he; subst he; exact hv hq'
  · exact d q' hq'

theorem State.Inv.playlist_pos {s : State} (h : s.Inv) {q : Nat} (hq : q < s.cfg.nSeq) : 0 < (s.playlist
    q).states.length := by
  have := h.cursors q hq; omega

theorem State.Inv.putSeq_zero {s : State} (h : s.Inv) (q : Nat) : (s.putSeq q 0).Inv := State.Inv.putSeq h q 0 (fun
    hq => State.Inv.playlist_pos h hq)

theorem State.Inv.resetBoundCursor {s : State} (h : s.Inv) (l : Nat) : (s.resetBoundCursor l).Inv := by
  rcases State.resetBoundCursor_cases s l with ⟨q, -, h2⟩ | ⟨-, h2⟩
  · rw [h2]; exact State.Inv.putSeq_zero h q
  · rw [h2]; exact h

theorem State.Inv.linkRefresh {s : State} (h : s.Inv) (l : Nat) : (s.linkRefresh l).Inv := by
  rcases s.linkRefresh_cases l with ⟨-, h2⟩ | ⟨-, h2⟩ <;> rw [h2]
  · exact State.Inv.putLink h _ _ (fun o => (h.clock o).1)
  · exact State.Inv.pushLog (State.Inv.putLink h _ _ (fun o => (h.clock o).1)) _

/-- A write of the session keeps it under R38 (b), (c). -/
theorem State.Inv.setXfer {s : State} (h : s.Inv) (x : Xfer) (hc : Memory.wf x.buf) (hb : ∀ c ∈ x.buf, c.1 < x.len)
   (hs : x.st ≠ .idle → x.cur ≤ x.total ∧ x.total = ceilDiv x.len Config.chunkSize ∧ x.len ≤ Config.xferMaxBytes ∧
       xferIdWF x.base x.seg.toNat = true)
   (ha : x.st = .send ∨ x.st = .wait → x.cur < x.total ∧ x.att ≤ x.maxr.toNat) (ht : s.timerOk = true → x.t0.ticks.toNat < s.cfg.period)
       : (s.setXfer x).Inv := by
  obtain ⟨a, b, c, d, e, f, g, i, j, k⟩ := h
  exact ⟨a, ⟨hc, b.2⟩, hb, d, hs, ha, g, i, fun o => ⟨(j o).1, ht o, (j o).2.2⟩, k⟩

theorem State.Inv.finish {s : State} (h : s.Inv) (r) : (s.finish r).Inv := 
  State.Inv.pushLog (State.Inv.setXfer h { s.regs.xfer with result := r, st := .idle, abort := false } h.canon.1 h.buffer (fun h => absurd rfl h) (fun h => by rcases h with h | h <;> cases h) (fun o => (h.clock o).2.1)) _

theorem State.Inv.attemptFailed {s : State} (h : s.Inv) (hs : s.regs.xfer.st = .send ∨ s.regs.xfer.st = .wait) :
    s.attemptFailed.Inv := by
  have hne : s.regs.xfer.st ≠ .idle := by rcases hs with h | h <;> rw [h] <;> decide
  rcases s.attemptFailed_cases with ⟨h1, h2⟩ | ⟨h1, h2⟩ <;> rw [h2]
  · exact State.Inv.setXfer h _ h.canon.1 h.buffer (fun _ => h.session hne) (fun _ => ⟨(h.attempts hs).1, h1⟩)
        (fun o => (h.clock o).2.1)
  · refine State.Inv.pushLog (s := State.setXfer s { s.regs.xfer with att := s.regs.xfer.att + 1, result := .failed s.regs.xfer.cur s.regs.xfer.maxr, st := .idle, abort := false }) (State.Inv.setXfer h _ h.canon.1 h.buffer (fun h => absurd rfl h) (fun h => by rcases h with h | h <;> cases h) (fun o => (h.clock o).2.1)) _

theorem State.Inv.xferResponse {s : State} (h : s.Inv) (f : Frame) (hw : s.regs.xfer.st = .wait) : (s.xferResponse
    f).Inv := by
  have hne : s.regs.xfer.st ≠ .idle := by rw [hw]; decide
  rcases s.xferResponse_cases f with ⟨a, -, -, -, h2⟩ | ⟨a, -, -, h2⟩ | h2 <;> rw [h2]
  · have h3 := h.session hne
    have h4 := (h.attempts (.inr hw)).1
    exact State.Inv.setXfer (State.Inv.pushLog h _) _ h.canon.1 h.buffer (fun _ => ⟨h4, h3.2⟩) (fun h => by rcases h with h | h <;> cases h) (fun o => (h.clock o).2.1)
  · exact State.Inv.attemptFailed (State.Inv.pushLog h _) (.inr hw)
  · exact State.Inv.pushLog h _

theorem State.Inv.dispatchTelemetry {s : State} (h : s.Inv) (f : Frame) : (s.dispatchTelemetry f).Inv := by
  rcases s.dispatchTelemetry_cases f with h2 | ⟨c, seg, k, hc, hk, h2⟩ <;> rw [h2]
  · exact State.Inv.pushLog h _
  · have hu := (classifyId_eq_some _ _ _ _ _ _).mp hc
    obtain ⟨-, ⟨k', hk', hd, -, hs, -⟩, -⟩ := hu
    rw [hk] at hk'; cases hk'
    unfold State.acceptRecord
    split
    · rename_i hr
      have hw : (s.recWrite c seg (decodeRecord k.table f.data)).Inv := by
        obtain ⟨a, b, c', d, e, f', g, i, j, k'⟩ := h
        refine ⟨a, ⟨b.1, RecStore.wf_put b.2.1 _ _ _, b.2.2⟩, c', d, e, f', g, fun c1 s1 r1 hr1 => ?_, j, k'⟩
        rw [State.record_recWrite] at hr1
        split at hr1
        · rename_i he; obtain ⟨rfl, rfl⟩ := he
          cases hr1
          exact ⟨k, hk, hd, hs, by rw [decodeRecord_eq_recordOf]; exact recordTyped_recordOf _ _, hr⟩
        · exact i c1 s1 r1 hr1
      unfold State.refreshLinkOf
      split
      · exact State.Inv.linkRefresh hw _
      · exact hw
    · exact State.Inv.pushLog h _

theorem State.Inv.deliver {s : State} (h : s.Inv) (f : Frame) : (s.deliver f).Inv := by
  rcases s.deliver_cases f with ⟨hw, h2⟩ | ⟨-, h2⟩ <;> rw [h2]
  · obtain ⟨a, b, c, d, e, f', g, i, j, k⟩ := h
    refine ⟨a, b, c, d, e, f', g, i, j, fun x hx => ?_, k.2⟩
    rcases List.mem_append.mp hx with hx | hx
    · exact k.1 x hx
    · simp at hx; subst hx; exact hw
  · exact h

theorem State.Inv.resetBlock {s : State} (h : s.Inv) : (s.setRegs Regs.reset).Inv := by
  obtain ⟨a, b, c, d, e, f, g, i, j, k⟩ := h
  have hp : 0 < s.cfg.period := a.2.2.2.2.2.2.2.1
  have hc : Memory.wf Regs.reset.xfer.buf ∧ RecStore.wf Regs.reset.recs ∧ Sparse.wf Link.down Regs.reset.links ∧ Sparse.wf (0 : Byte) Regs.reset.seqs := by decide
  refine ⟨a, hc, by simp [State.setRegs, Regs.reset, Xfer.reset], ?_, fun h => absurd rfl h, ?_, ?_, ?_, fun o => ⟨(j o).1, hp, fun l => hp⟩, k⟩
  · intro q hq; have := d q hq; show 0 < _; exact Nat.lt_of_le_of_lt (Nat.zero_le _) this
  · rintro (h | h) <;> cases h
  · show 0 < _; positivity
  · intro c seg r h; cases h

/-- A timer that breaks its contract keeps the invariant, which then says nothing of the clock. -/
theorem State.Inv.breakTime {s : State} (h : s.Inv) (t : Stamp) : (s.breakTime t).Inv := by
  obtain ⟨a, b, c, d, e, f, g, i, -, k⟩ := h
  exact ⟨a, b, c, d, e, f, g, i, (fun o => by cases o), k⟩

theorem State.Inv.putHead {s : State} (h : s.Inv) (id e) (hh : e = true ∨ id.toNat ≤ Config.stdIdMax) : (s.putHead id
    e).Inv := by
  obtain ⟨a, b, c, d, e', f, g, i, j, k⟩ := h
  exact ⟨a, b, c, d, e', f, g, i, j, k.1, hh⟩

end Sys2Proof.Machine
end

