-- ==== Sys2Proof/Laws/PerInstr.lean ====
section
/-!
SUPPORT. Per instruction: the words of an operation begin with its code of R106, and a format row is a word of
the bus.
-/

namespace Sys2Proof.Laws.Opcode

/-- The words of an instruction begin with the code 30_encoding.md R106 gives it; a format row has no code and is
a word of the bus. -/
def Statement (i : Instr) : Prop :=
  match i.code with
  | some code => ∃ ops, encode i = .cmd (code :: ops)
  | none => ∃ fmt bs, encode i = .bus fmt bs

theorem decode (c : Nat) (p : List Byte) : Statement (.decode c p) := ⟨_, rfl⟩
theorem encode (c : Nat) (pr : PhysRecord) : Statement (.encode c pr) := ⟨_, rfl⟩
theorem rangechk (c : Nat) (r : Record) : Statement (.rangechk c r) := ⟨_, rfl⟩
theorem ackpack (status k : Byte) (ck : BitVec 16) : Statement (.ackpack status k ck) := ⟨_, rfl⟩
theorem ackunpack (p : List Byte) : Statement (.ackunpack p) := ⟨_, rfl⟩
theorem resolve (c seg : Nat) : Statement (.resolve c seg) := ⟨_, rfl⟩
theorem classify (id : BitVec 29) (ext : Bool) : Statement (.classify id ext) := ⟨_, rfl⟩
theorem xidReq (base : BitVec 29) (k : Byte) (seg : Nat) : Statement (.xidReq base k seg) := ⟨_, rfl⟩
theorem xidRsp (base : BitVec 29) (k : Byte) (seg : Nat) : Statement (.xidRsp base k seg) := ⟨_, rfl⟩
theorem xidParse (id base : BitVec 29) : Statement (.xidParse id base) := ⟨_, rfl⟩
theorem txRecord (c seg : Nat) (pr : PhysRecord) : Statement (.txRecord c seg pr) := ⟨_, rfl⟩
theorem lhElapsed (l : Nat) : Statement (.lhElapsed l) := ⟨_, rfl⟩
theorem lhRx (l : Nat) : Statement (.lhRx l) := ⟨_, rfl⟩
theorem lhCheck (l : Nat) (threshold : BitVec 32) : Statement (.lhCheck l threshold) := ⟨_, rfl⟩
theorem lhDisc (l : Nat) : Statement (.lhDisc l) := ⟨_, rfl⟩
theorem lhStat (l : Nat) : Statement (.lhStat l) := ⟨_, rfl⟩
theorem seqAdv (q : Nat) : Statement (.seqAdv q) := ⟨_, rfl⟩
theorem seqCur (q : Nat) : Statement (.seqCur q) := ⟨_, rfl⟩
theorem seqRst (q : Nat) : Statement (.seqRst q) := ⟨_, rfl⟩
theorem xferStart (b : List Byte) (base : BitVec 29) (seg : Nat) (tmo : BitVec 32) (maxr : Byte) : Statement (.xferStart b base seg tmo maxr) := ⟨_, rfl⟩
theorem xferAbort : Statement (.xferAbort) := ⟨_, rfl⟩
theorem xferStat : Statement (.xferStat) := ⟨_, rfl⟩
theorem segSet (mask : Byte) : Statement (.segSet mask) := ⟨_, rfl⟩
theorem recRead (c seg : Nat) : Statement (.recRead c seg) := ⟨_, rfl⟩
theorem segGet : Statement (.segGet) := ⟨_, rfl⟩
theorem softReset : Statement (.softReset) := ⟨_, rfl⟩
theorem rxFrame : Statement (.rxFrame) := ⟨_, rfl⟩
theorem xNext : Statement (.xNext) := ⟨_, rfl⟩
theorem xSend : Statement (.xSend) := ⟨_, rfl⟩
theorem xTmo : Statement (.xTmo) := ⟨_, rfl⟩
theorem tick : Statement (.tick) := ⟨_, rfl⟩
theorem fTelem (id : BitVec 11) : Statement (.fTelem id) := ⟨_, _, rfl⟩
theorem fXreq (b : BitVec 13) (k : Byte) (seg : BitVec 3) : Statement (.fXreq b k seg) := ⟨_, _, rfl⟩
theorem fXrsp (b : BitVec 13) (k : Byte) (seg : BitVec 3) : Statement (.fXrsp b k seg) := ⟨_, _, rfl⟩
theorem pFields (p : List Byte) : Statement (.pFields p) := ⟨_, _, rfl⟩
theorem pAck (status k : Byte) (ck : BitVec 16) (rest : List Byte) : Statement (.pAck status k ck rest) := ⟨_, _, rfl⟩
theorem pAckAck (k : Byte) (ck : BitVec 16) (rest : List Byte) : Statement (.pAckAck k ck rest) := ⟨_, _, rfl⟩
theorem pAckNack (k : Byte) (ck : BitVec 16) (rest : List Byte) : Statement (.pAckNack k ck rest) := ⟨_, _, rfl⟩
theorem pChunk (p : List Byte) : Statement (.pChunk p) := ⟨_, _, rfl⟩

end Sys2Proof.Laws.Opcode
end

