-- ==== Sys2Proof/Machine/Pseudo.lean ====
section
/-!
DEFINITION. The pseudo-operations of 30_encoding.md R109: compositions the host makes of the operations. None of
them is an operation of its own.
-/

namespace Sys2Proof.Machine

/-- Operations taken one after another, stopping at the first refusal. -/
def runAll : List Instr → State → Host.Outcome State Fault Refusal
  | [], s => .next s
  | i :: rest, s =>
    match exec i s with
    | .next t => runAll rest t
    | .fault r => .fault r
    | .refused r => .refused r

/-- `SEQ_EMIT q, c, s, rec, field` (R109): the current state value of cursor `q` becomes the physical value of entry
`field`, and the record is sent. -/
def seqEmit (q c seg : Nat) (pr : PhysRecord) (field : Nat) (s : State) : Host.Outcome State Fault Refusal :=
  match exec (.seqCur q) s with
  | .next t =>
    match t.ret with
    | .stateValue v => exec (.txRecord c seg (pr.set field (v.toNat : Q))) t
    | _ => .next t
  | .fault r => .fault r
  | .refused r => .refused r

/-- `LH_CHECK_ALL th` (R109): every link, in ascending order. -/
def lhCheckAll (threshold : BitVec 32) (s : State) : Host.Outcome State Fault Refusal :=
  runAll ((List.range s.cfg.nLinks).map fun l => .lhCheck l threshold) s

/-- One move of an agent or of the environment, made while a composition is under way (R19, R316). -/
def takeMove (inp : Input) (s : State) : Host.Outcome State Fault Refusal := step (s.setInputs (inp :: s.inputs))

/-- Moves one after another, stopping at the first refusal. -/
def takeMoves : List Input → State → Host.Outcome State Fault Refusal
  | [], s => .next s
  | inp :: rest, s =>
    match takeMove inp s with
    | .next t => takeMoves rest t
    | .fault r => .fault r
    | .refused r => .refused r

/-- `RX_DRAIN` (R109): RXQ is tested before each turn, and the drain is over when it is empty at that moment; a turn
is one RX_FRAME, and then the moves the others make before the next test, the next list of `turns`. A frame the peer
places meanwhile is drained too. None while frames outlast the turns (DESIGN CHOICE, log entry 26). -/
def rxDrain : List (List Input) → State → Option (Host.Outcome State Fault Refusal)
  | [], s => if s.rxq = [] then some (.next s) else none
  | meanwhile :: turns, s =>
    if s.rxq = [] then some (.next s)
    else
      match exec .rxFrame s with
      | .next t =>
        match takeMoves meanwhile t with
        | .next u => rxDrain turns u
        | .fault r => some (.fault r)
        | .refused r => some (.refused r)
      | .fault r => some (.fault r)
      | .refused r => some (.refused r)

/-- XFER_RUN after its XFER_START (R109): the given moves are made until `S.XS = X_IDLE`, then XFER_STAT answers.
They are the steps of the receive path and the transfer engine, the environment's, and the other commands the host
may issue meanwhile, XFER_ABORT among them (R334). None while the session outlasts the moves (DESIGN CHOICE, log
entry 26). -/
def xferRunFrom : List Input → State → Option (Host.Outcome State Fault Refusal)
  | [], s => if s.regs.xfer.st = .idle then some (exec .xferStat s) else none
  | inp :: moves, s =>
    if s.regs.xfer.st = .idle then some (exec .xferStat s)
    else
      match takeMove inp s with
      | .next t => xferRunFrom moves t
      | .fault r => some (.fault r)
      | .refused r => some (.refused r)

/-- `XFER_RUN args` (R109): XFER_START; the moves until `S.XS = X_IDLE`; XFER_STAT. All three are always made: an
XFER_START that is not accepted leaves its outcome in LOG, and the session there is, if any, runs to its end. -/
def xferRun (b : List Byte) (base : BitVec 29) (seg : Nat) (tmo : BitVec 32) (maxr : Byte) (moves : List Input)
    (s : State) : Option (Host.Outcome State Fault Refusal) :=
  match exec (.xferStart b base seg tmo maxr) s with
  | .next t => xferRunFrom moves t
  | .fault r => some (.fault r)
  | .refused r => some (.refused r)

end Sys2Proof.Machine
end

