-- ==== Sys2Proof/Laws/Pseudo.lean ====
section
/-!
SUPPORT. What the compositions RX_DRAIN and XFER_RUN of R109 end with, whatever moves the others make meanwhile.
-/

namespace Sys2Proof.Machine

/-- A drain that is over, is over at an empty RXQ. -/
theorem rxDrain_empties {turns : List (List Input)} {s t : State} (h : rxDrain turns s = some (.next t)) :
    t.rxq = [] := by
  induction turns generalizing s with
  | nil =>
    simp only [rxDrain] at h
    split at h
    · rename_i hq; cases h; exact hq
    · cases h
  | cons meanwhile turns ih =>
    simp only [rxDrain] at h
    split at h
    · rename_i hq; cases h; exact hq
    · split at h
      · split at h
        · exact ih h
        · cases h
        · cases h
      · cases h
      · cases h

/-- Where nobody else moves, a drain is one RX_FRAME for each frame RXQ held. -/
theorem rxDrain_quiet (s : State) :
    rxDrain (List.replicate s.rxq.length []) s = some (runAll (List.replicate s.rxq.length .rxFrame) s) := by
  generalize hn : s.rxq.length = n
  induction n generalizing s with
  | zero => simp [rxDrain, runAll, List.length_eq_zero_iff.mp hn]
  | succ n ih =>
    have hne : s.rxq ≠ [] := by intro h; simp [h] at hn
    simp only [List.replicate_succ, rxDrain, runAll, hne, if_false]
    split
    · rename_i t ht
      simp only [takeMoves]
      exact ih t (by rw [exec_rxFrame_rxq ht, List.length_tail, hn]; rfl)
    · rfl
    · rfl

/-- XFER_RUN that is over, is over with no session, and the host has XFER_STAT's answer. -/
theorem xferRunFrom_reports {moves : List Input} {s t : State} (h : xferRunFrom moves s = some (.next t)) :
    ∃ u, u.regs.xfer.st = .idle ∧ exec .xferStat u = .next t := by
  induction moves generalizing s with
  | nil =>
    simp only [xferRunFrom] at h
    split at h
    · rename_i hi; exact ⟨s, hi, Option.some.inj h⟩
    · cases h
  | cons inp moves ih =>
    simp only [xferRunFrom] at h
    split at h
    · rename_i hi; exact ⟨s, hi, Option.some.inj h⟩
    · split at h
      · exact ih h
      · cases h
      · cases h

/-- The same of XFER_RUN as a whole, accepted or not. -/
theorem xferRun_reports {b : List Byte} {base : BitVec 29} {seg : Nat} {tmo : BitVec 32} {maxr : Byte}
    {moves : List Input} {s t : State} (h : xferRun b base seg tmo maxr moves s = some (.next t)) :
    ∃ u, u.regs.xfer.st = .idle ∧ exec .xferStat u = .next t := by
  simp only [xferRun] at h
  split at h
  · exact xferRunFrom_reports h
  · cases h
  · cases h

/-- With a session under way XFER_START is busy, and XFER_RUN waits for that session (R244). -/
theorem xferRun_busy {s : State} (h : s.regs.xfer.st ≠ .idle) (b : List Byte) (base : BitVec 29) (seg : Nat)
    (tmo : BitVec 32) (maxr : Byte) (moves : List Input) :
    xferRun b base seg tmo maxr moves s = xferRunFrom moves (s.raise .xferBusy) := by
  simp [xferRun, exec, execXferStart, h, raised]

end Sys2Proof.Machine
end

