-- ==== Sys2Proof/Laws/Step.lean ====
section
/-!
SUPPORT. What a step can be, once: no agent moves, a move without an instruction is over, or an instruction runs.
-/

namespace Sys2Proof.Machine

/-- Every step is one of: nothing to do; an instruction of the next input, run on the state without that input; a
rejected command; a move of the environment. -/
theorem step_cases (s : State) :
    (s.inputs = [] ∧ step s = .next s)
    ∨ (∃ inp rest, s.inputs = inp :: rest ∧
      ((∃ i, fetchInput inp (s.setInputs rest) = .run i (s.setInputs rest) ∧ step s = exec i (s.setInputs rest))
      ∨ (step s = .next (s.setInputs rest))
      ∨ (∃ e, step s = .next ((s.setInputs rest).raise e))
      ∨ (∃ f, inp = .enqueue f ∧ step s = .next ((s.setInputs rest).deliver f))
      ∨ (∃ a, inp = .sendAnswer a ∧ step s = .next ((s.setInputs rest).setAnswers (s.answers ++ [a])))
      ∨ (∃ t, inp = .mistime t ∧ step s = .next ((s.setInputs rest).breakTime t))
      ∨ (inp = .resetInput ∧ step s = .next (s.setInputs rest).resetBlock))) := by
  unfold step fetch
  split
  · rename_i i s' h
    split at h
    · cases h
    · rename_i inp rest hin
      refine .inr ⟨inp, rest, hin, .inl ⟨i, ?_⟩⟩
      have : s' = s.setInputs rest := by
        cases inp <;> simp only [fetchInput, fetchHost, fetchAgent, fetchPeer] at h
        all_goals repeat' (split at h)
        all_goals cases h
        all_goals rfl
      subst this
      exact ⟨h, rfl⟩
  · rename_i s' h
    split at h
    · rename_i hin; cases h; exact .inl ⟨hin, rfl⟩
    · rename_i inp rest hin
      refine .inr ⟨inp, rest, hin, .inr ?_⟩
      cases inp with
      | host bytes =>
        simp only [fetchInput, fetchHost] at h
        split at h
        · cases h; exact .inl rfl
        · split at h
          · split at h
            · cases h
            · rename_i e he
              cases h
              cases e with
              | noCode => exact .inl rfl
              | badCommand c => exact .inr (.inl ⟨_, rfl⟩)
              | badOperand c =>
                right; left
                simp only [State.rejectCommand]
                split
                · exact ⟨_, rfl⟩
                · exact ⟨_, rfl⟩
              | badBusWord b => exact .inl rfl
          · cases h; exact .inr (.inl ⟨_, rfl⟩)
      | agent bytes =>
        simp only [fetchInput, fetchAgent] at h
        repeat' (split at h)
        all_goals cases h
        all_goals exact .inl rfl
      | peer fmt bytes =>
        simp only [fetchInput, fetchPeer] at h
        split at h
        · cases h
        · cases h; exact .inl rfl
      | enqueue f => cases h; exact .inr (.inr (.inl ⟨f, rfl, rfl⟩))
      | sendAnswer a => cases h; exact .inr (.inr (.inr (.inl ⟨a, rfl, rfl⟩)))
      | mistime t => cases h; exact .inr (.inr (.inr (.inr (.inl ⟨t, rfl, rfl⟩))))
      | resetInput => cases h; exact .inr (.inr (.inr (.inr (.inr ⟨rfl, rfl⟩))))

set_option maxRecDepth 4000 in
/-- A code that is no host command's is rejected by its name (R298). -/
theorem decodeCmd_of_not_hostCode (code : Byte) (ops : List Byte) (h : code.toNat ∉ hostCodes) (hl : code.toNat < 128) :
    decodeCmd (code :: ops) = .error (.badCommand code) := by
  simp only [hostCodes, List.mem_cons, List.not_mem_nil, or_false, not_or] at h
  simp only [decodeCmd]
  obtain ⟨h1,h2,h3,h4,h5,h6,h7,h8,h9,h10,h11,h12,h13,h14,h15,h16,h17,h18,h19,h20,h21,h22,h23,h24,h25,h26⟩ := h
  split <;> first | rfl | omega

end Sys2Proof.Machine
end

