-- ==== Sys2Proof/Tests/Slice0.lean ====
section
/-!
SUPPORT. Tests. Expected results are the vectors of 95_test_vectors.md (their ids in the names or comments) or
hand readings of the encodings; each test is one step on a small state.
-/

namespace Sys2Proof.Tests

-- One test after another: tests run side by side each hold a thread with its own stack while they wait for the kernel,
-- and the package as one text then comes near the memory limit of the check.
set_option Elab.async false

open Sys2Proof.Machine

/-! ### Well-formedness -/

/-- EX1 satisfies ConfigWF (95_test_vectors.md section 1). -/
theorem test_ex1_wellFormed : ConfigWF Cfg.ex1 := by decide +kernel

/-- Each check refuses an ill-formed instruction. -/
theorem test_illFormed_refused :
    (Instr.decode 0 (List.replicate 9 0)).wellFormed = false
    ∧ (Instr.ackunpack (List.replicate 9 0)).wellFormed = false
    ∧ (Instr.xidReq 0x00510100 0 0).wellFormed = false
    ∧ (Instr.xidRsp 0x00510000 0 8).wellFormed = false
    ∧ (Instr.xidParse 0 0x00510001).wellFormed = false
    ∧ (Instr.xferStart [] 0x00510100 1 1000 3).wellFormed = false
    ∧ (Instr.pFields (List.replicate 9 0)).wellFormed = false
    ∧ (Instr.pAck 0x01 0 0 []).wellFormed = false
    ∧ (Instr.pAck 0x00 0 0 []).wellFormed = false
    ∧ (Instr.pAck 0x02 0 0 [0, 0, 0, 0, 0]).wellFormed = false
    ∧ (Instr.pAckAck 0 0 [0, 0, 0, 0, 0]).wellFormed = false
    ∧ (Instr.pAckNack 0 0 [0, 0, 0, 0, 0]).wellFormed = false
    ∧ (Instr.pChunk [0]).wellFormed = false := by decide

/-- A buffer of 2049 bytes is ill formed (X2). -/
theorem test_longBuffer_refused :
    (Instr.xferStart (List.replicate 2049 0) 0x00510000 1 1000 3).wellFormed = false := by decide +kernel

/-- TableWF as a test. -/
def tableOk (t : FieldTable) : Bool := decide (TableWF t)

/-- ConfigWF as a test. -/
def configOk (g : Cfg) : Bool := decide (ConfigWF g)

/-- Each clause of TableWF refuses a table (R23): width, place, factor, range, names, overlap. -/
theorem test_illFormed_table_refused :
    tableOk [⟨"x", 0, 0, 1, 0, 0, 0, ""⟩] = false ∧ tableOk [⟨"x", 60, 8, 1, 0, 0, 0, ""⟩] = false
    ∧ tableOk [⟨"x", 0, 8, 0, 0, 0, 0, ""⟩] = false ∧ tableOk [⟨"x", 0, 8, 1, 0, 1, 0, ""⟩] = false
    ∧ tableOk [⟨"x", 0, 8, 1, 0, 0, 1, ""⟩, ⟨"x", 8, 8, 1, 0, 0, 1, ""⟩] = false
    ∧ tableOk [⟨"x", 0, 8, 1, 0, 0, 1, ""⟩, ⟨"y", 7, 8, 1, 0, 0, 1, ""⟩] = false := by decide +kernel

/-- Each clause of ConfigWF refuses a configuration (R25). -/
theorem test_illFormed_config_refused :
    configOk { Cfg.ex1 with nSeg := 9 } = false ∧ configOk { Cfg.ex1 with period := 0 } = false
    ∧ configOk { Cfg.ex1 with seqs := [⟨[], true⟩] } = false
    ∧ configOk { Cfg.ex1 with seqOfLink := [some 1, none] } = false
    ∧ configOk { Cfg.ex1 with classes := [⟨.rx, 0x010, [], some 2⟩] } = false
    ∧ configOk { Cfg.ex1 with classes := [⟨.rx, 0x010, [], none⟩, ⟨.rx, 0x110, [], none⟩] } = false
    ∧ configOk { Cfg.ex1 with classes := [⟨.rx, 0x600, [], none⟩] } = false := by decide +kernel

/-! ### Decoding: words written out from the encodings of R96 to R106 -/

/-- What the decoder reads. -/
def reads (w : Words) : Option Instr := (decode w).toOption

/-- CODEC: codes 0x01 to 0x05. In ENCODE's word the one value is `-1/2`: sign 1, numerator 1, denominator 2. -/
theorem test_decode_codec :
    reads (.cmd [0x01, 0x00, 0x03, 0x17, 0x9D, 0x41]) = some (.decode 0 [0x17, 0x9D, 0x41])
    ∧ reads (.cmd [0x02, 0x02, 0x01, 0x01, 0x01, 0x02]) = some (.encode 2 [-1/2])
    ∧ reads (.cmd [0x03, 0x02, 0x01, 0xC9, 0x01, 0x00, 0x03, 0x01]) = some (.rangechk 2 [⟨201, 3⟩])
    ∧ reads (.cmd [0x04, 0x01, 0x02, 0xB4, 0x24]) = some (.ackpack 0x01 0x02 0x1234)
    ∧ reads (.cmd [0x05, 0x02, 0xAB, 0xCD]) = some (.ackunpack [0xAB, 0xCD]) := by decide +kernel

/-- Registry: codes 0x10 to 0x14 and 0x18. `0x00510000` is `0, 0, 0x44, 0x02` in base 128. -/
theorem test_decode_registry :
    reads (.cmd [0x10, 0x00, 0x02]) = some (.resolve 0 2)
    ∧ reads (.cmd [0x11, 0x90, 0x04, 0x01]) = some (.classify 0x210 true)
    ∧ reads (.cmd [0x12, 0x80, 0x80, 0xC4, 0x02, 0x02, 0x01]) = some (.xidReq 0x00510000 2 1)
    ∧ reads (.cmd [0x13, 0x80, 0x80, 0xC4, 0x02, 0xFF, 0x01, 0x07]) = some (.xidRsp 0x00510000 255 7)
    ∧ reads (.cmd [0x14, 0x81, 0x04, 0x80, 0x80, 0xC4, 0x02]) = some (.xidParse 0x201 0x00510000)
    ∧ reads (.cmd [0x18, 0x02, 0x02, 0x01, 0x00, 0x03, 0x01]) = some (.txRecord 2 2 [3]) := by decide +kernel

/-- LINK and SEQ: codes 0x20 to 0x24 and 0x30 to 0x32. -/
theorem test_decode_link_seq :
    reads (.cmd [0x20, 0x01]) = some (.lhElapsed 1) ∧ reads (.cmd [0x21, 0x01]) = some (.lhRx 1)
    ∧ reads (.cmd [0x22, 0x00, 0x96, 0x01]) = some (.lhCheck 0 150)
    ∧ reads (.cmd [0x23, 0x01]) = some (.lhDisc 1) ∧ reads (.cmd [0x24, 0x02]) = some (.lhStat 2)
    ∧ reads (.cmd [0x30, 0x00]) = some (.seqAdv 0) ∧ reads (.cmd [0x31, 0x00]) = some (.seqCur 0)
    ∧ reads (.cmd [0x32, 0x01]) = some (.seqRst 1) := by decide

/-- XFER and system: codes 0x40 to 0x42, 0x50 to 0x52 and 0x5F. An XFER_START that ends before `tmo` or `maxr` takes
the defaults of R8, 1000 and 3. -/
theorem test_decode_xfer_system :
    reads (.cmd [0x40, 0x02, 0x0A, 0x0B, 0x80, 0x80, 0xC4, 0x02, 0x01, 0xE8, 0x07, 0x03])
      = some (.xferStart [0x0A, 0x0B] 0x00510000 1 1000 3)
    ∧ reads (.cmd [0x40, 0x00, 0x80, 0x80, 0xC4, 0x02, 0x01]) = some (.xferStart [] 0x00510000 1 1000 3)
    ∧ reads (.cmd [0x40, 0x00, 0x80, 0x80, 0xC4, 0x02, 0x01, 0x05]) = some (.xferStart [] 0x00510000 1 5 3)
    ∧ reads (.cmd [0x41]) = some .xferAbort ∧ reads (.cmd [0x42]) = some .xferStat
    ∧ reads (.cmd [0x50, 0xF5, 0x01]) = some (.segSet 0xF5) ∧ reads (.cmd [0x51, 0x00, 0x02]) = some (.recRead 0 2)
    ∧ reads (.cmd [0x52]) = some .segGet ∧ reads (.cmd [0x5F]) = some .softReset := by decide +kernel

/-- The steps of the other agents: codes 0x80 to 0x84. -/
theorem test_decode_agents :
    reads (.cmd [0x80]) = some .rxFrame ∧ reads (.cmd [0x81]) = some .xNext ∧ reads (.cmd [0x82]) = some .xSend
    ∧ reads (.cmd [0x83]) = some .xTmo ∧ reads (.cmd [0x84]) = some .tick := by decide

/-- The identifier rows: standard `0x210`; extended `0x00510201` and `0x005102A1` (G11, G12) under the ext bit. -/
theorem test_decode_identifiers :
    reads (.bus .ident [0x10, 0x02]) = some (.fTelem 0x210)
    ∧ reads (.bus .ident [0x01, 0x02, 0x51, 0x20]) = some (.fXreq 0x51 2 1)
    ∧ reads (.bus .ident [0xA1, 0x02, 0x51, 0x20]) = some (.fXrsp 0x51 2 1)
    ∧ reads (.bus .ident [0x08, 0x00, 0x51, 0x20]) = none := by decide

/-- The payload rows (R104, R105, R107). -/
theorem test_decode_payloads :
    reads (.bus .fields [0x17, 0x9D]) = some (.pFields [0x17, 0x9D])
    ∧ reads (.bus .ack [0x01, 0x02, 0x12, 0x34, 0, 0, 0, 0]) = some (.pAckAck 2 0x1234 [0, 0, 0, 0])
    ∧ reads (.bus .ack [0x00, 0x07, 0xAB, 0xCD]) = some (.pAckNack 7 0xABCD [])
    ∧ reads (.bus .ack [0x02, 0x02, 0x00, 0x1C]) = some (.pAck 0x02 2 0x001C [])
    ∧ reads (.bus .chunk [1, 2, 3, 4, 5, 6, 7, 8]) = some (.pChunk [1, 2, 3, 4, 5, 6, 7, 8])
    ∧ reads (.bus .ack [0x01, 0x02, 0x12]) = none := by decide

/-- Codes R106 does not list, operands cut short, and operands outside their type are rejected. -/
theorem test_decode_rejects :
    reads (.cmd [0x7E]) = none ∧ reads (.cmd []) = none ∧ reads (.cmd [0x50]) = none
    ∧ reads (.cmd [0x50, 0x80, 0x02]) = none ∧ reads (.cmd [0x02, 0x02, 0x01, 0x01, 0x01, 0x00]) = none := by decide

/-! ### Unit CODEC -/

/-- The reset state with EX1 and the segments 0 and 2 of interest. -/
def base : State := State.reset.setSegEn 0x05

/-- What a command returned, and whether `S` changed. -/
def returns (i : Instr) (s : State) : Option (Ret × Bool) :=
  (nextOf (exec i s)).map fun t => (t.ret, decide (t.regs = s.regs))

/-- The payload of V1. -/
def v1 : List Byte := [0x17, 0x9D, 0x41, 0xAF, 0xC5, 0x5E, 0x01, 0x00]

/-- The record of V1d. -/
def v1d : Record := [⟨40215, 40215/100⟩, ⟨65, 25⟩, ⟨175, 175/2⟩, ⟨7877, -123/10⟩, ⟨5, 5⟩]

/-- V1d, and V6: a short payload is decoded with zero bytes. -/
theorem test_DECODE :
    returns (.decode 0 v1) base = some (.record v1d, true)
    ∧ returns (.decode 0 [0x17, 0x9D, 0x41]) base
      = some (.record [⟨40215, 40215/100⟩, ⟨65, 25⟩, ⟨0, 0⟩, ⟨0, -800⟩, ⟨0, 0⟩], true) := by decide +kernel

/-- V2: saturation at both ends; V4: ties away from zero. -/
theorem test_ENCODE :
    returns (.encode 0 [700, 300, 150, -900, 9]) base
      = some (.encoded [0xFF, 0xFF, 0xFF, 0xFF, 0x00, 0xC0, 0x01, 0x00] (List.replicate 5 (true, true)), true)
    ∧ returns (.encode 0 [12345/1000, -81/2, 133/4, -79995/100, 5/2]) base
      = some (.encoded [0xD3, 0x04, 0x00, 0x43, 0x01, 0xC0, 0x00, 0x00]
          [(false, false), (true, true), (false, false), (false, false), (false, false)], true) := by decide +kernel

/-- V2p: the declared range is clamped first. -/
theorem test_ENCODE_physThenRaw :
    returns (.encode 0 [700, 300, 150, -900, 9]) { base with cfg := { Cfg.ex1 with encClampMode := .physThenRaw } }
      = some (.encoded [0xFF, 0xFF, 0xFF, 0xC8, 0x00, 0xC0, 0x01, 0x00] (List.replicate 5 (true, false)), true) := by
  decide +kernel

/-- V8 and V9f: one violation, and every violation. -/
theorem test_RANGECHK :
    returns (.rangechk 0 (decodeRecord Ex1.pstat.table [0, 0, 0, 0xC9, 0, 0, 0, 0])) base
      = some (.range false [2], true)
    ∧ returns (.rangechk 1 (decodeRecord Ex1.cellv.table (List.replicate 8 0xFF))) base
      = some (.range false [0, 1, 2, 3], true) := by decide +kernel

/-- A1. -/
theorem test_ACKPACK :
    returns (.ackpack 0x01 2 0x1234) base = some (.payload [0x01, 0x02, 0x12, 0x34, 0, 0, 0, 0], true) := by decide

/-- A2 and A3. -/
theorem test_ACKUNPACK :
    returns (.ackunpack [0x00, 0x07, 0xAB, 0xCD]) base = some (.ack (some ⟨0x00, 7, 0xABCD⟩), true)
    ∧ returns (.ackunpack [0x01, 0x02, 0x12]) base = some (.ack none, true) := by decide

/-! ### Registry -/

/-- G1 and G3. -/
theorem test_RESOLVE :
    returns (.resolve 0 3) base = some (.stdId 0x310, true)
    ∧ returns (.resolve 0 4) base = some (.raised (.badOperand 0x10), true) := by decide

/-- G4 to G9. -/
theorem test_CLASSIFY :
    returns (.classify 0x230 false) base = some (.slot (some (3, 2)), true)
    ∧ returns (.classify 0x310 false) base = some (.slot none, true)
    ∧ returns (.classify 0x205 false) base = some (.slot none, true)
    ∧ returns (.classify 0x211 false) base = some (.slot none, true)
    ∧ returns (.classify 0x210 true) base = some (.slot none, true) := by decide +kernel

/-- G10: two matches are no match. -/
theorem test_CLASSIFY_duplicate :
    returns (.classify 0x110 false)
      { base.setSegEn 0x03 with cfg := { Cfg.ex1 with classes := [⟨.rx, 0x010, [], none⟩, ⟨.rx, 0x110, [], none⟩], nSeg := 2 } }
      = some (.slot none, true)
    ∧ classifyId { Cfg.ex1 with classes := [⟨.rx, 0x010, [], none⟩, ⟨.rx, 0x110, [], none⟩], nSeg := 2 } 0x03 0x110
      false = none := by decide

/-- G11 and G13. -/
theorem test_XID_REQ :
    returns (.xidReq 0x00510000 255 7) base = some (.extId 0x0051FF07, true)
    ∧ returns (.xidReq 0x00510000 0 8) base = some (.raised (.badOperand 0x12), true) := by decide

/-- G12. -/
theorem test_XID_RSP :
    returns (.xidRsp 0x00510000 2 1) base = some (.extId 0x005102A1, true)
    ∧ returns (.xidRsp 0x1FFF0000 255 7) base = some (.extId 0x1FFFFFA7, true) := by decide

/-- G14. -/
theorem test_XID_PARSE :
    returns (.xidParse 0x0051FFA7 0x00510000) base = some (.parsed (some (.rsp, 255, 7)), true)
    ∧ returns (.xidParse 0x00510201 0x00510000) base = some (.parsed (some (.req, 2, 1)), true)
    ∧ returns (.xidParse 0x00520001 0x00510000) base = some (.parsed none, true)
    ∧ returns (.xidParse 0x00510008 0x00510000) base = some (.parsed none, true) := by decide

/-- The refusal an instruction ends in, if any. -/
def refusal (i : Instr) (s : State) : Option Refusal :=
  match exec i s with
  | .next _ => none
  | .fault _ => none
  | .refused r => some r

/-- The frames sent by a step, with their answers. -/
def sends (i : Instr) (s : State) : Option (List Sent) := (nextOf (exec i s)).map (·.sent)

/-- G15 and G16: the frame, and the failure with the flags of 300 in 0 .. 255 (R172). -/
theorem test_TX_RECORD :
    sends (.txRecord 2 2 [3]) (base.setAnswers [true]) = some [⟨⟨0x205, false, [3, 0, 0, 0, 0, 0, 0, 0]⟩, true⟩]
    ∧ returns (.txRecord 2 0 [300]) (base.setAnswers [false]) = some (.notSent 0x005 [(true, true)], true)
    ∧ sends (.txRecord 2 0 [300]) (base.setAnswers [false])
      = some [⟨⟨0x005, false, [0xFF, 0, 0, 0, 0, 0, 0, 0]⟩, false⟩] := by decide +kernel

/-- G17: an RX class is not transmitted. -/
theorem test_TX_RECORD_direction :
    returns (.txRecord 0 0 [0, 0, 0, 0, 0]) base = some (.raised (.badOperand 0x18), true) := by decide

/-! ### RX_FRAME -/

/-- The frame of P1 step 3 at the head of RXQ, at time (900, 2). -/
def rx1 : State := (base.setTime ⟨900, 2⟩).setRxq [⟨0x210, false, v1⟩]

/-- P1 step 4: the record is stored, link 0 refreshed, LinkUp logged. -/
theorem test_RX_FRAME :
    (nextOf (exec .rxFrame rx1)).map (fun t => (t.record 0 2, t.link 0, t.log, t.rxq))
      = some (some v1d, ⟨⟨900, 2⟩, true⟩, [.linkUp 0], []) := by decide +kernel

/-- A table with a field past bit 63 is refused where it meets a payload (R64). -/
theorem test_fieldOutsideWord :
    refusal .rxFrame { rx1 with cfg := { Cfg.ex1 with classes := [⟨.rx, 0x010, [⟨"x", 60, 8, 1, 0, 0, 0, ""⟩], none⟩] } }
      = some .fieldOutsideWord
    ∧ refusal (.decode 0 []) { rx1 with cfg := { Cfg.ex1 with classes := [⟨.rx, 0x010, [⟨"x", 0, 0, 1, 0, 0, 0, ""⟩], none⟩] } }
      = some .fieldOutsideWord := by decide +kernel

/-- P1 step 8: a frame out of range is discarded whole. -/
theorem test_RX_FRAME_outOfRange :
    (nextOf (exec .rxFrame (rx1.setRxq [⟨0x210, false, [0, 0, 0, 0xC9, 0, 0, 0, 0]⟩]))).map
      (fun t => (decide (t.regs = rx1.regs), t.log)) = some (true, [.rangeViolation 0 2 [2]]) := by decide +kernel

/-! ### LINK -/

/-- A link 0 as in T13, with cursor 0 at index 2. -/
def t13 : State := ((base.setTime ⟨50, 3⟩).putLink 0 ⟨⟨900, 2⟩, true⟩).putSeq 0 2

/-- T13; T9 and T10: the largest exact result and the saturated one. -/
theorem test_LH_ELAPSED :
    returns (.lhElapsed 0) t13 = some (.elapsed 150, true)
    ∧ elapsedSat 1000 ⟨0, 0⟩ ⟨295, 4294967⟩ = 4294967295
    ∧ elapsedSat 1000 ⟨0, 0⟩ ⟨999, 4294967⟩ = 4294967295
    ∧ elapsedSat 1000 ⟨900, 0xFFFFFFFF⟩ ⟨50, 0⟩ = 150 ∧ elapsedSat 1000 ⟨900, 2⟩ ⟨50, 5⟩ = 2150 := by decide +kernel

/-- R204 and R364: 49 ticks before the overflow counter has gone round. T11: on a timer that has broken its contract
the sample (900, 2), (50, 2) has no stated result. -/
theorem test_LH_ELAPSED_roundOverflow :
    elapsedExact 1000 ⟨50, 2⟩ ⟨1, 2⟩ = 1000 * 2 ^ 32 - 49
    ∧ returns (.lhElapsed 0) ((t13.setTime ⟨50, 2⟩)) = some (.elapsed 0xFFFFFFFF, true)
    ∧ (t13.breakTime ⟨50, 2⟩).torn ⟨900, 2⟩ = true ∧ (t13.setTime ⟨50, 2⟩).torn ⟨900, 2⟩ = false := by decide +kernel

/-- T12. -/
theorem test_LH_RX :
    (nextOf (exec (.lhRx 0) (base.setTime ⟨900, 2⟩))).map (fun t => (t.link 0, t.log))
      = some (⟨⟨900, 2⟩, true⟩, [.linkUp 0]) := by decide

/-- T14 and T15: the comparison is strict. -/
theorem test_LH_CHECK :
    returns (.lhCheck 0 150) t13 = some (.timedOut false, true)
    ∧ (nextOf (exec (.lhCheck 0 149) t13)).map (fun t => (t.ret, t.link 0, t.seqIndex 0, t.log))
      = some (.timedOut true, ⟨⟨900, 2⟩, false⟩, 0, [.linkDown 0 150]) := by decide +kernel

/-- T16: no guard on `connected`. -/
theorem test_LH_CHECK_again :
    (nextOf (exec (.lhCheck 0 149) (t13.putLink 0 ⟨⟨900, 2⟩, false⟩))).map (fun t => (t.seqIndex 0, t.log))
      = some (0, []) := by decide +kernel

/-- T18. -/
theorem test_LH_DISC :
    (nextOf (exec (.lhDisc 0) t13)).map (fun t => (t.link 0, t.seqIndex 0, t.log))
      = some (Link.down, 0, [.linkDown 0 0]) := by decide

/-- The example of R202, and T21. -/
theorem test_LH_STAT :
    returns (.lhStat 0) t13 = some (.linkStat true 900 2, true)
    ∧ returns (.lhStat 2) t13 = some (.raised (.badOperand 0x24), true) := by decide

/-! ### SEQ -/

/-- Q3, Q4: looping and holding. -/
theorem test_SEQ_ADV :
    (nextOf (exec (.seqAdv 0) t13)).map (·.seqIndex 0) = some 0
    ∧ (nextOf (exec (.seqAdv 0) { t13 with cfg := { Cfg.ex1 with seqs := [⟨[0, 1, 3], false⟩] } })).map (·.seqIndex 0)
      = some 2 := by decide

/-- Q2 and Q7. -/
theorem test_SEQ_CUR :
    returns (.seqCur 0) (base.putSeq 0 1) = some (.stateValue 0x01, true)
    ∧ (nextOf (exec (.seqCur 0) { base with cfg := { Cfg.ex1 with seqs := [⟨[], true⟩] } })).map
        (fun t => (t.ret, t.log)) = some (.stateValue 0x00, [.seqConfigError 0 0 0]) := by decide

/-- Q9 and Q10. -/
theorem test_SEQ_RST :
    (nextOf (exec (.seqRst 0) t13)).map (·.seqIndex 0) = some 0
    ∧ returns (.seqRst 1) t13 = some (.raised (.badOperand 0x32), true) := by decide

/-! ### XFER -/

/-- The buffer B18: byte `i` has value `i`. -/
def b18 : List Byte := (List.range 18).map (BitVec.ofNat 8)

/-- A session of B18 with the given control state, chunk and attempts. -/
def session (st : XState) (cur att : Nat) : State :=
  base.setXfer { (Xfer.reset.started b18 0x00510000 1 1000 3) with st := st, cur := cur, att := att }

/-- The control state, chunk and attempts a step leaves. -/
def xferAfter (i : Instr) (s : State) : Option (XState × Nat × Nat) :=
  (nextOf (exec i s)).map fun t => (t.regs.xfer.st, t.regs.xfer.cur, t.regs.xfer.att)

/-- The events a step logs. -/
def logs (i : Instr) (s : State) : Option (List Event) := (nextOf (exec i s)).map (·.log)

/-- P2 step 1, and X4; segment 4 is not below N_SEG = 4 (decision D9). -/
theorem test_XFER_START :
    (nextOf (exec (.xferStart b18 0x00510000 1 1000 3) base)).map
      (fun t => (t.ret, t.regs.xfer.len, t.regs.xfer.total, t.regs.xfer.st, t.bufRead 16 8))
      = some (.accepted, 18, 3, .next, [0x10, 0x11, 0, 0, 0, 0, 0, 0])
    ∧ returns (.xferStart b18 0x00510100 1 1000 3) base = some (.raised (.badOperand 0x40), true)
    ∧ returns (.xferStart b18 0x00510000 4 1000 3) base = some (.raised (.badOperand 0x40), true) := by decide +kernel

/-- X1: the chunk counts; X3: busy. -/
theorem test_XFER_START_counts :
    ([0, 1, 8, 9, 16, 17, 18, 2048].map fun n => ceilDiv n 8) = [0, 1, 1, 2, 2, 3, 3, 256]
    ∧ returns (.xferStart [] 0 0 0 0) (session .wait 0 0) = some (.raised .xferBusy, true) := by decide +kernel

/-- P4 step 8, and X17. -/
theorem test_XFER_ABORT :
    (nextOf (exec .xferAbort (session .wait 0 0))).map (fun t => (t.regs.xfer.abort, t.regs.xfer.st)) = some (true, .wait)
    ∧ returns .xferAbort base = some (.raised .xferIdle, true) := by decide +kernel

/-- The response after reset (R356). -/
theorem test_XFER_STAT :
    returns .xferStat base = some (.xferStat .idle 0 0 0 0 false .nothing, true)
    ∧ returns .xferStat (session .wait 1 2) = some (.xferStat .wait 1 3 2 0 false .nothing, true) := by decide +kernel

/-- X15 and X16: completion before abort, then abort. -/
theorem test_X_NEXT :
    xferAfter .xNext ((session .next 3 0).setXfer { (session .next 3 0).regs.xfer with abort := true })
      = some (.idle, 3, 0)
    ∧ logs .xNext ((session .next 3 0).setXfer { (session .next 3 0).regs.xfer with abort := true }) = some [.xferDone (.success 3 0)]
    ∧ xferAfter .xNext ((session .next 1 0).setXfer { (session .next 1 0).regs.xfer with abort := true })
      = some (.idle, 1, 0)
    ∧ logs .xNext ((session .next 1 0).setXfer { (session .next 1 0).regs.xfer with abort := true }) = some [.xferDone (.aborted 1)] := by decide +kernel

/-- X5: the last chunk, zero-padded; X6: a failed send is a failed attempt. -/
theorem test_X_SEND :
    sends .xSend ((session .send 2 0).setAnswers [true])
      = some [⟨⟨0x00510201, true, [0x10, 0x11, 0, 0, 0, 0, 0, 0]⟩, true⟩]
    ∧ xferAfter .xSend ((session .send 0 0).setAnswers [false])
      = some (.send, 0, 1)
    ∧ logs .xSend ((session .send 0 0).setAnswers [false]) = some [.txFail 0x00510001] := by decide +kernel

/-- A wait since (990, 0), as in X13, with the given attempts and time. -/
def waiting (att : Nat) (now : Stamp) : State :=
  ((session .wait 1 att).setTime now).setXfer { (session .wait 1 att).regs.xfer with t0 := ⟨990, 0⟩ }

/-- X13: 999 ticks are too few, 1000 are enough; X14: the retries are exhausted. -/
theorem test_X_TMO :
    xferAfter .xTmo (waiting 0 ⟨989, 1⟩) = some (.wait, 1, 0)
    ∧ logs .xTmo (waiting 0 ⟨989, 1⟩) = some []
    ∧ xferAfter .xTmo (waiting 0 ⟨990, 1⟩) = some (.send, 1, 1)
    ∧ logs .xTmo (waiting 0 ⟨990, 1⟩) = some [.chunkTimeout 1]
    ∧ xferAfter .xTmo (waiting 3 ⟨990, 1⟩)
      = some (.idle, 1, 4)
    ∧ logs .xTmo (waiting 3 ⟨990, 1⟩) = some [.chunkTimeout 1, .xferDone (.failed 1 3)] := by decide +kernel

/-- A response in RXQ while chunk 2 is awaited. -/
def responded (id : BitVec 29) (p : List Byte) : State := (session .wait 2 0).setRxq [⟨id, true, p⟩]

/-- X8: an ACK; X9: a NACK, its echo not tested. -/
theorem test_RX_FRAME_response :
    xferAfter .rxFrame (responded 0x005102A1 [1, 2, 0x12, 0x34, 0, 0, 0, 0])
      = some (.next, 3, 0)
    ∧ logs .rxFrame (responded 0x005102A1 [1, 2, 0x12, 0x34, 0, 0, 0, 0]) = some [.chunkAcked 2 0x1234]
    ∧ xferAfter .rxFrame (responded 0x005102A1 [0, 9, 0, 0, 0, 0, 0, 0])
      = some (.send, 2, 1)
    ∧ logs .rxFrame (responded 0x005102A1 [0, 9, 0, 0, 0, 0, 0, 0]) = some [.chunkNacked 2 9] := by decide +kernel

/-- X10 and X11: not a valid response, and not the expected identifier. -/
theorem test_RX_FRAME_noResponse :
    xferAfter .rxFrame (responded 0x005102A1 [1, 1, 0, 0, 0, 0, 0, 0])
      = some (.wait, 2, 0)
    ∧ logs .rxFrame (responded 0x005102A1 [1, 1, 0, 0, 0, 0, 0, 0]) = some [.badResponse 0x005102A1]
    ∧ xferAfter .rxFrame (responded 0x005102A1 [1, 2, 0x12]) = some (.wait, 2, 0)
    ∧ logs .rxFrame (responded 0x005102A1 [1, 2, 0x12]) = some [.badResponse 0x005102A1]
    ∧ xferAfter .rxFrame (responded 0x005101A1 [1, 1, 0, 0, 0, 0, 0, 0])
      = some (.wait, 2, 0)
    ∧ logs .rxFrame (responded 0x005101A1 [1, 1, 0, 0, 0, 0, 0, 0]) = some [.unknownFrame 0x005101A1 true] := by decide +kernel

/-- XFER_RUN of the empty buffer (R109, R266): one step of the engine ends it, without that step it is not over; the
host may abort the session meanwhile (R334, X16). -/
theorem test_XFER_RUN :
    ((xferRun [] 0x00510000 1 1000 3 [.agent [0x81]] base).bind nextOf).map (·.ret)
      = some (.xferStat .idle 0 0 0 0 false (.success 0 0))
    ∧ (xferRun [] 0x00510000 1 1000 3 [] base).isNone = true
    ∧ ((xferRun b18 0x00510000 1 1000 3 [.host [0x41], .agent [0x81]] base).bind nextOf).map (·.ret)
      = some (.xferStat .idle 0 3 0 0 false (.aborted 0)) := by decide +kernel

/-- XFER_RUN whose XFER_START is not accepted (R109): busy, it waits for the session there is; refused by its operands,
it is over at once. XFER_STAT answers in both. -/
theorem test_XFER_RUN_notAccepted :
    ((xferRun [] 0x00510000 1 1000 3 [.agent [0x81]] (session .next 3 0)).bind nextOf).map (fun t => (t.ret, t.log))
      = some (.xferStat .idle 3 3 0 0 false (.success 3 0), [.xferBusy, .xferDone (.success 3 0)])
    ∧ (xferRun [] 0x00510000 1 1000 3 [] (session .next 3 0)).isNone = true
    ∧ ((xferRun [] 0x00510100 1 1000 3 [] base).bind nextOf).map (fun t => (t.ret, t.log))
      = some (.xferStat .idle 0 0 0 0 false .nothing, [.badOperand 0x40]) := by decide +kernel

/-- A frame of an identifier that no class has. -/
def stray (id : BitVec 29) : Frame := ⟨id, true, []⟩

/-- RX_DRAIN (R109): a frame placed after the first turn is drained too, and the drain is not over while it waits; with
RXQ empty no turn is taken. -/
theorem test_RX_DRAIN :
    ((rxDrain [[.enqueue (stray 2)], []] (base.setRxq [stray 1])).bind nextOf).map (fun t => (t.rxq, t.log))
      = some ([], [.unknownFrame 1 true, .unknownFrame 2 true])
    ∧ (rxDrain [[.enqueue (stray 2)]] (base.setRxq [stray 1])).isNone = true
    ∧ ((rxDrain [[.enqueue (stray 2)]] base).bind nextOf).map (·.rxq) = some [] := by decide +kernel

/-! ### System, timer, bus -/

/-- Y1. -/
theorem test_SEG_SET : (nextOf (exec (.segSet 0xF5) base)).map (·.regs.segEn) = some 0x05 := by decide

/-- Y1. -/
theorem test_SEG_GET : returns .segGet base = some (.segMask 0x05, true) := by decide

/-- Y2 and Y3. -/
theorem test_REC_READ :
    returns (.recRead 0 2) base = some (.recSlot none, true)
    ∧ returns (.recRead 2 0) base = some (.raised (.badOperand 0x51), true) := by decide

/-- Y4. -/
theorem test_SOFT_RESET :
    (nextOf (exec .softReset ((t13.setXfer (session .wait 1 1).regs.xfer).setRxq [⟨0, false, []⟩]))).map
      (fun t => (decide (t.regs = Regs.reset), t.time, t.rxq)) = some (true, ⟨50, 3⟩, [⟨0, false, []⟩]) := by
  decide +kernel

/-- R326: inside a period, and at the wrap of both counters. -/
theorem test_TICK :
    (nextOf (exec .tick (base.setTime ⟨998, 7⟩))).map (·.time) = some ⟨999, 7⟩
    ∧ (nextOf (exec .tick (base.setTime ⟨999, 0xFFFFFFFF⟩))).map (·.time) = some ⟨0, 0⟩ := by decide

/-- The identifier rows name the frame. -/
theorem test_identifier_rows :
    (nextOf (exec (.fTelem 0x210) base)).map (·.head) = some ⟨0x210, false⟩
    ∧ (nextOf (exec (.fXreq 0x51 2 1) base)).map (·.head) = some ⟨0x00510201, true⟩
    ∧ (nextOf (exec (.fXrsp 0x51 2 1) base)).map (·.head) = some ⟨0x005102A1, true⟩ := by decide

/-- The payload rows complete it. -/
theorem test_payload_rows :
    (nextOf (exec (.pFields v1) (base.putHead 0x210 false))).map (·.rxq) = some [⟨0x210, false, v1⟩]
    ∧ (nextOf (exec (.pAckAck 2 0x1234 []) (base.putHead 0x005102A1 true))).map (·.rxq)
      = some [⟨0x005102A1, true, [1, 2, 0x12, 0x34]⟩]
    ∧ (nextOf (exec (.pAckNack 7 0xABCD []) base)).map (·.rxq) = some [⟨0, false, [0, 7, 0xAB, 0xCD]⟩]
    ∧ (nextOf (exec (.pAck 2 2 0x001C []) base)).map (·.rxq) = some [⟨0, false, [2, 2, 0, 0x1C]⟩]
    ∧ (nextOf (exec (.pChunk [1, 2, 3, 4, 5, 6, 7, 8]) base)).map (·.rxq)
      = some [⟨0, false, [1, 2, 3, 4, 5, 6, 7, 8]⟩] := by decide

/-! ### Steps -/

/-- Y5: an unknown code, and a code that is not the host's. -/
theorem test_step_badCommand :
    (nextOf (step (base.setInputs [.host [0x7E]]))).map (·.ret) = some (.raised (.badCommand 0x7E))
    ∧ (nextOf (step (base.setInputs [.host [0x80]]))).map (·.ret) = some (.raised (.badCommand 0x80)) := by decide

/-- XferBusy comes before the operand checks of XFER_START (R316). -/
theorem test_step_busy_first :
    (nextOf (step ((session .wait 0 0).setInputs [.host [0x40, 0x05]]))).map (·.ret) = some (.raised .xferBusy)
    ∧ (nextOf (step (base.setInputs [.host [0x40, 0x05]]))).map (·.ret) = some (.raised (.badOperand 0x40)) := by
  decide +kernel

/-- The first instruction after reset, from its opcode-table bits. -/
theorem test_withFetchWord :
    (nextOf (step (State.reset.withFetchWord 8 0x52))).map (·.ret) = some (.segMask 0)
    ∧ (nextOf (step (State.reset.withFetchWord 8 0x84))).map (·.time) = some ⟨1, 0⟩
    ∧ (nextOf (step (State.reset.withFetchWord 16 0x210))).map (·.head) = some ⟨0x210, false⟩ := by decide

/-- Every row of the table with fixed bits decodes to its operation. -/
theorem test_tableRows :
    ([0x01, 0x02, 0x03, 0x04, 0x05, 0x10, 0x11, 0x12, 0x13, 0x14, 0x18, 0x20, 0x21, 0x22, 0x23, 0x24, 0x30, 0x31,
      0x32, 0x40, 0x41, 0x42, 0x50, 0x51, 0x52, 0x5F, 0x80, 0x81, 0x82, 0x83, 0x84].all fun w =>
        match decodeTableWord 8 w with
        | some i => decide (i.code = some (BitVec.ofNat 8 w))
        | none => false) = true := by decide +kernel

/-! ### Witnesses: a concrete state and operands that meet the hypotheses of each statement, clause by clause

The statements without hypotheses (SampleWordsDecode, ClassifyFindsTheOneMatch, IdentifierRowsNameFrame, and the like)
need none. -/

theorem test_witness_StepRunsDecodedInstruction :
    (base.setInputs [.host [0x52]]).inputs = .host [0x52] :: [] ∧ (0x52 : Byte).toNat < 0x80
    ∧ decode (.cmd [0x52]) = .ok .segGet
    ∧ 0x80 ≤ (0x84 : Byte).toNat ∧ decode (.cmd [0x84]) = .ok .tick
    ∧ decode (.bus .ident [0x10, 0x02]) = .ok (.fTelem 0x210) := by decide

theorem test_witness_RejectedCommandOnlyRaises :
    (0x7E : Byte).toNat ∉ hostCodes ∧ (0x80 : Byte).toNat ∉ hostCodes
    ∧ ((0x50 : Byte).toNat ∈ hostCodes ∧ decode (.cmd [0x50]) = .error (.badOperand 0x50)
      ∧ ¬ ((0x50 : Byte).toNat = 0x40 ∧ base.regs.xfer.st ≠ .idle))
    ∧ ((0x40 : Byte).toNat = 0x40 ∧ decode (.cmd [0x40, 0x05]) = .error (.badOperand 0x40)
      ∧ (session .wait 0 0).regs.xfer.st ≠ .idle) := by decide +kernel

theorem test_witness_EnvironmentMoves :
    (⟨0x7FF, false, v1⟩ : Frame).wf = true ∧ (⟨0x1FFFFFFF, true, []⟩ : Frame).wf = true
    ∧ (base.setInputs [.enqueue ⟨0x7FF, false, v1⟩]).inputs = .enqueue ⟨0x7FF, false, v1⟩ :: []
    ∧ (base.setInputs [.sendAnswer true]).inputs = .sendAnswer true :: []
    ∧ (base.setInputs [.mistime ⟨50, 2⟩]).inputs = .mistime ⟨50, 2⟩ :: []
    ∧ (base.setInputs [.resetInput]).inputs = .resetInput :: [] ∧ base.inputs = [] := by decide +kernel

theorem test_witness_DecodeInvertsEncode :
    (Instr.xferStart b18 0x1FFF0000 7 0xFFFFFFFF 0xFF).wellFormed = true
    ∧ (Instr.pFields v1).wellFormed = true ∧ (Instr.pAck 0x02 0 0 [0, 0, 0, 0]).wellFormed = true := by decide +kernel

theorem test_witness_BusWordsHaveOneReading :
    decode (.bus .ident [0xA1, 0x02, 0x51, 0x20]) = .ok (.fXrsp 0x51 2 1)
    ∧ decode (.bus .fields []) = .ok (.pFields [])
    ∧ decode (.bus .ack [0x00, 0x07, 0xAB, 0xCD]) = .ok (.pAckNack 7 0xABCD [])
    ∧ decode (.bus .chunk v1) = .ok (.pChunk v1) := by decide

/-- The fields of a well-formed table lie in the word. -/
theorem inWord_of_tableWF {t : FieldTable} (h : TableWF t) : ∀ e ∈ t, InWord e :=
  (hasFieldOutsideWord_eq_false t).mp (hasFieldOutsideWord_of_tableWF h)

theorem test_witness_DecodeReturnsRecord :
    (base.cfg.classes[0]? = some Ex1.pstat ∧ v1.length ≤ 8 ∧ ∀ e ∈ Ex1.pstat.table, InWord e)
    ∧ base.cfg.classes[4]? = none ∧ 8 < (List.replicate 9 (0 : Byte)).length :=
  ⟨⟨by decide +kernel, by decide, inWord_of_tableWF (by decide +kernel)⟩, by decide +kernel, by decide⟩

theorem test_witness_EncodeReturnsClampedPayload :
    (base.cfg.classes[2]? = some Ex1.cmd ∧ ([300] : PhysRecord).length = Ex1.cmd.table.length
      ∧ (∀ e ∈ Ex1.cmd.table, InWord e) ∧ ∀ e ∈ Ex1.cmd.table, e.factor ≠ 0)
    ∧ ∀ k, base.cfg.classes[2]? = some k → ([] : PhysRecord).length ≠ k.table.length := by
  refine ⟨⟨by decide +kernel, by decide, inWord_of_tableWF (by decide +kernel), by decide +kernel⟩, fun k hk => ?_⟩
  cases hk
  decide

theorem test_witness_RangechkListsViolations :
    (base.cfg.classes[2]? = some Ex1.cmd ∧ ([⟨255, 256⟩] : Record).length = Ex1.cmd.table.length
      ∧ ∀ (i : Nat) (e : FieldEntry) (v : FieldVal), Ex1.cmd.table[i]? = some e →
        ([⟨255, 256⟩] : Record)[i]? = some v → v.raw < 2 ^ e.bitWidth)
    ∧ (∀ k : MsgClass, base.cfg.classes[2]? = some k → ([] : Record).length ≠ k.table.length
        ∨ ∃ (i : Nat) (e : FieldEntry) (v : FieldVal), k.table[i]? = some e ∧ ([] : Record)[i]? = some v
          ∧ 2 ^ e.bitWidth ≤ v.raw)
    ∧ (∀ k : MsgClass, base.cfg.classes[2]? = some k → ([⟨256, 0⟩] : Record).length ≠ k.table.length
        ∨ ∃ (i : Nat) (e : FieldEntry) (v : FieldVal), k.table[i]? = some e ∧ ([⟨256, 0⟩] : Record)[i]? = some v
          ∧ 2 ^ e.bitWidth ≤ v.raw) := by
  refine ⟨⟨by decide +kernel, by decide, fun i e v he hv => ?_⟩, fun k hk => ?_, fun k hk => ?_⟩
  · cases i with
    | zero => cases he; cases hv; decide
    | succ n => cases hv
  · cases hk; exact .inl (by decide)
  · cases hk; exact .inr ⟨0, _, _, rfl, rfl, by decide⟩

theorem test_witness_AckPayloadPacksAndUnpacks :
    ([0x01, 0x02, 0x12] : List Byte).length < 4
    ∧ (4 ≤ ([0x00, 0x07, 0xAB, 0xCD] : List Byte).length ∧ ([0x00, 0x07, 0xAB, 0xCD] : List Byte).length ≤ 8)
    ∧ (4 ≤ v1.length ∧ v1.length ≤ 8) ∧ 8 < (List.replicate 9 (0 : Byte)).length := by decide

/-- The base state with the other clamp mode. -/
def clamped : State := { base with cfg := { Cfg.ex1 with encClampMode := .physThenRaw } }

theorem test_witness_FrameRoundTrip :
    (base.cfg.classes[0]? = some Ex1.pstat ∧ TableWF Ex1.pstat.table ∧ v1.length ≤ 8
      ∧ base.cfg.encClampMode = .rawOnly)
    ∧ (clamped.cfg.classes[0]? = some Ex1.pstat
      ∧ ∀ e ∈ Ex1.pstat.table, inDeclared e (fieldPhys (payloadSum v1) e)) := by
  refine ⟨by decide +kernel, by decide +kernel, (rangeOk_recordOf _ _).mp ?_⟩
  rw [← decodeRecord_eq_recordOf]
  decide +kernel

theorem test_witness_RecordRoundTrip :
    (base.cfg.classes[2]? = some Ex1.cmd ∧ TableWF Ex1.cmd.table ∧ ([255] : PhysRecord).length = Ex1.cmd.table.length)
    ∧ (∃ e : FieldEntry, Ex1.cmd.table[0]? = some e ∧ (255 : Nat) < 2 ^ e.bitWidth
      ∧ (255 : Q) = ((255 : Nat) : Q) * e.factor + e.offset ∧ inDeclared e 255
      ∧ (0 ≤ ((1/2 : Q) - e.offset) / e.factor ∧ ((1/2 : Q) - e.offset) / e.factor ≤ 2 ^ e.bitWidth - 1)) := by
  refine ⟨by decide +kernel, _, rfl, by decide, by norm_num, ⟨by norm_num, by norm_num⟩, by norm_num⟩

theorem test_witness_UndefinedBitsStayZero :
    base.cfg.classes[2]? = some Ex1.cmd ∧ TableWF Ex1.cmd.table ∧ ([9] : PhysRecord).length = Ex1.cmd.table.length
    ∧ ∀ e ∈ Ex1.cmd.table, ¬ (e.bitOffset ≤ 8 ∧ 8 < e.bitOffset + e.bitWidth) := by decide +kernel

theorem test_witness_EncodeSaturates :
    base.cfg.classes[2]? = some Ex1.cmd ∧ TableWF Ex1.cmd.table ∧ ([255] : PhysRecord).length = Ex1.cmd.table.length
    ∧ base.cfg.encClampMode = .rawOnly ∧ clamped.cfg.encClampMode = .physThenRaw
    ∧ ∃ e : FieldEntry, Ex1.cmd.table[0]? = some e ∧ 2 ^ e.bitWidth - 1 ≤ roundAway (((255 : Q) - e.offset) / e.factor)
      ∧ roundAway (((0 : Q) - e.offset) / e.factor) ≤ 0 := by
  refine ⟨by decide +kernel, by decide +kernel, by decide, rfl, rfl, _, rfl, ?_, ?_⟩
  · rw [show ((255 : Q) - 0) / 1 = ((255 : Int) : Q) by norm_num, roundAway_int]; decide
  · rw [show ((0 : Q) - 0) / 1 = ((0 : Int) : Q) by norm_num, roundAway_int]

/-- An entry with a negative factor, its declared range exactly what its bits represent. -/
def falling : FieldEntry := ⟨"x", 0, 8, -1, 0, -255, 0, ""⟩

/-- Such an entry with a positive factor: `temp` of EX1. -/
def rising : FieldEntry := ⟨"temp", 16, 8, 1, -40, -40, 215, "C"⟩

theorem test_witness_ClampModesAgreeWhenTight :
    (rising.WF ∧ rising.minPhys = physOf rising 0 ∧ rising.maxPhys = physOf rising (2 ^ rising.bitWidth - 1))
    ∧ (falling.WF ∧ falling.minPhys = physOf falling (2 ^ falling.bitWidth - 1)
      ∧ falling.maxPhys = physOf falling 0) := by decide +kernel

theorem test_witness_EncodeMonotone :
    (0 : Q) ≤ 1/2 ∧ 0 < rising.factor ∧ falling.factor < 0 := by decide +kernel

/-- A configuration whose one class ends at the top of the standard identifiers. -/
def topClass : State := { base with cfg := { Cfg.ex1 with classes := [⟨.rx, 0x7FF, [], none⟩] } }

theorem test_witness_ResolveAddsSegment :
    (base.cfg.classes[0]? = some Ex1.pstat ∧ 3 < base.cfg.nSeg ∧ Ex1.pstat.base.toNat + 3 * 0x100 ≤ 0x7FF)
    ∧ (topClass.cfg.classes[0]? = some ⟨.rx, 0x7FF, [], none⟩ ∧ 0 < topClass.cfg.nSeg ∧ 0x7FF + 0 * 0x100 ≤ 0x7FF
      ∧ 1 < topClass.cfg.nSeg ∧ 0x7FF < 0x7FF + 1 * 0x100)
    ∧ base.cfg.classes[4]? = none ∧ base.cfg.nSeg ≤ 4 := by decide +kernel

theorem test_witness_ClassifyInvertsResolve :
    ConfigWF base.cfg ∧ base.cfg.classes[0]? = some Ex1.pstat ∧ Ex1.pstat.dir = .rx ∧ 2 < base.cfg.nSeg
    ∧ base.regs.segEn.getLsbD 2 = true := by decide +kernel

theorem test_witness_TransferIdentifierLayout :
    ((0x1FFF0000 : BitVec 29).toNat % 0x10000 = 0 ∧ 7 ≤ 7)
    ∧ ((0x00510001 : BitVec 29).toNat % 0x10000 ≠ 0 ∨ 7 < 0) ∧ ((0x00510000 : BitVec 29).toNat % 0x10000 ≠ 0 ∨ 7 < 8) := by
  decide

theorem test_witness_TransferIdentifiersDistinct :
    xferIdWF 0x00510000 7 = true ∧ 0 ≤ 255 ∧ 255 ≤ 255 := by decide

theorem test_witness_ParseInvertsTransferIdentifiers :
    (0x00510000 : BitVec 29).toNat % 0x10000 = 0 ∧ (0x0051FFA7 : BitVec 29).toNat = xidRspOf 0x00510000 255 7
    ∧ (0x0051FF07 : BitVec 29).toNat = xidReqOf 0x00510000 255 7 ∧ (0x00510001 : BitVec 29).toNat % 0x10000 ≠ 0 := by
  decide

theorem test_witness_TxRecordSendsOneFrame :
    (base.cfg.classes[2]? = some Ex1.cmd ∧ Ex1.cmd.dir = .tx ∧ 3 < base.cfg.nSeg
      ∧ ([3] : PhysRecord).length = Ex1.cmd.table.length ∧ (∀ e ∈ Ex1.cmd.table, InWord e)
      ∧ (∀ e ∈ Ex1.cmd.table, e.factor ≠ 0)
      ∧ Ex1.cmd.base.toNat + 3 * 0x100 ≤ 0x7FF)
    ∧ (base.setAnswers [true]).sendOk = true ∧ (base.setAnswers [false]).sendOk = false
    ∧ (base.setAnswers [true, false]).answers = true :: [false] ∧ base.answers = []
    ∧ (∀ k : MsgClass, base.cfg.classes[2]? = some k → k.dir ≠ .tx ∨ base.cfg.nSeg ≤ 4 ∨ ([3] : PhysRecord).length ≠ k.table.length)
    ∧ (∀ k : MsgClass, base.cfg.classes[0]? = some k → k.dir ≠ .tx ∨ base.cfg.nSeg ≤ 0 ∨ ([] : PhysRecord).length ≠ k.table.length) := by
  refine ⟨⟨by decide +kernel, rfl, by decide, by decide, inWord_of_tableWF (by decide +kernel), by decide +kernel,
    by decide⟩, rfl, rfl, rfl, rfl, fun k hk => ?_, fun k hk => ?_⟩ <;> cases hk <;> decide

/-- No class and segment stand for the frame. -/
theorem noMatch_of_classifyId {g : Cfg} {en : Byte} {id : Nat} {ext : Bool} (h : classifyId g en id ext = none)
    (c seg : Nat) : ¬ UniqueMatch g en id ext c seg := by
  rw [← classifyId_eq_some, h]
  simp

theorem test_witness_UnknownFrameChangesNothing :
    (rx1.setRxq [⟨0x205, false, []⟩]).rxq = ⟨0x205, false, []⟩ :: [] ∧ ¬ Awaited rx1 ⟨0x205, false, []⟩
    ∧ ∀ c seg, ¬ UniqueMatch rx1.cfg rx1.regs.segEn 0x205 false c seg := by
  refine ⟨by decide, ?_, noMatch_of_classifyId (by decide +kernel)⟩
  rw [← State.awaits_iff]; decide

/-- The state of `rx1` with a class that has no link and no field. -/
def linkless : State := { rx1 with cfg := { Cfg.ex1 with classes := [⟨.rx, 0x010, [], none⟩] } }

theorem test_witness_AcceptedFrameStoresRecord :
    (rx1.rxq = ⟨0x210, false, v1⟩ :: [] ∧ ¬ Awaited rx1 ⟨0x210, false, v1⟩
      ∧ UniqueMatch rx1.cfg rx1.regs.segEn 0x210 false 0 2 ∧ rx1.cfg.classes[0]? = some Ex1.pstat
      ∧ (∀ e ∈ Ex1.pstat.table, InWord e)
      ∧ (∀ e ∈ Ex1.pstat.table, inDeclared e (fieldPhys (payloadSum v1) e)) ∧ Ex1.pstat.link = some 0)
    ∧ (linkless.rxq = ⟨0x210, false, v1⟩ :: [] ∧ ¬ Awaited linkless ⟨0x210, false, v1⟩
      ∧ UniqueMatch linkless.cfg linkless.regs.segEn 0x210 false 0 2
      ∧ linkless.cfg.classes[0]? = some ⟨.rx, 0x010, [], none⟩) := by
  refine ⟨⟨by decide, ?_, classifyId_eq_some _ _ _ _ _ _ |>.mp (by decide +kernel), by decide +kernel,
    inWord_of_tableWF (by decide +kernel), test_witness_FrameRoundTrip.2.2, rfl⟩, by decide, ?_, classifyId_eq_some _ _ _ _ _ _ |>.mp (by decide +kernel),
    by decide +kernel⟩
  · rw [← State.awaits_iff]; decide
  · rw [← State.awaits_iff]; decide

theorem test_witness_OutOfRangeFrameDiscarded :
    ¬ Awaited rx1 ⟨0x210, false, [0, 0, 0, 0xC9]⟩ ∧ UniqueMatch rx1.cfg rx1.regs.segEn 0x210 false 0 2
    ∧ rx1.cfg.classes[0]? = some Ex1.pstat ∧ (∀ e ∈ Ex1.pstat.table, InWord e)
    ∧ ∃ e ∈ Ex1.pstat.table, ¬ inDeclared e (fieldPhys (payloadSum [0, 0, 0, 0xC9]) e) := by
  refine ⟨?_, test_witness_AcceptedFrameStoresRecord.1.2.2.1, by decide +kernel,
    inWord_of_tableWF (by decide +kernel), ?_⟩
  · rw [← State.awaits_iff]; decide
  · by_contra h
    push Not at h
    have := (rangeOk_recordOf _ _).mpr h
    rw [← decodeRecord_eq_recordOf] at this
    revert this
    decide +kernel

/-- The chunk's retries are used up. -/
def exhausted (p : List Byte) : State := (session .wait 2 3).setRxq [⟨0x005102A1, true, p⟩]

theorem test_witness_ResponseEndsOrKeepsWait :
    Awaited (responded 0x005102A1 v1) ⟨0x005102A1, true, v1⟩
    ∧ (4 ≤ [1, 2, 0x12, (0x34 : Byte)].length ∧ [1, 2, 0x12, (0x34 : Byte)].getD 0 0 = 0x01
      ∧ ([1, 2, 0x12, (0x34 : Byte)].getD 1 0).toNat = (responded 0x005102A1 v1).regs.xfer.cur)
    ∧ ([0, 9, 0, (0 : Byte)].getD 0 0 = 0x00
      ∧ (responded 0x005102A1 v1).regs.xfer.att + 1 ≤ (responded 0x005102A1 v1).regs.xfer.maxr.toNat
      ∧ (exhausted v1).regs.xfer.maxr.toNat < (exhausted v1).regs.xfer.att + 1)
    ∧ [1, 2, (0x12 : Byte)].length < 4
    ∧ ¬ ([1, 1, 0, (0 : Byte)].getD 0 0 = 0x00 ∨ ([1, 1, 0, (0 : Byte)].getD 0 0 = 0x01
      ∧ ([1, 1, 0, (0 : Byte)].getD 1 0).toNat = (responded 0x005102A1 v1).regs.xfer.cur)) := by
  refine ⟨?_, by decide +kernel⟩
  rw [← State.awaits_iff]; decide +kernel

/-- A sample of EX1's timer with a stated result. -/
theorem coherent_of_torn {s : State} {last : Stamp} (h : s.torn last = false) :
    Coherent s.timerOk s.cfg.period last s.time := (State.torn_eq_false s last).mp h

theorem test_witness_DisabledStepsChangeNothing :
    base.rxq = [] ∧ base.regs.xfer.st ≠ .next ∧ base.regs.xfer.st ≠ .send ∧ base.regs.xfer.st ≠ .wait
    ∧ (waiting 0 ⟨989, 1⟩).regs.xfer.st = .wait
    ∧ Coherent (waiting 0 ⟨989, 1⟩).timerOk (waiting 0 ⟨989, 1⟩).cfg.period (waiting 0 ⟨989, 1⟩).regs.xfer.t0
      (waiting 0 ⟨989, 1⟩).time
    ∧ elapsedValue (waiting 0 ⟨989, 1⟩).cfg.period (waiting 0 ⟨989, 1⟩).regs.xfer.t0 (waiting 0 ⟨989, 1⟩).time
      < (waiting 0 ⟨989, 1⟩).regs.xfer.tmo := by
  refine ⟨by decide, by decide, by decide, by decide, by decide, coherent_of_torn ?_, ?_⟩ <;> decide +kernel

theorem test_witness_ElapsedCountsTicks :
    0 < t13.cfg.nLinks ∧ 1 ≤ t13.cfg.period ∧ t13.cfg.period ≤ 2 ^ 32
    ∧ t13.timerOk = true ∧ (t13.link 0).last.ticks.toNat < t13.cfg.period
    ∧ t13.time = Stamp.after t13.cfg.period 150 (t13.link 0).last := by decide +kernel

theorem test_witness_LhElapsedReturnsElapsed :
    (0 < t13.cfg.nLinks ∧ Coherent t13.timerOk t13.cfg.period (t13.link 0).last t13.time)
    ∧ (0 < (t13.breakTime ⟨50, 2⟩).cfg.nLinks ∧ ¬ Coherent (t13.breakTime ⟨50, 2⟩).timerOk
      (t13.breakTime ⟨50, 2⟩).cfg.period ((t13.breakTime ⟨50, 2⟩).link 0).last (t13.breakTime ⟨50, 2⟩).time)
    ∧ t13.cfg.nLinks ≤ 2 := by
  refine ⟨⟨by decide, coherent_of_torn (by decide +kernel)⟩, ⟨by decide, fun h => ?_⟩, by decide⟩
  exact absurd (h.2.2 rfl (by decide)) (by decide)

theorem test_witness_LhRxSnapshotsNow : 1 < base.cfg.nLinks ∧ base.cfg.nLinks ≤ 2 := by decide

theorem test_witness_LhCheckTimesOutStrictly :
    0 < t13.cfg.nLinks ∧ (149 : BitVec 32).toNat < (t13.elapsed (t13.link 0).last).toNat
    ∧ (t13.elapsed (t13.link 0).last).toNat ≤ (150 : BitVec 32).toNat ∧ t13.cfg.nLinks ≤ 2 := by decide +kernel

theorem test_witness_LhDiscResetsLink : 1 < t13.cfg.nLinks ∧ t13.cfg.nLinks ≤ 2 := by decide

theorem test_witness_LhStatReturnsLink : 1 < t13.cfg.nLinks ∧ t13.cfg.nLinks ≤ 2 := by decide

theorem test_witness_SeqAdvMovesCursor :
    t13.cfg.seqs[0]? = some ⟨[0x00, 0x01, 0x03], true⟩ ∧ ([0x00, 0x01, 0x03] : List Byte).length ≤ 256
    ∧ ((base.putSeq 0 1).seqIndex 0).toNat + 1 < 3 ∧ 3 ≤ (t13.seqIndex 0).toNat + 1 ∧ t13.cfg.seqs[1]? = none := by
  decide

theorem test_witness_SeqCurReturnsState :
    t13.cfg.seqs[0]? = some ⟨[0x00, 0x01, 0x03], true⟩
    ∧ ([0x00, 0x01, 0x03] : List Byte)[(t13.seqIndex 0).toNat]? = some 0x03
    ∧ 3 ≤ ((t13.putSeq 0 3).seqIndex 0).toNat ∧ t13.cfg.seqs[1]? = none := by decide

theorem test_witness_SeqRstReturnsToStart : 0 < t13.cfg.nSeq ∧ t13.cfg.nSeq ≤ 1 := by decide

theorem test_witness_RepeatedAdvances :
    ([0x00, 0x01, 0x03] : List Byte).length ≤ 256 ∧ (2 : Byte).toNat < ([0x00, 0x01, 0x03] : List Byte).length
    ∧ (⟨[0x00, 0x01, 0x03], true⟩ : Playlist).loops = true
    ∧ (⟨[0x00, 0x01, 0x03], false⟩ : Playlist).loops = false := by decide

theorem test_witness_XferStartCreatesSession :
    (base.regs.xfer.st = .idle ∧ (List.replicate 2048 (0 : Byte)).length ≤ 2048
      ∧ (0x00510000 : BitVec 29).toNat % 0x10000 = 0 ∧ 3 ≤ 7 ∧ 3 < base.cfg.nSeg)
    ∧ (session .wait 0 0).regs.xfer.st ≠ .idle
    ∧ (2048 < (List.replicate 2049 (0 : Byte)).length ∧ (0x00510001 : BitVec 29).toNat % 0x10000 ≠ 0 ∧ 7 < 8
      ∧ base.cfg.nSeg ≤ 4) := by
  decide +kernel

theorem test_witness_XferAbortLatches :
    (session .next 0 0).regs.xfer.st ≠ .idle ∧ base.regs.xfer.st = .idle := by decide +kernel

theorem test_witness_XNextDecides :
    ((session .next 3 0).regs.xfer.st = .next ∧ (session .next 3 0).regs.xfer.cur = (session .next 3 0).regs.xfer.total)
    ∧ ((session .next 2 0).regs.xfer.st = .next ∧ (session .next 2 0).regs.xfer.cur ≠ (session .next 2 0).regs.xfer.total
      ∧ (session .next 2 0).regs.xfer.abort = false)
    ∧ ∃ t, exec .xferAbort (session .next 2 0) = .next t ∧ t.regs.xfer.st = .next
      ∧ t.regs.xfer.cur ≠ t.regs.xfer.total ∧ t.regs.xfer.abort = true :=
  ⟨by decide +kernel, by decide +kernel, _, rfl, by decide +kernel, by decide +kernel, by decide +kernel⟩

theorem test_witness_XSendSendsChunk :
    (session .send 2 2).regs.xfer.st = .send ∧ ((session .send 2 2).setAnswers [true]).sendOk = true
    ∧ ((session .send 2 2).setAnswers [false]).sendOk = false
    ∧ ((session .send 2 2).setAnswers [true, false]).answers = true :: [false] ∧ (session .send 2 2).answers = []
    ∧ (session .send 2 2).regs.xfer.att + 1 ≤ (session .send 2 2).regs.xfer.maxr.toNat
    ∧ (session .send 2 3).regs.xfer.maxr.toNat < (session .send 2 3).regs.xfer.att + 1 := by decide +kernel

/-- The wait since (990, 0) with a timer that has broken its contract and reads (989, 0). -/
def mistimed : State := (waiting 0 ⟨990, 0⟩).breakTime ⟨989, 0⟩

theorem test_witness_XTmoFailsAttempt :
    (waiting 2 ⟨990, 1⟩).regs.xfer.st = .wait
    ∧ Coherent (waiting 2 ⟨990, 1⟩).timerOk (waiting 2 ⟨990, 1⟩).cfg.period (waiting 2 ⟨990, 1⟩).regs.xfer.t0
      (waiting 2 ⟨990, 1⟩).time
    ∧ (waiting 2 ⟨990, 1⟩).regs.xfer.tmo.toNat
      ≤ (elapsedValue (waiting 2 ⟨990, 1⟩).cfg.period (waiting 2 ⟨990, 1⟩).regs.xfer.t0 (waiting 2 ⟨990, 1⟩).time).toNat
    ∧ (waiting 2 ⟨990, 1⟩).regs.xfer.att + 1 ≤ (waiting 2 ⟨990, 1⟩).regs.xfer.maxr.toNat
    ∧ (waiting 3 ⟨990, 1⟩).regs.xfer.maxr.toNat < (waiting 3 ⟨990, 1⟩).regs.xfer.att + 1
    ∧ mistimed.regs.xfer.st = .wait
    ∧ ¬ Coherent mistimed.timerOk mistimed.cfg.period mistimed.regs.xfer.t0 mistimed.time := by
  refine ⟨by decide +kernel, coherent_of_torn ?_, ?_, ?_, ?_, ?_, fun h => absurd ((State.torn_eq_false _ _).mpr h) ?_⟩
  all_goals decide +kernel

/-- Whether a step changes the control state of the engine: the hypothesis of TransferStateTransitions. -/
def changesControl (i : Instr) (s : State) : Bool :=
  match exec i s with
  | .next t => decide (t.regs.xfer.st ≠ s.regs.xfer.st)
  | .fault _ => false
  | .refused _ => false

theorem test_witness_TransferStateTransitions :
    changesControl (.xferStart b18 0x00510000 1 1000 3) base = true ∧ changesControl .xNext (session .next 3 0) = true
    ∧ changesControl .xNext (session .next 0 0) = true
    ∧ changesControl .xSend ((session .send 0 0).setAnswers [true]) = true
    ∧ changesControl .xSend ((session .send 0 3).setAnswers [false]) = true
    ∧ changesControl .rxFrame (responded 0x005102A1 [1, 2, 0x12, 0x34]) = true
    ∧ changesControl .rxFrame (responded 0x005102A1 [0, 9, 0, 0]) = true
    ∧ changesControl .rxFrame (exhausted [0, 9, 0, 0]) = true
    ∧ changesControl .xTmo (waiting 0 ⟨990, 1⟩) = true ∧ changesControl .xTmo (waiting 3 ⟨990, 1⟩) = true
    ∧ changesControl .softReset (session .wait 1 1) = true := by decide +kernel

theorem test_witness_ChunksGoInOrder :
    (∃ t, exec .xSend ((session .send 2 0).setAnswers [true]) = .next t)
    ∧ ∃ t, exec .rxFrame (responded 0x005102A1 [1, 2, 0x12, 0x34]) = .next t := ⟨⟨_, rfl⟩, _, rfl⟩

theorem test_witness_EmptyTransferSucceeds :
    base.regs.xfer.st = .idle ∧ (0x00510000 : BitVec 29).toNat % 0x10000 = 0 ∧ 3 ≤ 7 ∧ 3 < base.cfg.nSeg := by decide

theorem test_witness_RecReadReturnsSlot :
    (base.cfg.classes[3]? = some Ex1.modst ∧ Ex1.modst.dir = .rx ∧ 3 < base.cfg.nSeg)
    ∧ (∀ k : MsgClass, base.cfg.classes[2]? = some k → k.dir = .rx → base.cfg.nSeg ≤ 0)
    ∧ (∀ k : MsgClass, base.cfg.classes[3]? = some k → k.dir = .rx → base.cfg.nSeg ≤ 4)
    ∧ (∀ k : MsgClass, base.cfg.classes[4]? = some k → k.dir = .rx → base.cfg.nSeg ≤ 0) := by
  refine ⟨by decide +kernel, fun k hk h => ?_, fun k _ _ => by decide, fun k hk => ?_⟩
  · cases hk; cases h
  · cases hk

theorem test_witness_TickAdvancesTimer :
    base.cfg.period ≤ 2 ^ 32 ∧ (base.setTime ⟨998, 7⟩).time.ticks.toNat + 1 < base.cfg.period
    ∧ base.cfg.period ≤ (base.setTime ⟨999, 0xFFFFFFFF⟩).time.ticks.toNat + 1 := by decide

theorem test_witness_PayloadRowsDeliverFrame :
    ((base.putHead 0x1FFFFFFF true).head.ext = true ∨ (base.putHead 0x1FFFFFFF true).head.id.toNat ≤ 0x7FF)
    ∧ ((base.putHead 0x7FF false).head.ext = true ∨ (base.putHead 0x7FF false).head.id.toNat ≤ 0x7FF)
    ∧ v1.length ≤ 8 ∧ v1.length = 8 ∧ ([0, 0, 0, 0] : List Byte).length ≤ 4 := by decide

/-- A state that meets the invariant, with a move to come. -/
theorem test_witness_InvariantKeptByStep :
    (State.reset.setInputs [.host [0x50, 0x05]]).Inv
    ∧ ∃ t, step (State.reset.setInputs [.host [0x50, 0x05]]) = .next t := by
  refine ⟨⟨by decide +kernel, by decide, by decide, by decide, by decide, by decide, by decide, ?_,
    fun _ => ⟨by decide, by decide, fun _ => (by decide : (0 : Nat) < 1000)⟩, by decide⟩, _, rfl⟩
  rintro c seg r ⟨⟩

theorem test_witness_PureReadsChangeNothing :
    (isPureRead .segGet = true ∧ ∃ t, exec .segGet base = .next t)
    ∧ isPureRead (.seqCur 0) = true ∧ ∃ t, exec (.seqCur 0) base = .next t := ⟨⟨rfl, _, rfl⟩, rfl, _, rfl⟩

/-- Whether a step writes `S`, apart from the timer: the hypotheses of WritersOfState. -/
def writes (i : Instr) (s : State) : Option (List Bool) :=
  (nextOf (exec i s)).map fun t => [decide (t.regs.segEn ≠ s.regs.segEn), decide (t.regs.recs ≠ s.regs.recs),
    decide (t.regs.links ≠ s.regs.links), decide (t.regs.seqs ≠ s.regs.seqs), decide (t.regs.xfer ≠ s.regs.xfer),
    decide (t.time ≠ s.time)]

theorem test_witness_WritersOfState :
    writes (.segSet 0x01) base = some [true, false, false, false, false, false]
    ∧ writes .rxFrame rx1 = some [false, true, true, false, false, false]
    ∧ writes (.lhCheck 0 149) t13 = some [false, false, true, true, false, false]
    ∧ writes .xNext (session .next 0 0) = some [false, false, false, false, true, false]
    ∧ writes .tick base = some [false, false, false, false, false, true] := by decide +kernel

theorem test_witness_ConfigConstantLogAppended : ∃ t, step (base.setInputs [.host [0x7E]]) = .next t := ⟨_, rfl⟩

/-- The base state with one class of the given table, transmitted and received. -/
def oneClass (d : Dir) (b : BitVec 11) (t : FieldTable) : State :=
  { base with cfg := { Cfg.ex1 with classes := [⟨d, b, t, none⟩] }, rxq := [⟨b.setWidth 29, false, []⟩] }

/-- An entry of factor 0. -/
def flat : FieldEntry := ⟨"x", 0, 8, 0, 0, 0, 0, ""⟩

/-- An entry past bit 63. -/
def outside : FieldEntry := ⟨"x", 60, 8, 1, 0, 0, 0, ""⟩

/-- Each way to stop, on a concrete state: exec refuses there, so that `Stops` holds there too. -/
theorem test_witness_MachineNeverStops :
    ConfigWF base.cfg
    ∧ refusal (.resolve 0 1) (oneClass .tx 0x7FF []) = some .identifierOverflow
    ∧ refusal (.txRecord 0 1 []) (oneClass .tx 0x7FF []) = some .identifierOverflow
    ∧ refusal (.encode 0 [1]) (oneClass .tx 0x010 [flat]) = some .zeroFactor
    ∧ refusal (.txRecord 0 1 [1]) (oneClass .tx 0x010 [flat]) = some .zeroFactor
    ∧ refusal (.decode 0 []) (oneClass .rx 0x010 [outside]) = some .fieldOutsideWord
    ∧ refusal (.encode 0 [1]) (oneClass .tx 0x010 [outside]) = some .fieldOutsideWord
    ∧ refusal (.txRecord 0 1 [1]) (oneClass .tx 0x010 [outside]) = some .fieldOutsideWord
    ∧ refusal .rxFrame (oneClass .rx 0x010 [outside]) = some .fieldOutsideWord := by decide +kernel

end Sys2Proof.Tests
end

section
/-!
The statements of the scope (00_scope.md): which instruction a step runs (R17, R19), and what no step does to CFG, LOG
and the transmit path (R12, R36, R338).
-/

namespace Sys2Proof.Machine

/-! ### Which instruction a step runs -/

theorem fetchInput_host_of_decode {code : Byte} {ops : List Byte} {i : Instr} (s : State) (hcode : code.toNat < 0x80)
    (hi : decode (.cmd (code :: ops)) = .ok i) : fetchInput (.host (code :: ops)) s = .run i s := by
  have hcmd : decodeCmd (code :: ops) = .ok i := hi
  simp only [fetchInput, fetchHost, if_pos hcode, hcmd]

theorem fetchInput_agent_of_decode {code : Byte} {ops : List Byte} {i : Instr} (s : State) (hcode : 0x80 ≤ code.toNat)
    (hi : decode (.cmd (code :: ops)) = .ok i) : fetchInput (.agent (code :: ops)) s = .run i s := by
  have hcmd : decodeCmd (code :: ops) = .ok i := hi
  simp only [fetchInput, fetchAgent, if_neg (Nat.not_lt.mpr hcode), hcmd]

theorem fetchInput_peer_of_decode {fmt : BusFormat} {bs : List Byte} {i : Instr} (s : State)
    (hi : decode (.bus fmt bs) = .ok i) : fetchInput (.peer fmt bs) s = .run i s := by
  have hbus : decodeBus fmt bs = .ok i := hi
  simp only [fetchInput, fetchPeer, hbus]

theorem step_of_fetchInput_run {s t : State} {inp : Input} {rest : List Input} {i : Instr}
    (hin : s.inputs = inp :: rest) (hrun : fetchInput inp (s.setInputs rest) = .run i t) : step s = exec i t := by
  simp only [step, fetch, hin, hrun]

/-- Settles O1: each agent's input that decodes is fetched as its instruction. -/
theorem stepRunsDecodedInstruction : Obligations.StepRunsDecodedInstruction := by
  intro s inp rest i hin hdec
  apply step_of_fetchInput_run hin
  rcases hdec with ⟨code, ops, rfl, hcode, hi⟩ | ⟨code, ops, rfl, hcode, hi⟩ | ⟨fmt, bs, rfl, hi⟩
  · exact fetchInput_host_of_decode _ hcode hi
  · exact fetchInput_agent_of_decode _ hcode hi
  · exact fetchInput_peer_of_decode _ hi

/-! ### What no step writes, and what only grows -/

/-- CFG is as it was, and LOG and the list of frames sent have grown at their ends only. -/
def State.OnlyGrew (s t : State) : Prop :=
  t.cfg = s.cfg ∧ (∃ new, t.log = s.log ++ new) ∧ ∃ more, t.sent = s.sent ++ more

theorem State.onlyGrew_of_eq {s t : State} (hcfg : t.cfg = s.cfg) (hlog : t.log = s.log) (hsent : t.sent = s.sent) :
    State.OnlyGrew s t :=
  ⟨hcfg, ⟨[], by simp [hlog]⟩, [], by simp [hsent]⟩

theorem State.onlyGrew_raise (s : State) (e : Event) : State.OnlyGrew s (s.raise e) :=
  ⟨rfl, ⟨[e], rfl⟩, [], (List.append_nil _).symm⟩

theorem State.onlyGrew_deliver (s : State) (f : Frame) : State.OnlyGrew s (s.deliver f) := by
  rcases s.deliver_cases f with ⟨-, h⟩ | ⟨-, h⟩ <;> rw [h] <;> exact onlyGrew_of_eq rfl rfl rfl

theorem exec_onlyGrew {i : Instr} {s t : State} (h : exec i s = .next t) : State.OnlyGrew s t := by
  obtain ⟨hcfg, hlog, hsent, -⟩ := exec_kept h
  exact ⟨hcfg, hlog, hsent⟩

/-- An input is used up without a write of CFG, LOG or the list of frames sent. -/
theorem State.onlyGrew_setInputs {s t : State} {rest : List Input} :
    State.OnlyGrew (s.setInputs rest) t ↔ State.OnlyGrew s t := Iff.rfl

theorem step_onlyGrew {s t : State} (h : step s = .next t) : State.OnlyGrew s t := by
  rcases step_cases s with ⟨-, hs⟩ | ⟨inp, rest, -, hs⟩
  case inl =>
    obtain rfl := eq_of_next_eq_next (hs.symm.trans h)
    exact State.onlyGrew_of_eq rfl rfl rfl
  case inr =>
    rw [← State.onlyGrew_setInputs (rest := rest)]
    rcases hs with ⟨i, -, hs⟩ | hs | ⟨e, hs⟩ | ⟨f, -, hs⟩ | ⟨a, -, hs⟩ | ⟨n, -, hs⟩ | ⟨-, hs⟩
    case inl => exact exec_onlyGrew (hs.symm.trans h)
    all_goals obtain rfl := eq_of_next_eq_next (hs.symm.trans h)
    · exact State.onlyGrew_of_eq rfl rfl rfl
    · exact State.onlyGrew_raise _ e
    · exact State.onlyGrew_deliver _ f
    all_goals exact State.onlyGrew_of_eq rfl rfl rfl

/-- Settles O59: an instruction keeps CFG and only appends (`exec_kept`), and so does every move that runs none. -/
theorem configConstantLogAppended : Obligations.ConfigConstantLogAppended :=
  fun _ _ h => step_onlyGrew h

end Sys2Proof.Machine
end

section
/-!
The statements of the state (10_state.md): the moves of the environment (R35), what reset leaves (R37), which operation
writes which part of `S` (R26 to R31), and the invariant R38, at reset and through every step.
-/

namespace Sys2Proof.Machine

/-! ### The moves of the environment -/

theorem step_of_fetchInput_done {s t : State} {inp : Input} {rest : List Input} (hin : s.inputs = inp :: rest)
    (hdone : fetchInput inp (s.setInputs rest) = .done t) : step s = .next t := by
  simp only [step, fetch, hin, hdone]

theorem step_of_no_input {s : State} (hin : s.inputs = []) : step s = .next s := by
  simp only [step, fetch, hin]

theorem State.deliver_of_wf (s : State) {f : Frame} (hf : f.wf = true) : s.deliver f = s.setRxq (s.rxq ++ [f]) :=
  if_pos hf

/-- Settles O3: each of these inputs is a move that is over at once, with the update it names. -/
theorem environmentMoves : Obligations.EnvironmentMoves := by
  intro s rest
  refine ⟨fun f hf hin => ?enqueue, fun a hin => ?sendAnswer, fun now hin => ?mistime, fun hin => ?resetInput,
    step_of_no_input⟩
  case enqueue => exact step_of_fetchInput_done hin (congrArg Fetched.done ((s.setInputs rest).deliver_of_wf hf))
  case sendAnswer => exact step_of_fetchInput_done hin rfl
  case mistime => exact step_of_fetchInput_done hin rfl
  case resetInput => exact step_of_fetchInput_done hin rfl

/-! ### Reset -/

/-- Settles O51: reset lists nothing in any store, so that every slot, link and cursor reads its default. -/
theorem resetLeavesS : Obligations.ResetLeavesS :=
  ⟨⟨rfl, fun _ _ => rfl, fun _ => rfl, fun _ => rfl, rfl⟩, fun _ => ⟨rfl, rfl, rfl⟩⟩

/-! ### Which operation writes which part of `S` -/

/-- LH_RX writes no cursor (R196). -/
theorem exec_lhRx_seqs {l : Nat} {s t : State} (h : exec (.lhRx l) s = .next t) : t.regs.seqs = s.regs.seqs := by
  simp only [exec, execLhRx] at h
  split at h
  · rw [eq_of_next_eq_next h]
    rcases s.linkRefresh_cases l with ⟨-, hl⟩ | ⟨-, hl⟩ <;> rw [hl] <;> rfl
  · rw [eq_of_next_eq_next h]
    rfl

/-- Settles O58: what `exec_cases` says can differ, read part by part against the operation that ran. -/
theorem writersOfState : Obligations.WritersOfState := by
  intro i s t h
  have hlhRx (l : Nat) (hi : i = .lhRx l) : t.regs.seqs = s.regs.seqs := exec_lhRx_seqs (hi ▸ h)
  rcases exec_cases h with ⟨-, l, r, d, rfl⟩ | ⟨-, ⟨l, r, d, rfl⟩ | ⟨f, a, d, l, r, -, rfl⟩⟩
      | ⟨hlink, lk, sq, l, r, d, rfl⟩ | ⟨hseq, sq, l, r, d, rfl⟩ | ⟨hxfer, x, a, d, se, l, r, rfl⟩
      | ⟨rfl, rc, lk, x, l, rfl⟩ | ⟨hsegSet, m, rfl⟩ | ⟨rfl, rfl⟩ | ⟨rfl, n, rfl⟩ | ⟨hd, q, rfl⟩
  -- The pure reads and TX_RECORD write no part of `S`.
  · exact ⟨absurd rfl, absurd rfl, absurd rfl, absurd rfl, absurd rfl, absurd rfl, rfl⟩
  · exact ⟨absurd rfl, absurd rfl, absurd rfl, absurd rfl, absurd rfl, absurd rfl, rfl⟩
  · exact ⟨absurd rfl, absurd rfl, absurd rfl, absurd rfl, absurd rfl, absurd rfl, rfl⟩
  -- LH_RX, LH_CHECK and LH_DISC: the links, and the last two the cursors.
  · refine ⟨absurd rfl, absurd rfl, fun _ => .inr (hlink.imp id (.imp id .inl)), fun hne => ?_, absurd rfl, absurd rfl,
      rfl⟩
    rcases hlink with ⟨l, hi⟩ | hlhCheck | hlhDisc
    · exact absurd (hlhRx l hi) hne
    · exact .inr (.inr (.inl hlhCheck))
    · exact .inr (.inr (.inr (.inl hlhDisc)))
  -- SEQ_ADV and SEQ_RST: the cursors.
  · exact ⟨absurd rfl, absurd rfl, absurd rfl, fun _ => hseq.imp id .inl, absurd rfl, absurd rfl, rfl⟩
  -- The host's commands of the transfer and the engine's steps: the session.
  · exact ⟨absurd rfl, absurd rfl, absurd rfl, absurd rfl,
      fun _ => hxfer.imp id (.imp id fun hengine => .inr (hengine.imp id (.imp id .inl))), absurd rfl, rfl⟩
  -- RX_FRAME: records, links and the session.
  · exact ⟨absurd rfl, fun _ => .inl rfl, fun _ => .inl rfl, absurd rfl, fun _ => .inr (.inr (.inl rfl)), absurd rfl,
      rfl⟩
  -- SEG_SET: the segments of interest.
  · exact ⟨fun _ => .inl hsegSet, absurd rfl, absurd rfl, absurd rfl, absurd rfl, absurd rfl, rfl⟩
  -- SOFT_RESET: all of `S`, and not the timer.
  · exact ⟨fun _ => .inr rfl, fun _ => .inr rfl, fun _ => .inr (.inr (.inr (.inr rfl))),
      fun _ => .inr (.inr (.inr (.inr rfl))), fun _ => .inr (.inr (.inr (.inr (.inr (.inr rfl))))), absurd rfl, rfl⟩
  -- TICK: the timer.
  · exact ⟨absurd rfl, absurd rfl, absurd rfl, absurd rfl, absurd rfl, fun _ => rfl, rfl⟩
  -- The format rows: the bus alone.
  · exact ⟨absurd rfl, absurd rfl, absurd rfl, absurd rfl, absurd rfl, absurd rfl, rfl⟩

/-! ### The invariant through the shared operations -/

theorem State.Inv.of_next {s t : State} (hs : s.Inv)
    (h : (Host.Outcome.next s : Host.Outcome State Fault Refusal) = .next t) : t.Inv :=
  eq_of_next_eq_next h ▸ hs

theorem State.Inv.of_answer {s t : State} {r : Ret} (hs : s.Inv) (h : answer s r = .next t) : t.Inv :=
  hs.returns (returns_of_answer h)

theorem State.Inv.of_raised {s t : State} {e : Event} (hs : s.Inv) (h : raised s e = .next t) : t.Inv :=
  hs.returns (returns_of_raised h)

theorem State.Inv.measured {s : State} (hs : s.Inv) (last : Stamp) : (s.measured last).Inv := by
  obtain ⟨n, hn⟩ := s.measured_shape last
  exact hn ▸ hs.drawn n

theorem State.Inv.afterSend {s : State} (hs : s.Inv) (f : Frame) : (s.afterSend f).Inv :=
  hs.of_kept (s.afterSend_cfg f) (s.afterSend_regs f) (s.afterSend_time f) (s.afterSend_timerOk f)
    (s.afterSend_rxq f) (s.afterSend_head f)

/-- A timed-out link keeps the snapshot it had. -/
theorem State.Inv.linkTimeout {s : State} (hs : s.Inv) (l : Nat) (e : BitVec 32) : (s.linkTimeout l e).Inv := by
  have hdown : ((s.putLink l ⟨(s.link l).last, false⟩).resetBoundCursor l).Inv :=
    (hs.putLink l ⟨(s.link l).last, false⟩ fun ok => (hs.clock ok).2.2 l).resetBoundCursor l
  unfold State.linkTimeout
  split
  · exact hdown.pushLog _
  · exact hdown

theorem State.Inv.period_pos {s : State} (hs : s.Inv) : 0 < s.cfg.period := by
  obtain ⟨-, -, -, -, -, -, -, hp, -⟩ := hs.config
  exact hp

theorem State.Inv.period_le {s : State} (hs : s.Inv) : s.cfg.period ≤ 2 ^ 32 := by
  obtain ⟨-, -, -, -, -, -, -, -, hp⟩ := hs.config
  exact hp

theorem State.Inv.linkDisconnect {s : State} (hs : s.Inv) (l : Nat) : (s.linkDisconnect l).Inv := by
  have hdown : ((s.putLink l Link.down).resetBoundCursor l).Inv :=
    (hs.putLink l Link.down fun _ => hs.period_pos).resetBoundCursor l
  unfold State.linkDisconnect
  split
  · exact hdown.pushLog _
  · exact hdown

/-- A mask cut to the segments of the configuration (R28) is a number below `2^N_SEG`. -/
theorem toNat_and_ofNat_lt (mask : Byte) (n : Nat) : (mask &&& BitVec.ofNat 8 (2 ^ n - 1)).toNat < 2 ^ n := by
  have hpos := Nat.two_pow_pos n
  calc (mask &&& BitVec.ofNat 8 (2 ^ n - 1)).toNat
      ≤ (BitVec.ofNat 8 (2 ^ n - 1)).toNat := by rw [BitVec.toNat_and]; exact Nat.and_le_right
    _ ≤ 2 ^ n - 1 := by rw [BitVec.toNat_ofNat]; exact Nat.mod_le _ _
    _ < 2 ^ n := by omega

theorem State.Inv.setSegEn {s : State} (hs : s.Inv) {m : Byte} (hm : m.toNat < 2 ^ s.cfg.nSeg) :
    (s.setSegEn m).Inv :=
  { hs with segments := hm }

theorem State.Inv.setTime {s : State} (hs : s.Inv) {t : Stamp} (ht : s.timerOk = true → t.ticks.toNat < s.cfg.period) :
    (s.setTime t).Inv :=
  { hs with clock := fun ok => ⟨ht ok, (hs.clock ok).2⟩ }

theorem State.Inv.setRxq {s : State} (hs : s.Inv) {q : List Frame} (hq : ∀ f ∈ q, f.wf = true) : (s.setRxq q).Inv :=
  { hs with frames := ⟨hq, hs.frames.2⟩ }

/-- A tick keeps the tick value below the period (R326). -/
theorem Stamp.tick_lt {period : Nat} {t : Stamp} (hpos : 0 < period) (hle : period ≤ 2 ^ 32) :
    (t.tick period).ticks.toNat < period := by
  unfold Stamp.tick
  split
  · next hlt =>
    have hadd : (t.ticks + 1).toNat = t.ticks.toNat + 1 := by rw [BitVec.toNat_add]; simp; omega
    rw [hadd]
    exact hlt
  · exact hpos

/-- An advance stays in the playlist (R222). -/
theorem advanceIndex_lt {p : Playlist} {i : Byte} (hi : i.toNat < p.states.length) :
    (advanceIndex p i).toNat < p.states.length := by
  unfold advanceIndex
  split
  · next hlt =>
    rw [BitVec.toNat_ofNat]
    exact Nat.lt_of_le_of_lt (Nat.mod_le _ _) hlt
  · split
    · exact Nat.zero_lt_of_lt hi
    · exact hi

/-! ### The invariant through every instruction -/

theorem State.Inv.exec_txRecord {s t : State} {c seg : Nat} {pr : PhysRecord} (hs : s.Inv)
    (h : exec (.txRecord c seg pr) s = .next t) : t.Inv := by
  rcases exec_txRecord_shape h with hret | ⟨f, a, d, l, r, -, rfl⟩
  · exact hs.returns hret
  · exact hs.of_kept rfl rfl rfl rfl rfl rfl

theorem State.Inv.exec_lhRx {s t : State} {l : Nat} (hs : s.Inv) (h : exec (.lhRx l) s = .next t) : t.Inv := by
  simp only [exec, execLhRx] at h
  split at h
  · exact (hs.linkRefresh l).of_answer h
  · exact hs.of_raised h

theorem State.Inv.exec_lhCheck {s t : State} {l : Nat} {th : BitVec 32} (hs : s.Inv)
    (h : exec (.lhCheck l th) s = .next t) : t.Inv := by
  have hmeasured := hs.measured (s.link l).last
  simp only [exec, execLhCheck] at h
  split at h
  · split at h
    · exact (hmeasured.linkTimeout l _).of_answer h
    · exact hmeasured.of_answer h
  · exact hs.of_raised h

theorem State.Inv.exec_lhDisc {s t : State} {l : Nat} (hs : s.Inv) (h : exec (.lhDisc l) s = .next t) : t.Inv := by
  simp only [exec, execLhDisc] at h
  split at h
  · exact (hs.linkDisconnect l).of_answer h
  · exact hs.of_raised h

theorem State.Inv.exec_seqAdv {s t : State} {q : Nat} (hs : s.Inv) (h : exec (.seqAdv q) s = .next t) : t.Inv := by
  simp only [exec, execSeqAdv] at h
  split at h
  · exact (hs.putSeq q _ fun hq => advanceIndex_lt (hs.cursors q hq)).of_answer h
  · exact hs.of_raised h

theorem State.Inv.exec_seqRst {s t : State} {q : Nat} (hs : s.Inv) (h : exec (.seqRst q) s = .next t) : t.Inv := by
  simp only [exec, execSeqRst] at h
  split at h
  · exact (hs.putSeq_zero q).of_answer h
  · exact hs.of_raised h

/-- A segment that has been cut to its 3 bits is still a well-formed one (R100). -/
theorem xferIdWF_toNat {base : BitVec 29} {seg : Nat} (h : xferIdWF base seg = true) (g : BitVec 3) :
    xferIdWF base g.toNat = true := by
  have hg := g.isLt
  simp only [xferIdWF, Bool.and_eq_true, decide_eq_true_eq] at h ⊢
  exact ⟨h.1, by omega⟩

/-- The registers of an accepted session: at chunk 0 of the buffer given (R244). -/
theorem State.Inv.setXfer_started {s : State} {b : List Byte} {base : BitVec 29} {seg : Nat} {tmo : BitVec 32}
    {maxr : Byte} (hs : s.Inv) (hlen : b.length ≤ Config.xferMaxBytes) (hwf : xferIdWF base seg = true) :
    (s.setXfer (s.regs.xfer.started b base seg tmo maxr)).Inv :=
  hs.setXfer _ (Memory.wf_ofBytes b) (fun _ hc => Memory.lt_of_mem_ofBytes hc)
    (fun _ => ⟨Nat.zero_le _, rfl, hlen, xferIdWF_toNat hwf _⟩) (fun h => by rcases h with h | h <;> cases h)
    fun ok => (hs.clock ok).2.1

theorem State.Inv.exec_xferStart {s t : State} {b : List Byte} {base : BitVec 29} {seg : Nat} {tmo : BitVec 32}
    {maxr : Byte} (hs : s.Inv) (h : exec (.xferStart b base seg tmo maxr) s = .next t) : t.Inv := by
  simp only [exec, execXferStart] at h
  split at h
  · exact hs.of_raised h
  split at h
  · exact hs.of_raised h
  split at h
  · exact hs.of_raised h
  split at h
  · exact hs.of_raised h
  · next hlen hwf _ => exact (hs.setXfer_started (Nat.le_of_not_lt hlen) (Bool.eq_true_of_not_eq_false hwf)).of_answer h

theorem State.Inv.exec_xferAbort {s t : State} (hs : s.Inv) (h : exec .xferAbort s = .next t) : t.Inv := by
  simp only [exec, execXferAbort] at h
  split at h
  · exact hs.of_raised h
  · have habort : (s.setXfer { s.regs.xfer with abort := true }).Inv :=
      hs.setXfer _ hs.canon.1 hs.buffer hs.session hs.attempts fun ok => (hs.clock ok).2.1
    exact habort.of_answer h

/-- A chunk that is not the last is begun: the attempts start at 0 (R246). -/
theorem State.Inv.beginChunk {s : State} (hs : s.Inv) (hst : s.regs.xfer.st = .next)
    (hcur : s.regs.xfer.cur ≠ s.regs.xfer.total) :
    (s.setXfer { s.regs.xfer with att := 0, st := .send }).Inv := by
  have hsession := hs.session (by rw [hst]; decide)
  exact hs.setXfer _ hs.canon.1 hs.buffer (fun _ => hsession)
    (fun _ => ⟨Nat.lt_of_le_of_ne hsession.1 hcur, Nat.zero_le _⟩) fun ok => (hs.clock ok).2.1

theorem State.Inv.exec_xNext {s t : State} (hs : s.Inv) (h : exec .xNext s = .next t) : t.Inv := by
  simp only [exec, execXNext] at h
  split at h
  · next hst =>
    split at h
    · exact (hs.finish _).of_next h
    · next hcur =>
      split at h
      · exact (hs.finish _).of_next h
      · exact (hs.beginChunk hst hcur).of_next h
  · exact hs.of_next h

/-- The wait is measured from the timer's present value (R250). -/
theorem State.Inv.beginWait {s : State} (hs : s.Inv) (hst : s.regs.xfer.st = .send) : s.beginWait.Inv :=
  hs.setXfer _ hs.canon.1 hs.buffer (fun _ => hs.session (by rw [hst]; decide)) (fun _ => hs.attempts (.inl hst))
    fun ok => (hs.clock ok).1

theorem State.Inv.exec_xSend {s t : State} (hs : s.Inv) (h : exec .xSend s = .next t) : t.Inv := by
  have hsent := hs.afterSend s.chunkFrame
  simp only [exec, execXSend] at h
  split at h
  · next hst =>
    have hst' : (s.afterSend s.chunkFrame).regs.xfer.st = .send := by rw [State.afterSend_regs]; exact hst
    split at h
    · exact (hsent.beginWait hst').of_next h
    · exact ((hsent.pushLog _).attemptFailed (.inl hst')).of_next h
  · exact hs.of_next h

theorem State.Inv.exec_xTmo {s t : State} (hs : s.Inv) (h : exec .xTmo s = .next t) : t.Inv := by
  obtain ⟨n, hn⟩ := s.measured_shape s.regs.xfer.t0
  simp only [exec, execXTmo, hn] at h
  split at h
  · next hst =>
    split at h
    · exact (((hs.drawn n).pushLog _).attemptFailed (.inr hst)).of_next h
    · exact (hs.drawn n).of_next h
  · exact hs.of_next h

theorem State.Inv.receive {s : State} (hs : s.Inv) (f : Frame) : (s.receive f).Inv := by
  unfold State.receive
  split
  · next haw => exact hs.xferResponse f ((s.awaits_iff f).mp haw).1
  · exact hs.dispatchTelemetry f

theorem State.Inv.exec_rxFrame {s t : State} (hs : s.Inv) (h : exec .rxFrame s = .next t) : t.Inv := by
  simp only [exec, execRxFrame] at h
  split at h
  · exact hs.of_next h
  · next f rest hq =>
    split at h
    · cases h
    · have hrest : ∀ g ∈ rest, g.wf = true := fun g hg => hs.frames.1 g (hq ▸ List.mem_cons_of_mem f hg)
      exact ((hs.setRxq hrest).receive f).of_next h

/-- A standard identifier the peer names has 11 bits (R96). -/
theorem State.Inv.exec_fTelem {s t : State} {id : BitVec 11} (hs : s.Inv) (h : exec (.fTelem id) s = .next t) :
    t.Inv := by
  have hid : (id.setWidth 29).toNat ≤ Config.stdIdMax := by
    rw [BitVec.toNat_setWidth]
    exact (Nat.mod_le _ _).trans (Nat.le_of_lt_succ id.isLt)
  exact (hs.putHead _ _ (.inr hid)).of_next h

/-- Every instruction keeps the invariant. -/
theorem exec_preserves_inv {i : Instr} {s t : State} (hs : s.Inv) (h : exec i s = .next t) : t.Inv := by
  cases i with
  | txRecord => exact hs.exec_txRecord h
  | lhRx => exact hs.exec_lhRx h
  | lhCheck => exact hs.exec_lhCheck h
  | lhDisc => exact hs.exec_lhDisc h
  | seqAdv => exact hs.exec_seqAdv h
  | seqRst => exact hs.exec_seqRst h
  | xferStart => exact hs.exec_xferStart h
  | xferAbort => exact hs.exec_xferAbort h
  | xNext => exact hs.exec_xNext h
  | xSend => exact hs.exec_xSend h
  | xTmo => exact hs.exec_xTmo h
  | rxFrame => exact hs.exec_rxFrame h
  | segSet mask => exact (hs.setSegEn (toNat_and_ofNat_lt mask _)).of_answer h
  | softReset => exact hs.resetBlock.of_answer h
  | tick => exact (hs.setTime fun _ => Stamp.tick_lt hs.period_pos hs.period_le).of_next h
  | fTelem => exact hs.exec_fTelem h
  | fXreq | fXrsp => exact (hs.putHead _ _ (.inl rfl)).of_next h
  | pFields | pAck | pAckAck | pAckNack | pChunk => exact (hs.deliver _).of_next h
  | _ => exact hs.returns (returns_of_isPureRead rfl h)

theorem State.Inv.setInputs {s : State} (hs : s.Inv) (rest : List Input) : (s.setInputs rest).Inv :=
  hs.of_kept rfl rfl rfl rfl rfl rfl

theorem State.Inv.setAnswers {s : State} (hs : s.Inv) (a : List Bool) : (s.setAnswers a).Inv :=
  hs.of_kept rfl rfl rfl rfl rfl rfl

/-- Settles O55: every instruction keeps the invariant (`exec_preserves_inv`), and so does every move that runs none. -/
theorem invariantKeptByStep : Obligations.InvariantKeptByStep := by
  intro s t hs h
  rcases step_cases s with ⟨-, hstep⟩ | ⟨inp, rest, -, hmove⟩
  · exact hs.of_next (hstep.symm.trans h)
  have hrest : (s.setInputs rest).Inv := hs.setInputs rest
  rcases hmove with ⟨i, -, hstep⟩ | hstep | ⟨e, hstep⟩ | ⟨f, -, hstep⟩ | ⟨a, -, hstep⟩ | ⟨now, -, hstep⟩ | ⟨-, hstep⟩
    <;> rw [hstep] at h
  · exact exec_preserves_inv hrest h
  · exact hrest.of_next h
  · exact (hrest.returns (State.returns_raise _ e)).of_next h
  · exact (hrest.deliver f).of_next h
  · exact (hrest.setAnswers _).of_next h
  · exact (hrest.breakTime now).of_next h
  · exact hrest.resetBlock.of_next h

/-- Settles O56: the stores are empty, no session runs, and the timer stands at 0. -/
theorem invariantAtReset : Obligations.InvariantAtReset where
  config := by decide +kernel
  canon := by decide
  buffer := by decide
  cursors := by decide
  session := absurd rfl
  attempts := by decide
  segments := by decide
  records := fun _ _ _ h => by cases h
  clock := fun _ => ⟨by decide, by decide, fun _ => (by decide : 0 < Cfg.ex1.period)⟩
  frames := ⟨by decide, by decide⟩

end Sys2Proof.Machine
end

section
/-! The statement of the memory model (20_memory.md): the pure reads of R68. -/

namespace Sys2Proof.Machine

/-- Settles O57: a pure read only returns (`returns_of_isPureRead`), and what only returns keeps `S` and the environment
and at most appends to LOG (`State.Returns.kept`). -/
theorem pureReadsChangeNothing : Obligations.PureReadsChangeNothing :=
  fun _ _ _ hread hexec => (returns_of_isPureRead hread hexec).kept

end Sys2Proof.Machine
end

section
/-!
The statements of the encodings (30_encoding.md): decoding inverts encoding (R90, R96 to R106), a bus word has one
reading, the identifiers of one transfer differ (R103), and the format rows on the bus (R93, R96 to R105).
-/

namespace Sys2Proof.Machine

/-! ### The last operand of a command, with no byte after it -/

/-- A reader that reads back what was written, whatever follows, reads it back with nothing behind it. -/
theorem read_of_read_append {α : Type} {rd : List Byte → Option (α × List Byte)} {a : α} {w : List Byte}
    (h : ∀ bs, rd (w ++ bs) = some (a, bs)) : rd w = some (a, []) := by
  simpa using h []

@[simp] theorem rdNat_wrNat_last (n : Nat) : rdNat (wrNat n) = some (n, []) :=
  read_of_read_append (rdNat_wrNat n)

@[simp] theorem rdWord_wrNat_last {w : Nat} (v : BitVec w) : rdWord w (wrNat v.toNat) = some (v, []) :=
  read_of_read_append (rdWord_wrNat v)

@[simp] theorem rdBool_wrBool_last (b : Bool) : rdBool (wrBool b) = some (b, []) :=
  read_of_read_append (rdBool_wrBool b)

@[simp] theorem rdBytes_wrBytes_last (p : List Byte) : rdBytes (wrBytes p) = some (p, []) :=
  read_of_read_append (rdBytes_wrBytes p)

@[simp] theorem rdList_wrList_rat_last (pr : PhysRecord) : rdList rdRat (wrList wrRat pr) = some (pr, []) :=
  read_of_read_append (rdList_wrList_rat pr)

@[simp] theorem rdList_wrList_fieldVal_last (r : Record) :
    rdList rdFieldVal (wrList wrFieldVal r) = some (r, []) :=
  read_of_read_append (rdList_wrList_fieldVal r)

/-- An operation with a code (R106) is read back from its words, well formed or not: what it takes is checked when it
runs (R107). Each operand's reader gives back what was written and leaves the operands behind it. -/
theorem decode_encode_of_code {i : Instr} (hcode : i.code ≠ none) : decode (encode i) = .ok i := by
  cases i with
  | fTelem | fXreq | fXrsp | pFields | pAck | pAckAck | pAckNack | pChunk => exact absurd rfl hcode
  | xferAbort | xferStat | segGet | softReset | rxFrame | xNext | xSend | xTmo | tick => rfl
  | _ => simp [encode, decode, decodeCmd, operandsRead]

/-! ### The bytes of a word of the bus, and back -/

theorem leBytes_leNat (bs : List Byte) : leBytes bs.length (leNat bs) = bs := by
  induction bs with
  | nil => rfl
  | cons b bs ih =>
    have hb := b.isLt
    have hhead : BitVec.ofNat 8 (b.toNat + 256 * leNat bs) = b :=
      BitVec.eq_of_toNat_eq (by rw [BitVec.toNat_ofNat]; omega)
    have htail : (b.toNat + 256 * leNat bs) / 256 = leNat bs := by omega
    rw [List.length_cons, leNat, leBytes, hhead, htail, ih]

/-- A word with the format bit of an extended identifier is the one its parts make (R98, R99). -/
theorem xferWord_of_parts {w m : Nat} (hfmt : w / 2 ^ 29 = 1) (hmid : w / 8 % 32 = m) :
    xferWord m (BitVec.ofNat 13 (w / 2 ^ 16)) (BitVec.ofNat 8 (w / 2 ^ 8)) (BitVec.ofNat 3 w) = leBytes 4 w := by
  have hsum : 2 ^ 29 + w / 2 ^ 16 % 2 ^ 13 * 2 ^ 16 + w / 2 ^ 8 % 2 ^ 8 * 2 ^ 8 + m * 2 ^ 3 + w % 2 ^ 3 = w := by omega
  simp only [xferWord, BitVec.toNat_ofNat, hsum]

/-- The checksum two bytes make is written as these two bytes, high first (R62). -/
theorem ackWord_append (status k c1 c0 : Byte) (rest : List Byte) :
    ackWord status k (c1 ++ c0) rest = status :: k :: c1 :: c0 :: rest := by
  have hhigh : (c1 ++ c0).extractLsb' 8 8 = c1 := BitVec.extractLsb'_append_eq_left
  have hlow : (c1 ++ c0).extractLsb' 0 8 = c0 := BitVec.extractLsb'_append_eq_right
  rw [ackWord, hhigh, hlow]

/-! ### Decoding the words of the format rows -/

theorem decodeIdent_telemWord (id : BitVec 11) : decodeIdent (telemWord id) = .ok (.fTelem id) := by
  have hlen : (telemWord id).length = 2 := length_leBytes 2 _
  simp only [decodeIdent, hlen, leNat_telemWord, if_pos, id.isLt, BitVec.ofNat_toNat, BitVec.setWidth_eq]

/-- Bits 7 to 3 tell a request identifier from a response identifier; every other part stands in its own bits (R98, R99,
R101). -/
theorem decodeIdent_xferWord {m : Nat} (hm : m < 32) (b : BitVec 13) (k : Byte) (seg : BitVec 3) :
    decodeIdent (xferWord m b k seg) = if m = 0b00000 then .ok (.fXreq b k seg)
      else if m = 0b10100 then .ok (.fXrsp b k seg) else .error (.badBusWord .ident) := by
  have hb := b.isLt
  have hk := k.isLt
  have hg := seg.isLt
  have hlen : (xferWord m b k seg).length = 4 := length_leBytes 4 _
  have hw := leNat_xferWord m hm b k seg
  simp only [decodeIdent, hlen]
  generalize leNat (xferWord m b k seg) = w at hw ⊢
  have hfmt : w / 2 ^ 29 = 1 := by omega
  have hmid : w / 8 % 32 = m := by omega
  have hbase : BitVec.ofNat 13 (w / 2 ^ 16) = b := BitVec.eq_of_toNat_eq (by rw [BitVec.toNat_ofNat]; omega)
  have hchunk : BitVec.ofNat 8 (w / 2 ^ 8) = k := BitVec.eq_of_toNat_eq (by rw [BitVec.toNat_ofNat]; omega)
  have hpart : BitVec.ofNat 3 w = seg := BitVec.eq_of_toNat_eq (by rw [BitVec.toNat_ofNat]; omega)
  rw [if_neg (by decide), if_pos ⟨trivial, hfmt⟩, hmid, hbase, hchunk, hpart]

/-- The status byte selects the row of a response payload (R104, R107). -/
theorem decodeAck_ackWord (status k : Byte) (ck : BitVec 16) {rest : List Byte} (hlen : rest.length ≤ 4) :
    decodeAck (ackWord status k ck rest) = if status = Config.stAck then .ok (.pAckAck k ck rest)
      else if status = Config.stNack then .ok (.pAckNack k ck rest) else .ok (.pAck status k ck rest) := by
  rw [ackWord, decodeAck, checksum_append, if_neg (Nat.not_lt.mpr hlen)]

/-- Settles O5: an operation is read back operand by operand (`decode_encode_of_code`), a format row by its own
layout. -/
theorem decodeInvertsEncode : Obligations.DecodeInvertsEncode := by
  intro i hwf
  cases i with
  | fTelem id => exact decodeIdent_telemWord id
  | fXreq b k seg => exact decodeIdent_xferWord (by decide) b k seg
  | fXrsp b k seg => exact decodeIdent_xferWord (by decide) b k seg
  | pFields p => exact if_pos (of_decide_eq_true hwf)
  | pChunk p => exact if_pos (of_decide_eq_true hwf)
  | pAck status k ck rest =>
    simp only [Instr.wellFormed, Bool.and_eq_true, decide_eq_true_eq] at hwf
    obtain ⟨⟨hack, hnack⟩, hlen⟩ := hwf
    exact (decodeAck_ackWord status k ck hlen).trans ((if_neg hack).trans (if_neg hnack))
  | pAckAck k ck rest => exact decodeAck_ackWord Config.stAck k ck (of_decide_eq_true hwf)
  | pAckNack k ck rest => exact decodeAck_ackWord Config.stNack k ck (of_decide_eq_true hwf)
  | _ => exact decode_encode_of_code (by simp [Instr.code])

/-! ### The one reading of a word of the bus -/

/-- A test that guards an answer held where there is one. -/
theorem of_ite_ok {P : Prop} [Decidable P] {x i : Instr} {e : DecodeError}
    (h : (if P then .ok x else .error e : Except DecodeError Instr) = .ok i) : P ∧ x = i := by
  split at h
  · next hP => exact ⟨hP, Except.ok.inj h⟩
  · cases h

theorem encode_of_decodeIdent {bs : List Byte} {i : Instr} (h : decodeIdent bs = .ok i) :
    i.wellFormed = true ∧ encode i = .bus .ident bs := by
  have hbytes := leBytes_leNat bs
  simp only [decodeIdent] at h
  split at h
  · next hlen =>
    rw [hlen] at hbytes
    obtain ⟨hstd, rfl⟩ := of_ite_ok h
    have hword : telemWord (BitVec.ofNat 11 (leNat bs)) = bs := by
      rw [telemWord, BitVec.toNat_ofNat, Nat.mod_eq_of_lt hstd, hbytes]
    exact ⟨rfl, congrArg (Words.bus .ident) hword⟩
  · split at h
    · next hext =>
      obtain ⟨hlen, hfmt⟩ := hext
      rw [hlen] at hbytes
      split at h
      · next hmid =>
        cases h
        exact ⟨rfl, congrArg (Words.bus .ident) ((xferWord_of_parts hfmt hmid).trans hbytes)⟩
      · obtain ⟨hmid, rfl⟩ := of_ite_ok h
        exact ⟨rfl, congrArg (Words.bus .ident) ((xferWord_of_parts hfmt hmid).trans hbytes)⟩
    · cases h

theorem encode_of_decodeAck {bs : List Byte} {i : Instr} (h : decodeAck bs = .ok i) :
    i.wellFormed = true ∧ encode i = .bus .ack bs := by
  unfold decodeAck at h
  split at h
  · next status k c1 c0 rest =>
    have hword := ackWord_append status k c1 c0 rest
    split at h
    · cases h
    · next hlen =>
      have hlen := Nat.le_of_not_lt hlen
      split at h
      · next hack =>
        cases h
        exact ⟨decide_eq_true hlen, congrArg (Words.bus .ack) (hack ▸ hword)⟩
      · next hack =>
        split at h
        · next hnack =>
          cases h
          exact ⟨decide_eq_true hlen, congrArg (Words.bus .ack) (hnack ▸ hword)⟩
        · next hnack =>
          cases h
          have hwf : (Instr.pAck status k (c1 ++ c0) rest).wellFormed = true := by
            simp only [Instr.wellFormed, Bool.and_eq_true, decide_eq_true_eq]
            exact ⟨⟨hack, hnack⟩, hlen⟩
          exact ⟨hwf, congrArg (Words.bus .ack) hword⟩
  · cases h

/-- Settles O6, format by format: each reader keeps every bit of the word, as the bytes written back from the parts it
found show. -/
theorem busWordsHaveOneReading : Obligations.BusWordsHaveOneReading := by
  intro fmt bs i h
  cases fmt with
  | ident => exact encode_of_decodeIdent h
  | ack => exact encode_of_decodeAck h
  | fields =>
    obtain ⟨hlen, rfl⟩ := of_ite_ok h
    exact ⟨decide_eq_true hlen, rfl⟩
  | chunk =>
    obtain ⟨hlen, rfl⟩ := of_ite_ok h
    exact ⟨decide_eq_true hlen, rfl⟩

/-- Settles O4: the decoder, run on each word. -/
theorem sampleWordsDecode : Obligations.SampleWordsDecode :=
  ⟨rfl, rfl, rfl, rfl, rfl, rfl, rfl, rfl⟩

/-! ### The identifiers of a transfer -/

theorem xferIdWF_iff {base : BitVec 29} {seg : Nat} :
    xferIdWF base seg = true ↔ base.toNat % 0x10000 = 0 ∧ seg ≤ 7 := by
  simp only [xferIdWF, Bool.and_eq_true, decide_eq_true_eq]

/-- The parts of a request identifier share no bit (R98, R100), for a chunk and a segment given as numbers. -/
theorem xidReqOf_eq_sum {base k seg : Nat} (hbase : base % 0x10000 = 0) (hk : k ≤ 255) (hseg : seg ≤ 7) :
    xidReqOf base k seg = base + k * 2 ^ 8 + seg :=
  or_chunk_or_segment base k seg 0 hbase hk hseg (.inl rfl)

/-- The same of a response identifier, with `0xA0` in bits 7 to 3 (R99, R100). -/
theorem xidRspOf_eq_sum {base k seg : Nat} (hbase : base % 0x10000 = 0) (hk : k ≤ 255) (hseg : seg ≤ 7) :
    xidRspOf base k seg = base + k * 2 ^ 8 + 0xA0 + seg :=
  or_chunk_or_segment base k seg 0xA0 hbase hk hseg (.inr rfl)

/-- Settles O21: as sums of parts in their own bits, identifiers of one kind differ where the chunks do, and a request
and a response differ by `0xA0` modulo 256. -/
theorem transferIdentifiersDistinct : Obligations.TransferIdentifiersDistinct := by
  intro base seg k k' hwf hk hk'
  obtain ⟨hbase, hseg⟩ := xferIdWF_iff.mp hwf
  rw [xidReqOf_eq_sum hbase hk hseg, xidReqOf_eq_sum hbase hk' hseg, xidRspOf_eq_sum hbase hk hseg,
    xidRspOf_eq_sum hbase hk' hseg]
  omega

/-! ### The format rows on the bus -/

/-- A transfer base has nothing below bit 16 (R100). -/
theorem baseOf_mod (b : BitVec 13) : baseOf b % 0x10000 = 0 := Nat.mul_mod_left _ _

/-- Settles O53: the parts of a transfer identifier share no bit, so the row names their sum. -/
theorem identifierRowsNameFrame : Obligations.IdentifierRowsNameFrame := by
  intro s
  refine ⟨fun id => ?standard, fun b k seg => ?request, fun b k seg => ?response⟩
  case standard =>
    have hid : id.setWidth 29 = BitVec.ofNat 29 id.toNat := BitVec.ofNat_toNat 29 id |>.symm
    rw [← hid]
    rfl
  case request =>
    have hid : xidReqOf (baseOf b) k.toNat seg.toNat = b.toNat * 2 ^ 16 + k.toNat * 2 ^ 8 + seg.toNat :=
      xidReqOf_eq_sum (baseOf_mod b) (Nat.le_of_lt_succ k.isLt) (Nat.le_of_lt_succ seg.isLt)
    rw [← hid]
    rfl
  case response =>
    have hid : xidRspOf (baseOf b) k.toNat seg.toNat = b.toNat * 2 ^ 16 + k.toNat * 2 ^ 8 + 0xA0 + seg.toNat :=
      xidRspOf_eq_sum (baseOf_mod b) (Nat.le_of_lt_succ k.isLt) (Nat.le_of_lt_succ seg.isLt)
    rw [← hid]
    rfl

/-- Settles O54: the bytes of each payload row are at most 8, so the frame is one (R22) and is placed. -/
theorem payloadRowsDeliverFrame : Obligations.PayloadRowsDeliverFrame := by
  intro s hhead
  refine ⟨fun p hp => congrArg _ (State.putData_eq hhead p hp),
    fun p hp => congrArg _ (State.putData_eq hhead p hp.le), fun status k ck r hr => ?ack⟩
  have hack (st : Byte) : s.putData (ackWord st k ck r) = { s with rxq := s.rxq ++ [⟨s.head.id, s.head.ext,
      st :: k :: BitVec.ofNat 8 (ck.toNat / 256) :: BitVec.ofNat 8 ck.toNat :: r⟩] } := by
    rw [ackWord, checksum_high, checksum_low]
    have hlen : r.length + 4 ≤ 8 := Nat.add_le_add_right hr 4
    exact State.putData_eq hhead _ hlen
  exact ⟨congrArg _ (hack status), congrArg _ (hack Config.stAck), congrArg _ (hack Config.stNack)⟩

end Sys2Proof.Machine
end

section
/-!
The statements of the frame codec (40_codec.md): what DECODE, ENCODE, RANGECHK, ACKPACK and ACKUNPACK return (R134, R138,
R140, R146, R148), and the laws of R142.
-/

namespace Sys2Proof.Machine

/-! ### What the five operations return -/

theorem exec_decode_of_inWord {s : State} {c : Nat} {k : MsgClass} {p : List Byte} (hk : s.cfg.classes[c]? = some k)
    (hp : p.length ≤ 8) (hin : ∀ e ∈ k.table, InWord e) :
    exec (.decode c p) s = .next { s with ret := .record (recordOf k.table (payloadSum p)) } := by
  have hrefused := (hasFieldOutsideWord_eq_false k.table).mpr hin
  simp [exec, execDecode, hk, hp, hrefused, decodeRecord_eq_recordOf]

theorem exec_decode_badOperand {s : State} {c : Nat} {p : List Byte} (h : s.cfg.classes[c]? = none ∨ 8 < p.length) :
    exec (.decode c p) s = raised s (.badOperand 0x01) := by
  show execDecode c p s = _
  unfold execDecode
  split
  · next k hk =>
    have hlen : 8 < p.length := h.resolve_left (by simp [hk])
    exact if_neg (Nat.not_le.mpr hlen)
  · rfl

/-- Settles O7: DECODE computes the record of the rules' own formulas where it has its operands, and raises
BadOperand elsewhere. -/
theorem decodeReturnsRecord : Obligations.DecodeReturnsRecord :=
  fun _ _ _ => ⟨fun _ => exec_decode_of_inWord, exec_decode_badOperand⟩

/-- The word ENCODE returns, as one OR over the fields (R138). -/
theorem encodeWord_eq_foldl (m : ClampMode) (t : FieldTable) (pr : PhysRecord) : encodeWord m t pr
    = (List.zipWith (fun e p => saturate e.bitWidth (quotientOf m e p) <<< e.bitOffset) t pr).foldl (· ||| ·) 0 :=
  encodeWord_foldl m t pr 0

/-- The flags of R138, by the rules' own formulas. -/
theorem encodeFlags_eq_zipWith (m : ClampMode) (t : FieldTable) (pr : PhysRecord) : encodeFlags m t pr
    = List.zipWith (fun e p => (decide (p < e.minPhys ∨ e.maxPhys < p),
        decide ((saturate e.bitWidth (quotientOf m e p) : Int) ≠ quotientOf m e p))) t pr := by
  simp only [encodeFlags, oorFlag, satFlag, encodeRaw_eq_saturate, encodeQuotient_eq_quotientOf, Bool.decide_or,
    List.zip, List.map_zipWith]

theorem exec_encode_of_not_refused {s : State} {c : Nat} {k : MsgClass} {pr : PhysRecord}
    (hk : s.cfg.classes[c]? = some k) (hlen : pr.length = k.table.length) (hok : encodeRefusal k.table = none) :
    exec (.encode c pr) s = answer s (.encoded (bytes8 (encodeWord s.cfg.encClampMode k.table pr))
      (encodeFlags s.cfg.encClampMode k.table pr)) := by
  simp [exec, execEncode, hk, hlen, hok, encodePayload]

theorem exec_encode_badOperand {s : State} {c : Nat} {pr : PhysRecord}
    (h : ∀ k, s.cfg.classes[c]? = some k → pr.length ≠ k.table.length) :
    exec (.encode c pr) s = raised s (.badOperand 0x02) := by
  show execEncode c pr s = _
  unfold execEncode
  split
  · next k hk => exact if_neg (h k hk)
  · rfl

/-- Settles O8: ENCODE's word, bytes and flags are those of the rules' own formulas. -/
theorem encodeReturnsClampedPayload : Obligations.EncodeReturnsClampedPayload := by
  refine fun s c pr => ⟨fun k hk hlen hin hfac => ⟨_, rfl, ?_⟩, exec_encode_badOperand⟩
  have hok := (encodeRefusal_eq_none k.table).mpr ⟨hin, hfac⟩
  rw [exec_encode_of_not_refused hk hlen hok, bytes8, leBytes_eq_map, encodeWord_eq_foldl, encodeFlags_eq_zipWith]
  rfl

/-- A record of its table (R24): one pair for each entry, each raw value in its field. -/
theorem recordTyped_iff {t : FieldTable} {r : Record} : recordTyped t r = true ↔ r.length = t.length
    ∧ ∀ (i : Nat) (e : FieldEntry) (v : FieldVal), t[i]? = some e → r[i]? = some v → v.raw < 2 ^ e.bitWidth := by
  refine ⟨fun h => ?_, fun ⟨hlen, hraw⟩ => recordTyped_of hlen hraw⟩
  simp only [recordTyped, Bool.and_eq_true, decide_eq_true_eq, List.all_eq_true] at h
  obtain ⟨hlen, hraw⟩ := h
  refine ⟨hlen, fun i e v he hv => hraw (e, v) ?_⟩
  exact List.mem_of_getElem? (List.getElem?_zip_eq_some.mpr ⟨he, hv⟩)

theorem mem_violations {t : FieldTable} {r : Record} (hlen : r.length = t.length) (i : Nat) : i ∈ violations t r
    ↔ ∃ e v, t[i]? = some e ∧ r[i]? = some v ∧ (v.phys < e.minPhys ∨ e.maxPhys < v.phys) := by
  simpa [violations] using mem_violationsFrom 0 t r hlen i

theorem exec_rangechk_of_typed {s : State} {c : Nat} {k : MsgClass} {r : Record} (hk : s.cfg.classes[c]? = some k)
    (ht : recordTyped k.table r = true) :
    exec (.rangechk c r) s = answer s (.range (rangeOk k.table r) (violations k.table r)) := by
  simp [exec, execRangechk, hk, ht]

theorem exec_rangechk_badOperand {s : State} {c : Nat} {r : Record}
    (h : ∀ k, s.cfg.classes[c]? = some k → ¬ recordTyped k.table r = true) :
    exec (.rangechk c r) s = raised s (.badOperand 0x03) := by
  show execRangechk c r s = _
  unfold execRangechk
  split
  · next k hk => exact if_neg (h k hk)
  · rfl

/-- Settles O9: a record of its table (`recordTyped_iff`) is answered with `violations`, which ascends and lists what
R140 says. -/
theorem rangechkListsViolations : Obligations.RangechkListsViolations := by
  refine fun s c r => ⟨fun k hk hlen hraw => ?typed, fun h => exec_rangechk_badOperand fun k hk ht => ?untyped⟩
  case typed =>
    exact ⟨_, _, exec_rangechk_of_typed hk (recordTyped_iff.mpr ⟨hlen, hraw⟩), violationsFrom_pairwise 0 _ _,
      mem_violations hlen, decide_eq_true_iff⟩
  case untyped =>
    obtain ⟨hlen, hraw⟩ := recordTyped_iff.mp ht
    rcases h k hk with hne | ⟨i, e, v, he, hv, hle⟩
    · exact hne hlen
    · exact Nat.not_lt.mpr hle (hraw i e v he hv)

theorem exec_ackunpack_of_le {s : State} {p : List Byte} (hp : p.length ≤ 8) :
    exec (.ackunpack p) s = answer s (.ack (ackUnpack p)) := if_pos hp

/-- Settles O10: the layout of R104, and its reading by `ackUnpack_of_lt` and `ackUnpack_of_le`. -/
theorem ackPayloadPacksAndUnpacks : Obligations.AckPayloadPacksAndUnpacks := by
  refine fun s => ⟨fun status k ck => ?pack, fun p hlt => ?short, fun p h4 h8 => ?full,
    fun p hlong => if_neg (Nat.not_le.mpr hlong)⟩
  case pack =>
    rw [← checksum_high, ← checksum_low]
    rfl
  case short =>
    rw [exec_ackunpack_of_le (by omega), ackUnpack_of_lt p hlt]
    rfl
  case full =>
    rw [exec_ackunpack_of_le h8, ackUnpack_of_le p h4]
    rfl

/-! ### The fields of what ENCODE returns -/

/-- ENCODE of a well-formed class completes, with the payload whose word holds each field's raw value in place. -/
theorem exec_encode_next {s : State} {c : Nat} {k : MsgClass} {pr : PhysRecord} (hk : s.cfg.classes[c]? = some k)
    (hwf : TableWF k.table) (hlen : pr.length = k.table.length) :
    ∃ out flags, exec (.encode c pr) s = .next { s with ret := .encoded out flags } ∧ out.length = 8
      ∧ payloadSum out = fieldsWord k.table (rawsOf s.cfg.encClampMode k.table pr) :=
  ⟨_, _, exec_encode_of_tableWF hk hlen hwf, length_bytes8 _, payloadSum_bytes8_fieldsWord hwf⟩

/-- Each field of ENCODE's word holds its saturated quotient (R138). -/
theorem fieldRaw_fieldsWord_rawsOf {m : ClampMode} {t : FieldTable} {pr : PhysRecord} (hwf : TableWF t) {i : Nat}
    {e : FieldEntry} {p : Q} (he : t[i]? = some e) (hp : pr[i]? = some p) :
    fieldRaw (fieldsWord t (rawsOf m t pr)) e = saturate e.bitWidth (quotientOf m e p) := by
  obtain ⟨-, -, hapart⟩ := hwf
  exact fieldRaw_fieldsWord t _ hapart rawsOf_lt i e _ he (rawsOf_getElem? he hp)

/-- Settles O13: a set bit of ENCODE's word lies in some field. -/
theorem undefinedBitsStayZero : Obligations.UndefinedBitsStayZero := by
  intro s c k pr hk hwf hlen
  obtain ⟨out, flags, hexec, -, hword⟩ := exec_encode_next hk hwf hlen
  refine ⟨out, flags, hexec, fun j hfree => Bool.eq_false_iff.mpr fun hset => ?_⟩
  rw [hword] at hset
  obtain ⟨e, he, hcover⟩ := covered_of_testBit_fieldsWord _ _ rawsOf_lt j hset
  exact hfree e he hcover

/-! ### R142 (a): a frame, decoded and encoded -/

/-- A field's raw value holds the bits of the word from the field's offset on. -/
theorem testBit_fieldRaw (word : Nat) (e : FieldEntry) (j : Nat) :
    (fieldRaw word e).testBit j = (decide (j < e.bitWidth) && word.testBit (j + e.bitOffset)) := by
  rw [fieldRaw, Nat.testBit_mod_two_pow, Nat.testBit_div_two_pow]

/-- A bit of `mask(T)` (R142) lies in some field. -/
theorem testBit_tableMask (t : FieldTable) (j : Nat) :
    (tableMask t).testBit j = true ↔ ∃ e ∈ t, e.bitOffset ≤ j ∧ j - e.bitOffset < e.bitWidth := by
  simp [tableMask, testBit_foldl_fieldMask]

/-- The fields' own raw values, put back in place, are the defined bits of the word (R142 a). -/
theorem fieldsWord_of_fieldRaw {t : FieldTable} {rs : List Nat} {word : Nat}
    (h : ∀ (i : Nat) e, t[i]? = some e → rs[i]? = some (fieldRaw word e)) : fieldsWord t rs = word &&& tableMask t := by
  apply Nat.eq_of_testBit_eq
  intro j
  rw [Bool.eq_iff_iff, testBit_fieldsWord, Nat.testBit_and, Bool.and_eq_true, testBit_tableMask]
  constructor
  · rintro ⟨i, e, r, he, hr, hle, hbit⟩
    obtain rfl : fieldRaw word e = r := Option.some.inj ((h i e he).symm.trans hr)
    rw [testBit_fieldRaw, Nat.sub_add_cancel hle, Bool.and_eq_true, decide_eq_true_eq] at hbit
    exact ⟨hbit.2, e, List.mem_of_getElem? he, hle, hbit.1⟩
  · rintro ⟨hbit, e, hmem, hle, hlt⟩
    obtain ⟨i, he⟩ := List.mem_iff_getElem?.mp hmem
    refine ⟨i, e, _, he, h i e he, hle, ?_⟩
    rw [testBit_fieldRaw, Nat.sub_add_cancel hle, hbit, decide_eq_true hlt, Bool.and_self]

/-- Settles O11: the decoded values encode to the raw values they come from (`rawsOf_recordOf`), and these put the
defined bits back (`fieldsWord_of_fieldRaw`). -/
theorem frameRoundTrip : Obligations.FrameRoundTrip := by
  intro s c k p hk hwf hp hrange
  have hin := (hasFieldOutsideWord_eq_false k.table).mp (hasFieldOutsideWord_of_tableWF hwf)
  refine ⟨_, exec_decode_of_inWord hk hp hin, ?_⟩
  obtain ⟨out, flags, hexec, hout, hword⟩ := exec_encode_next
    (s := { s with ret := .record (recordOf k.table (payloadSum p)) })
    (pr := (recordOf k.table (payloadSum p)).map (·.phys)) hk hwf (by simp [recordOf])
  exact ⟨out, flags, hexec, hout, hword.trans (fieldsWord_of_fieldRaw (rawsOf_recordOf hwf hrange))⟩

/-! ### R142 (b): a record, encoded and decoded -/

theorem clampedOperand_of_inDeclared {m : ClampMode} {e : FieldEntry} {p : Q} (h : m = .rawOnly ∨ inDeclared e p) :
    clampedOperand m e p = p := by
  rcases h with rfl | ⟨hmin, hmax⟩
  · rfl
  · rw [clampedOperand, max_eq_left hmin, min_eq_left hmax, ite_self]

/-- Rounding leaves both ends of a field alone, as it does every integer. -/
theorem roundAway_top (w : Nat) : roundAway (2 ^ w - 1) = 2 ^ w - 1 := by
  exact_mod_cast roundAway_int (2 ^ w - 1)

theorem roundAway_zero : roundAway 0 = 0 := by
  exact_mod_cast roundAway_int 0

/-- A number of the field is left alone by saturation (R16). -/
theorem saturate_cast {w : Nat} {n : Int} (hlo : 0 ≤ n) (hhi : n ≤ 2 ^ w - 1) : (saturate w n : Int) = n := by
  rw [saturate, min_eq_left hhi, max_eq_right hlo, Int.toNat_of_nonneg hlo]

/-- A quotient in the field is off by at most a half after rounding and saturation (R16). -/
theorem abs_saturate_roundAway_sub_le {w : Nat} {x : Q} (hlo : 0 ≤ x) (hhi : x ≤ 2 ^ w - 1) :
    |(saturate w (roundAway x) : Q) - x| ≤ 1 / 2 := by
  have hround : (saturate w (roundAway x) : Int) = roundAway x :=
    saturate_cast (roundAway_zero ▸ roundAway_mono hlo) (roundAway_top w ▸ roundAway_mono hhi)
  have hcast : (saturate w (roundAway x) : Q) = roundAway x := by exact_mod_cast hround
  rw [hcast]
  exact abs_roundAway_sub_le x

/-- A raw value within a half of a physical value's quotient stands for a value within half a step of it. -/
theorem abs_scaled_sub_le {r p f o : Q} (hf : f ≠ 0) (h : |r - (p - o) / f| ≤ 1 / 2) : |r * f + o - p| ≤ |f| / 2 := by
  have hscale : r * f + o - p = (r - (p - o) / f) * f := by
    field_simp
    ring
  calc |r * f + o - p| = |r - (p - o) / f| * |f| := by rw [hscale, abs_mul]
    _ ≤ 1 / 2 * |f| := mul_le_mul_of_nonneg_right h (abs_nonneg f)
    _ = |f| / 2 := by ring

/-- Settles O12: a field holds its saturated quotient, which is `r` for a grid value (`saturate_quotientOf_grid`) and
within a half of the quotient for any other value of the field. -/
theorem recordRoundTrip : Obligations.RecordRoundTrip := by
  intro s c k pr hk hwf hlen
  obtain ⟨out, flags, hexec, -, hword⟩ := exec_encode_next hk hwf hlen
  refine ⟨out, flags, hexec, fun i e p he hp => ?_⟩
  obtain ⟨-, -, -, hfactor, -⟩ := hwf.1 e (List.mem_of_getElem? he)
  have hraw := fieldRaw_fieldsWord_rawsOf (m := s.cfg.encClampMode) hwf he hp
  rw [← hword] at hraw
  refine ⟨fun r hr hgrid hmode => ?grid, fun hmode hlo hhi => ?offGrid⟩
  case grid =>
    rw [saturate_quotientOf_grid hfactor hr p hgrid hmode] at hraw
    exact ⟨hraw, by rw [fieldPhys, hraw, hgrid]⟩
  case offGrid =>
    rw [fieldPhys, hraw, quotientOf, clampedOperand_of_inDeclared hmode]
    exact abs_scaled_sub_le hfactor (abs_saturate_roundAway_sub_le hlo hhi)

/-! ### R142 (d), (e), (f): the quotient as a function of the physical value -/

/-- With a positive factor the quotient rises with the operand. -/
theorem quotientOf_mono (m : ClampMode) {e : FieldEntry} (hf : 0 < e.factor) : Monotone (quotientOf m e) :=
  fun _ _ h => roundAway_mono (div_le_div_of_nonneg_right (sub_le_sub_right (clampedOperand_mono m e h) _) hf.le)

/-- With a negative factor it falls. -/
theorem quotientOf_anti (m : ClampMode) {e : FieldEntry} (hf : e.factor < 0) : Antitone (quotientOf m e) :=
  fun _ _ h => roundAway_mono (div_le_div_of_nonpos_of_le hf.le (sub_le_sub_right (clampedOperand_mono m e h) _))

/-- Settles O16: saturation keeps the order of the quotients. -/
theorem encodeMonotone : Obligations.EncodeMonotone := by
  intro e m p q hpq
  simp only [encodeRaw_eq_saturate]
  exact ⟨fun hf => saturate_mono _ (quotientOf_mono m hf hpq), fun hf => saturate_mono _ (quotientOf_anti m hf hpq)⟩

/-- The clamp to the declared range, before scaling, is a clamp of the rounded quotient between those of the range's
ends: rounding and scaling keep the order or reverse it. -/
theorem quotientOf_physThenRaw {e : FieldEntry} (hf : e.factor ≠ 0) (hrange : e.minPhys ≤ e.maxPhys) (p : Q) :
    quotientOf .physThenRaw e p = min
      (max (quotientOf .rawOnly e p) (min (quotientOf .rawOnly e e.minPhys) (quotientOf .rawOnly e e.maxPhys)))
      (max (quotientOf .rawOnly e e.minPhys) (quotientOf .rawOnly e e.maxPhys)) := by
  have hclamp : quotientOf .physThenRaw e p = quotientOf .rawOnly e (min (max p e.minPhys) e.maxPhys) := rfl
  rw [hclamp]
  rcases lt_or_gt_of_ne hf with hneg | hpos
  · have hanti := quotientOf_anti .rawOnly hneg
    have hends := hanti hrange
    rw [hanti.map_min, hanti.map_max]
    omega
  · have hmono := quotientOf_mono .rawOnly hpos
    have hends := hmono hrange
    rw [hmono.map_min, hmono.map_max]
    omega

/-- The unclamped quotient of a raw value's physical value is the raw value. -/
theorem quotientOf_rawOnly_physOf {e : FieldEntry} (hf : e.factor ≠ 0) (r : Nat) :
    quotientOf .rawOnly e (physOf e r) = r := by
  have hclamp : clampedOperand .rawOnly e (physOf e r) = physOf e r := rfl
  rw [quotientOf, hclamp, physOf, add_sub_cancel_right, mul_div_cancel_right₀ _ hf]
  exact_mod_cast roundAway_int r

theorem physOf_zero (e : FieldEntry) : physOf e 0 = e.offset := by
  simp [physOf]

theorem physOf_top (e : FieldEntry) : physOf e (2 ^ e.bitWidth - 1) = (2 ^ e.bitWidth - 1) * e.factor + e.offset := by
  rw [physOf, Nat.cast_pred (Nat.two_pow_pos _), Nat.cast_pow, Nat.cast_ofNat]

theorem quotientOf_rawOnly_zero {e : FieldEntry} (hf : e.factor ≠ 0) : quotientOf .rawOnly e (physOf e 0) = 0 :=
  quotientOf_rawOnly_physOf hf 0

theorem quotientOf_rawOnly_top {e : FieldEntry} (hf : e.factor ≠ 0) :
    quotientOf .rawOnly e (physOf e (2 ^ e.bitWidth - 1)) = 2 ^ e.bitWidth - 1 := by
  rw [quotientOf_rawOnly_physOf hf, Nat.cast_pred (Nat.two_pow_pos _), Nat.cast_pow, Nat.cast_ofNat]

theorem saturate_of_top_le {w : Nat} {n : Int} (h : 2 ^ w - 1 ≤ n) : saturate w n = 2 ^ w - 1 := by
  have htop : ((2 ^ w : Nat) : Int) = 2 ^ w := Nat.cast_pow 2 w
  rw [saturate, min_eq_right h]
  omega

theorem saturate_of_le_zero {w : Nat} {n : Int} (h : n ≤ 0) : saturate w n = 0 := by
  rw [saturate]
  omega

/-- In either clamp mode all values whose unclamped quotient is the top of the field or above have the same bits. -/
theorem saturate_quotientOf_of_top_le {m : ClampMode} {e : FieldEntry} (hf : e.factor ≠ 0)
    (hrange : e.minPhys ≤ e.maxPhys) {p p' : Q} (hp : 2 ^ e.bitWidth - 1 ≤ quotientOf .rawOnly e p)
    (hp' : 2 ^ e.bitWidth - 1 ≤ quotientOf .rawOnly e p') :
    saturate e.bitWidth (quotientOf m e p) = saturate e.bitWidth (quotientOf m e p') := by
  cases m with
  | rawOnly => rw [saturate_of_top_le hp, saturate_of_top_le hp']
  | physThenRaw =>
    rw [quotientOf_physThenRaw hf hrange, quotientOf_physThenRaw hf hrange, saturate, saturate]
    omega

/-- So have all values whose unclamped quotient is zero or below. -/
theorem saturate_quotientOf_of_le_zero {m : ClampMode} {e : FieldEntry} (hf : e.factor ≠ 0)
    (hrange : e.minPhys ≤ e.maxPhys) {p p' : Q} (hp : quotientOf .rawOnly e p ≤ 0)
    (hp' : quotientOf .rawOnly e p' ≤ 0) :
    saturate e.bitWidth (quotientOf m e p) = saturate e.bitWidth (quotientOf m e p') := by
  cases m with
  | rawOnly => rw [saturate_of_le_zero hp, saturate_of_le_zero hp']
  | physThenRaw =>
    rw [quotientOf_physThenRaw hf hrange, quotientOf_physThenRaw hf hrange, saturate, saturate]
    omega

/-- Settles O14: a field holds its saturated quotient, and past an end of the field that is the one of the end. -/
theorem encodeSaturates : Obligations.EncodeSaturates := by
  intro s c k pr hk hwf hlen
  obtain ⟨out, flags, hexec, -, hword⟩ := exec_encode_next hk hwf hlen
  refine ⟨out, flags, hexec, fun i e p he hp => ?_⟩
  obtain ⟨-, -, -, hf, hrange⟩ := hwf.1 e (List.mem_of_getElem? he)
  rw [hword, fieldRaw_fieldsWord_rawsOf hwf he hp]
  refine ⟨rfl, fun hhigh => ⟨?top, fun hraw => ?ones⟩, fun hlow => ⟨?bottom, fun hraw => ?zeros⟩⟩
  case top =>
    rw [← physOf_top]
    exact saturate_quotientOf_of_top_le hf hrange hhigh (quotientOf_rawOnly_top hf).ge
  case ones => exact hraw ▸ saturate_of_top_le hhigh
  case bottom =>
    rw [← physOf_zero]
    exact saturate_quotientOf_of_le_zero hf hrange hlow (quotientOf_rawOnly_zero hf).le
  case zeros => exact hraw ▸ saturate_of_le_zero hlow

/-- A clamp of the quotient to the field is no more than what saturation does. -/
theorem saturate_clamp_top (w : Nat) (n : Int) : saturate w (min (max n 0) (2 ^ w - 1)) = saturate w n := by
  rw [saturate, saturate]
  omega

/-- Settles O15: the clamp to such a range is the clamp of the quotient to the field (`quotientOf_physThenRaw`), which
saturation does anyway. -/
theorem clampModesAgreeWhenTight : Obligations.ClampModesAgreeWhenTight := by
  intro e hwf htight p
  obtain ⟨-, -, -, hf, hrange⟩ := hwf
  have htop : (0 : Int) ≤ 2 ^ e.bitWidth - 1 := sub_nonneg.mpr (one_le_pow₀ one_le_two)
  rw [encodeRaw_eq_saturate, encodeRaw_eq_saturate, quotientOf_physThenRaw hf hrange]
  rcases htight with ⟨hmin, hmax⟩ | ⟨hmin, hmax⟩
  · rw [hmin, hmax, quotientOf_rawOnly_zero hf, quotientOf_rawOnly_top hf, min_eq_left htop, max_eq_right htop,
      saturate_clamp_top]
  · rw [hmin, hmax, quotientOf_rawOnly_zero hf, quotientOf_rawOnly_top hf, min_eq_right htop, max_eq_left htop,
      saturate_clamp_top]

end Sys2Proof.Machine
end

section
/-!
The statements of the registry and the receive path (41_registry_dispatch.md): RESOLVE and CLASSIFY (R162, R164, R180),
the identifiers of a transfer (R174, R176, R178), TX_RECORD (R172), and what RX_FRAME does with a frame that is not the
awaited response (R170).
-/

namespace Sys2Proof.Machine

/-! ### RESOLVE -/

theorem exec_resolve_of_le {s : State} {c seg : Nat} {k : MsgClass} (hk : s.cfg.classes[c]? = some k)
    (hseg : seg < s.cfg.nSeg) (hid : telemId k.base seg ≤ Config.stdIdMax) :
    exec (.resolve c seg) s = answer s (.stdId (BitVec.ofNat 11 (telemId k.base seg))) := by
  simp only [exec, execResolve, hk, if_pos hseg, if_pos hid]

theorem exec_resolve_of_overflow {s : State} {c seg : Nat} {k : MsgClass} (hk : s.cfg.classes[c]? = some k)
    (hseg : seg < s.cfg.nSeg) (hid : Config.stdIdMax < telemId k.base seg) :
    exec (.resolve c seg) s = .refused .identifierOverflow := by
  simp only [exec, execResolve, hk, if_pos hseg, if_neg (Nat.not_le.mpr hid)]

theorem exec_resolve_badOperand {s : State} {c seg : Nat} (h : s.cfg.classes[c]? = none ∨ s.cfg.nSeg ≤ seg) :
    exec (.resolve c seg) s = raised s (.badOperand 0x10) := by
  show execResolve c seg s = _
  unfold execResolve
  split
  · next k hk =>
    have hseg : s.cfg.nSeg ≤ seg := h.resolve_left (by simp [hk])
    exact if_neg (Nat.not_lt.mpr hseg)
  · rfl

/-- A standard identifier has 11 bits, and more where it stands in a frame (R22, R96). -/
theorem toNat_ofNat_telemId {w : Nat} {base : BitVec 11} {seg : Nat} (hw : 11 ≤ w)
    (hid : telemId base seg ≤ Config.stdIdMax) :
    (BitVec.ofNat w (telemId base seg)).toNat = base.toNat + seg * 0x100 := by
  have hpow : 2 ^ 11 ≤ 2 ^ w := Nat.pow_le_pow_right (by decide) hw
  rw [BitVec.toNat_ofNat, Nat.mod_eq_of_lt (Nat.lt_of_le_of_lt hid hpow)]
  rfl

/-- Settles O17: RESOLVE answers the sum where it has 11 bits, refuses it where it has more, and raises BadOperand where
there is no such class or segment. -/
theorem resolveAddsSegment : Obligations.ResolveAddsSegment :=
  fun _ _ _ => ⟨fun _ hk hseg =>
    ⟨fun hid => ⟨_, toNat_ofNat_telemId le_rfl hid, exec_resolve_of_le hk hseg hid⟩, exec_resolve_of_overflow hk hseg⟩,
    exec_resolve_badOperand⟩

/-! ### CLASSIFY -/

/-- Settles O18: CLASSIFY answers `classifyId`, which is the one match (`classifyId_eq_some`). -/
theorem classifyFindsTheOneMatch : Obligations.ClassifyFindsTheOneMatch :=
  fun _ _ ext => ⟨_, rfl, classifyId_eq_some _ _ _ ext⟩

theorem exec_classify_of_uniqueMatch {s : State} {id : BitVec 29} {ext : Bool} {c seg : Nat}
    (h : UniqueMatch s.cfg s.regs.segEn id.toNat ext c seg) :
    exec (.classify id ext) s = answer s (.slot (some (c, seg))) := by
  show execClassify id ext s = _
  rw [execClassify, (classifyId_eq_some _ _ _ _ _ _).mpr h]

theorem uniqueMatch_of_exec_classify {s : State} {id : BitVec 29} {ext : Bool} {c seg : Nat}
    (h : exec (.classify id ext) s = .next { s with ret := .slot (some (c, seg)) }) :
    UniqueMatch s.cfg s.regs.segEn id.toNat ext c seg :=
  (classifyId_eq_some _ _ _ _ _ _).mp (Ret.slot.inj (congrArg State.ret (Host.Outcome.next.inj h)))

/-- Two classes of one direction at different places of a well-formed configuration share no identifier (R25 c). -/
theorem base_add_ne_of_configWF {g : Cfg} (hwf : ConfigWF g) {c c' : Nat} {k k' : MsgClass} {seg seg' : Nat}
    (hk : g.classes[c]? = some k) (hk' : g.classes[c']? = some k') (hne : c ≠ c') (hdir : k.dir = k'.dir)
    (hseg : seg < g.nSeg) (hseg' : seg' < g.nSeg) : k.base.toNat + seg * 0x100 ≠ k'.base.toNat + seg' * 0x100 := by
  obtain ⟨-, -, hdistinct, -⟩ := hwf
  rw [List.pairwise_iff_getElem] at hdistinct
  obtain ⟨hc, rfl⟩ := List.getElem?_eq_some_iff.mp hk
  obtain ⟨hc', rfl⟩ := List.getElem?_eq_some_iff.mp hk'
  rcases Nat.lt_or_gt_of_ne hne with hlt | hgt
  · exact hdistinct c c' hc hc' hlt hdir seg hseg seg' hseg'
  · exact (hdistinct c' c hc' hc hgt hdir.symm seg' hseg' seg hseg).symm

/-- Under ConfigWF a match is the one match (R164, R25 c). -/
theorem Matches.unique {g : Cfg} (hwf : ConfigWF g) {en : Byte} {id c seg : Nat} (h : Matches g en id c seg) :
    UniqueMatch g en id false c seg := by
  refine ⟨rfl, h, fun c' seg' h' => ?_⟩
  obtain ⟨k, hk, hdir, hid, hseg, -⟩ := h
  obtain ⟨k', hk', hdir', hid', hseg', -⟩ := h'
  have hc : c' = c := by
    by_contra hne
    exact base_add_ne_of_configWF hwf hk' hk hne (hdir'.trans hdir.symm) hseg' hseg (hid'.symm.trans hid)
  subst hc
  obtain rfl : k = k' := Option.some.inj (hk.symm.trans hk')
  exact ⟨rfl, by omega⟩

/-- Settles O19: the identifier RESOLVE returns has this class and segment as its one match, and a match determines the
identifier. -/
theorem classifyInvertsResolve : Obligations.ClassifyInvertsResolve := by
  intro s c seg k hwf hk hdir hseg hen
  have hid := telemId_le_of_configWF hwf hk hseg
  have hwide : (BitVec.ofNat 11 (telemId k.base seg)).setWidth 29 = BitVec.ofNat 29 (telemId k.base seg) :=
    BitVec.setWidth_ofNat_of_le_of_lt (by decide) (Nat.lt_succ_of_le hid)
  have hval := toNat_ofNat_telemId (w := 29) (by decide) hid
  have hmatch : UniqueMatch s.cfg s.regs.segEn (BitVec.ofNat 29 (telemId k.base seg)).toNat false c seg :=
    Matches.unique hwf ⟨k, hk, hdir, hval, hseg, hen⟩
  refine ⟨_, exec_resolve_of_le hk hseg hid, ?found, fun id' hfound => ?resolved⟩ <;> rw [hwide]
  case found => exact exec_classify_of_uniqueMatch hmatch
  case resolved =>
    obtain ⟨-, ⟨k', hk', -, hid', -⟩, -⟩ := uniqueMatch_of_exec_classify hfound
    obtain rfl : k = k' := Option.some.inj (hk.symm.trans hk')
    exact BitVec.eq_of_toNat_eq (hid'.trans hval.symm)

/-! ### The identifiers of a transfer -/

/-- A transfer base leaves the low 16 bits of an identifier free, so the sum of its parts has 29 bits (R100). -/
theorem toNat_ofNat_transferSum {base : BitVec 29} {k : Byte} {seg m x : Nat} (hbase : base.toNat % 0x10000 = 0)
    (hseg : seg ≤ 7) (hm : m ≤ 0xA0) (hx : x = base.toNat + k.toNat * 2 ^ 8 + m + seg) :
    (BitVec.ofNat 29 x).toNat = x := by
  have hlt := base.isLt
  have hk := k.isLt
  rw [BitVec.toNat_ofNat, Nat.mod_eq_of_lt (by omega)]

/-- Settles O20: the identifiers are the ORs of R98 and R99, which are sums (R100); elsewhere the operand test fails. -/
theorem transferIdentifierLayout : Obligations.TransferIdentifierLayout := by
  refine fun s base k seg => ⟨fun hbase hseg => ?_, fun h => ?_⟩
  · have hwf := xferIdWF_iff.mpr ⟨hbase, hseg⟩
    have hk := Nat.le_of_lt_succ k.isLt
    have hreq := xidReqOf_eq_sum hbase hk hseg
    have hrsp := xidRspOf_eq_sum hbase hk hseg
    have hreqNat := toNat_ofNat_transferSum hbase hseg (Nat.zero_le _) hreq
    have hrspNat := toNat_ofNat_transferSum hbase hseg le_rfl hrsp
    refine ⟨_, _, if_pos hwf, if_pos hwf, hreqNat, hrspNat, hreqNat.trans hreq, ?_⟩
    omega
  · have hwf : ¬ xferIdWF base seg = true := by rw [xferIdWF_iff]; omega
    exact ⟨if_neg hwf, if_neg hwf⟩

/-- Bits 7 to 3 of an identifier of each kind (R98, R99). -/
def XidKind.mid : XidKind → BitVec 5
  | .req => 0b00000
  | .rsp => 0b10100

/-- XID_PARSE answers a kind, chunk and segment where the identifier has the base's bits 28 to 16, the kind's bits 7 to 3,
and these in their own bits (R101). -/
theorem xidParseOf_eq_some {id base : BitVec 29} {kind : XidKind} {k : Byte} {seg : BitVec 3} :
    xidParseOf id base = some (kind, k, seg) ↔ id.extractLsb' 16 13 = base.extractLsb' 16 13
      ∧ id.extractLsb' 3 5 = kind.mid ∧ id.extractLsb' 8 8 = k ∧ id.extractLsb' 0 3 = seg := by
  unfold xidParseOf
  split
  · next hbase => simp [hbase]
  next hbase =>
  split
  · next hmid => cases kind <;> simp [not_not.mp hbase, hmid, XidKind.mid]
  next hreq =>
  split
  · next hmid => cases kind <;> simp [not_not.mp hbase, hmid, XidKind.mid]
  · next hrsp => cases kind <;> simp [hreq, hrsp, XidKind.mid]

/-- The bits XID_PARSE looks at are all 29: they hold these parts exactly in the sum of the parts (R100). -/
theorem parts_iff_toNat_eq_sum {id base : BitVec 29} (hbase : base.toNat % 0x10000 = 0) (mid : BitVec 5) (k : Byte)
    (seg : BitVec 3) : (id.extractLsb' 16 13 = base.extractLsb' 16 13 ∧ id.extractLsb' 3 5 = mid
        ∧ id.extractLsb' 8 8 = k ∧ id.extractLsb' 0 3 = seg)
      ↔ id.toNat = base.toNat + k.toNat * 2 ^ 8 + mid.toNat * 2 ^ 3 + seg.toNat := by
  have hid := id.isLt
  have hb := base.isLt
  have hm := mid.isLt
  have hk := k.isLt
  have hg := seg.isLt
  simp only [extractLsb'_eq_iff, BitVec.extractLsb'_toNat, Nat.shiftRight_eq_div_pow]
  omega

/-- Settles O22: what XID_PARSE tests are the parts of the identifier (`xidParseOf_eq_some`), whose sum is the one XID_REQ
or XID_RSP makes. -/
theorem parseInvertsTransferIdentifiers : Obligations.ParseInvertsTransferIdentifiers := by
  refine fun s id base => ⟨fun hbase => ⟨_, if_pos hbase, fun k seg => ?_⟩, fun hbase => if_neg hbase⟩
  have hk := Nat.le_of_lt_succ k.isLt
  have hseg := Nat.le_of_lt_succ seg.isLt
  rw [xidReqOf_eq_sum hbase hk hseg, xidRspOf_eq_sum hbase hk hseg]
  exact ⟨xidParseOf_eq_some.trans (parts_iff_toNat_eq_sum hbase _ k seg),
    xidParseOf_eq_some.trans (parts_iff_toNat_eq_sum hbase _ k seg)⟩

/-! ### TX_RECORD -/

theorem exec_txRecord_of_transmits {s : State} {c seg : Nat} {pr : PhysRecord} {k : MsgClass}
    (h : Transmits s c seg pr k) (hid : telemId k.base seg ≤ Config.stdIdMax) (hok : encodeRefusal k.table = none) :
    exec (.txRecord c seg pr) s = .next (s.sendRecord (recordFrame s.cfg.encClampMode k seg pr)
      (encodeFlags s.cfg.encClampMode k.table pr)) := by
  obtain ⟨hk, hoperands⟩ := h
  simp only [exec, execTxRecord, hk, if_pos hoperands, if_neg (Nat.not_lt.mpr hid), hok]

theorem exec_txRecord_badOperand {s : State} {c seg : Nat} {pr : PhysRecord}
    (h : ∀ k, ¬ Transmits s c seg pr k) : exec (.txRecord c seg pr) s = raised s (.badOperand 0x18) := by
  show execTxRecord c seg pr s = _
  unfold execTxRecord
  split
  · next k hk => exact if_neg fun hoperands => h k ⟨hk, hoperands⟩
  · rfl

theorem State.sendRecord_of_ok {s : State} (h : s.sendOk = true) (f : Frame) (flags : List (Bool × Bool)) :
    s.sendRecord f flags = (s.afterSend f).setRet (.sent flags) :=
  if_pos h

theorem State.sendRecord_of_fail {s : State} (h : s.sendOk = false) (f : Frame) (flags : List (Bool × Bool)) :
    s.sendRecord f flags = ((s.afterSend f).pushLog (.txFail f.id)).setRet (.notSent f.id flags) :=
  if_neg (Bool.eq_false_iff.mp h)

/-- The result of a `Send` is reported without a move of the transport's bookkeeping. -/
theorem State.sendRecord_answers (s : State) (f : Frame) (flags : List (Bool × Bool)) :
    (s.sendRecord f flags).answers = (s.afterSend f).answers
      ∧ (s.sendRecord f flags).draws = (s.afterSend f).draws := by
  unfold State.sendRecord
  split <;> exact ⟨rfl, rfl⟩

/-- Settles O23: TX_RECORD is one `Send` of ENCODE's payload under RESOLVE's identifier, and the report of its answer. -/
theorem txRecordSendsOneFrame : Obligations.TxRecordSendsOneFrame := by
  refine fun s c seg pr => ⟨fun k hk hdir hseg hlen hin hfac hid => ?sends, fun h => ?refused⟩
  case sends =>
    have hok := (encodeRefusal_eq_none k.table).mpr ⟨hin, hfac⟩
    let f := recordFrame s.cfg.encClampMode k seg pr
    let flags := encodeFlags s.cfg.encClampMode k.table pr
    obtain ⟨a, d, l, r, hshape⟩ := s.sendRecord_shape f flags
    obtain ⟨hanswers, hdraws⟩ := s.sendRecord_answers f flags
    refine ⟨s.sendRecord f flags, f.data, flags, f.id, exec_txRecord_of_transmits ⟨hk, hdir, hseg, hlen⟩ hid hok,
      exec_encode_of_not_refused hk hlen hok, toNat_ofNat_telemId (by decide) hid, length_bytes8 _, ?sent,
      fun h => ?ok, fun h => ?fail, ?laidDown, ?free, ?frame⟩
    case sent => rw [hshape]; rfl
    case ok => rw [State.sendRecord_of_ok h]; exact ⟨rfl, s.afterSend_log f⟩
    case fail => rw [State.sendRecord_of_fail h]; exact ⟨rfl, congrArg (· ++ _) (s.afterSend_log f)⟩
    case laidDown => rw [hanswers, hdraws]; exact (s.afterSend_answers f).1
    case free => rw [hanswers, hdraws]; exact (s.afterSend_answers f).2
    case frame => rw [hshape]; exact ⟨rfl, rfl, rfl, rfl, rfl, rfl, rfl⟩
  case refused =>
    refine exec_txRecord_badOperand fun k ⟨hk, hdir, hseg, hlen⟩ => ?_
    rcases h k hk with hne | hle | hne
    · exact hne hdir
    · exact Nat.not_lt.mpr hle hseg
    · exact hne hlen

/-! ### RX_FRAME -/

/-- Settles O24: a frame without a match is neither awaited nor refused, and telemetry dispatch does not know it. -/
theorem unknownFrameChangesNothing : Obligations.UnknownFrameChangesNothing := by
  intro s f rest hq ha hnone
  have hrefuses : s.refusesFrame f = false := by
    rw [Bool.eq_false_iff, Ne, State.refusesFrame_eq_true]
    rintro ⟨-, c, seg, k, hmatch, -⟩
    exact hnone c seg hmatch
  have hclassify : classifyId s.cfg s.regs.segEn f.id.toNat f.ext = none :=
    Option.eq_none_iff_forall_ne_some.mpr fun m hm => hnone m.1 m.2 ((classifyId_eq_some _ _ _ _ _ _).mp hm)
  rw [exec_rxFrame_of_not_refused hq hrefuses, State.receive_of_not_awaited ha,
    State.dispatchTelemetry_unknown (s := s.setRxq rest) hclassify]
  rfl

/-- A frame whose fields are all in their declared ranges is stored and refreshes its class's link (R170). -/
theorem State.acceptRecord_of_inDeclared (s : State) (c seg : Nat) {k : MsgClass} {p : List Byte}
    (h : ∀ e ∈ k.table, inDeclared e (fieldPhys (payloadSum p) e)) : s.acceptRecord c seg k p
      = (s.recWrite c seg (recordOf k.table (payloadSum p))).refreshLinkOf k := by
  rw [State.acceptRecord, decodeRecord_eq_recordOf, if_pos ((rangeOk_recordOf _ _).mpr h)]

/-- A frame with a field out of its declared range is discarded whole (R170). -/
theorem State.acceptRecord_of_not_inDeclared (s : State) (c seg : Nat) {k : MsgClass} {p : List Byte}
    (h : ∃ e ∈ k.table, ¬ inDeclared e (fieldPhys (payloadSum p) e)) : s.acceptRecord c seg k p
      = s.pushLog (.rangeViolation c seg (violations k.table (recordOf k.table (payloadSum p)))) := by
  have hrange : ¬ rangeOk k.table (recordOf k.table (payloadSum p)) = true := by
    rw [rangeOk_recordOf]
    push Not
    exact h
  rw [State.acceptRecord, decodeRecord_eq_recordOf, if_neg hrange]

theorem mem_violations_recordOf {t : FieldTable} {word i : Nat} : i ∈ violations t (recordOf t word)
    ↔ ∃ e, t[i]? = some e ∧ ¬ inDeclared e (fieldPhys word e) := by
  rw [mem_violations (by simp [recordOf])]
  refine exists_congr fun e => ?_
  simp only [recordOf, List.getElem?_map, inDeclared, not_and_or, not_le]
  constructor
  · rintro ⟨v, he, hv, hout⟩
    rw [he] at hv
    cases hv
    exact ⟨he, hout⟩
  · rintro ⟨he, hout⟩
    exact ⟨_, he, by rw [he]; rfl, hout⟩

/-- Settles O26: the one match's frame is discarded with `violations`, which ascends and lists what R140 says. -/
theorem outOfRangeFrameDiscarded : Obligations.OutOfRangeFrameDiscarded := by
  intro s f rest c seg k hq ha hmatch hk hin hout
  have hexec := exec_rxFrame_known hq ha hmatch hk ((hasFieldOutsideWord_eq_false _).mpr hin)
  rw [State.acceptRecord_of_not_inDeclared _ c seg hout] at hexec
  exact ⟨_, hexec, violationsFrom_pairwise 0 _ _, fun _ => mem_violations_recordOf⟩

/-- A refresh writes the one link (R196). -/
theorem State.link_linkRefresh (s : State) (l j : Nat) :
    (s.linkRefresh l).link j = if j = l then ⟨s.time, true⟩ else s.link j := by
  rcases s.linkRefresh_cases l with ⟨-, h⟩ | ⟨-, h⟩ <;> rw [h] <;> exact s.link_putLink l j _

/-- A refresh logs LinkUp where the link was down (R196). -/
theorem State.linkRefresh_log (s : State) (l : Nat) :
    (s.linkRefresh l).log = if (s.link l).connected then s.log else s.log ++ [.linkUp l] := by
  unfold State.linkRefresh
  split <;> rfl

theorem State.refreshLinkOf_of_some (s : State) {k : MsgClass} {l : Nat} (h : k.link = some l) :
    s.refreshLinkOf k = s.linkRefresh l := by
  rw [State.refreshLinkOf, h]

theorem State.refreshLinkOf_of_none (s : State) {k : MsgClass} (h : k.link = none) : s.refreshLinkOf k = s := by
  rw [State.refreshLinkOf, h]

/-- The refresh of a class's link writes links and LOG. -/
theorem State.refreshLinkOf_shape (s : State) (k : MsgClass) :
    ∃ lk lg, s.refreshLinkOf k = { s with regs := { s.regs with links := lk }, log := lg } := by
  cases h : k.link with
  | none => exact ⟨s.regs.links, s.log, s.refreshLinkOf_of_none h⟩
  | some l =>
    rw [s.refreshLinkOf_of_some h]
    rcases s.linkRefresh_cases l with ⟨-, h⟩ | ⟨-, h⟩ <;> exact ⟨_, _, h⟩

/-- Settles O25: the record is written, then the link refreshed, which keeps the record and everything else. -/
theorem acceptedFrameStoresRecord : Obligations.AcceptedFrameStoresRecord := by
  intro s f rest c seg k hq ha hmatch hk hin hrange
  let w := (s.setRxq rest).recWrite c seg (recordOf k.table (payloadSum f.data))
  have hexec : exec .rxFrame s = .next (w.refreshLinkOf k) := by
    rw [exec_rxFrame_known hq ha hmatch hk ((hasFieldOutsideWord_eq_false _).mpr hin),
      State.acceptRecord_of_inDeclared _ c seg hrange]
  obtain ⟨lk, lg, hshape⟩ := w.refreshLinkOf_shape k
  have hrecord (c' seg' : Nat) : (w.refreshLinkOf k).record c' seg'
      = if c' = c ∧ seg' = seg then some (recordOf k.table (payloadSum f.data)) else s.record c' seg' := by
    rw [hshape]
    exact State.record_recWrite _ c seg c' seg' _
  refine ⟨_, hexec, (hrecord c seg).trans (if_pos ⟨rfl, rfl⟩), fun c' seg' hne => (hrecord c' seg').trans (if_neg hne),
    fun l hl => ?linked, fun hl => ?unlinked, ?kept⟩
  case linked =>
    rw [w.refreshLinkOf_of_some hl]
    exact ⟨(w.link_linkRefresh l l).trans (if_pos rfl), fun j hj => (w.link_linkRefresh l j).trans (if_neg hj),
      w.linkRefresh_log l⟩
  case unlinked =>
    rw [w.refreshLinkOf_of_none hl]
    exact ⟨fun _ => rfl, rfl⟩
  case kept =>
    rw [hshape]
    exact ⟨fun _ => rfl, ⟨rfl, fun _ => rfl⟩, rfl, rfl, rfl, rfl, rfl, rfl, rfl, rfl, rfl, rfl, rfl⟩

/-! ### Steps that are not enabled -/

/-- X_TMO is not enabled before the timeout, on a sample with a stated result (R258). -/
theorem exec_xTmo_of_lt {s : State} (hok : Coherent s.timerOk s.cfg.period s.regs.xfer.t0 s.time)
    (hlt : elapsedValue s.cfg.period s.regs.xfer.t0 s.time < s.regs.xfer.tmo) : exec .xTmo s = .next s := by
  obtain ⟨helapsed, hmeasured⟩ := State.elapsed_of_coherent hok
  show execXTmo s = _
  rw [execXTmo, helapsed, hmeasured, if_neg (BitVec.not_le.mpr hlt), ite_self]

/-- Settles O28: each step tests its own condition first, and X_TMO's timeout next. -/
theorem disabledStepsChangeNothing : Obligations.DisabledStepsChangeNothing := by
  refine fun s => ⟨fun hq => ?rxFrame, fun h => if_neg h, fun h => if_neg h, fun h => if_neg h, exec_xTmo_of_lt⟩
  case rxFrame =>
    show execRxFrame s = _
    rw [execRxFrame, hq]

end Sys2Proof.Machine
end

section
/-!
The statements of the link health tracker (42_link_health.md).
-/

namespace Sys2Proof.Machine

/-! ### Elapsed time -/

/-- After `n` ticks the tick counter has wrapped `(lt + n) div PERIOD` times, counted modulo `2^32` (R204). -/
theorem wrapsSince_after {period : Nat} (hpos : 1 ≤ period) (hle : period ≤ 2 ^ 32) (n : Nat) {last : Stamp}
    (hlast : last.ticks.toNat < period) :
    wrapsSince last (Stamp.after period n last) = (last.ticks.toNat + n) / period % 2 ^ 32 := by
  obtain ⟨-, hovf⟩ := Stamp.after_toNat period hpos hle n last hlast
  have hlo := last.ovf.isLt
  rw [wrapsSince_eq_wraps, wraps, hovf]
  omega

/-- The overflow counts differ by fewer than `2^32` wraps (R192). -/
theorem wrapsSince_lt (last now : Stamp) : wrapsSince last now < 2 ^ 32 := BitVec.isLt _

/-- The exact value of `Elapsed` is below `PERIOD * 2^32` (R204). -/
theorem elapsedExact_lt {period : Nat} {last now : Stamp} (hlast : last.ticks.toNat < period)
    (hnow : now.ticks.toNat < period) : elapsedExact period last now < period * 2 ^ 32 := by
  unfold elapsedExact
  split
  · split <;> omega
  · next hwraps =>
    obtain ⟨d, hd⟩ := Nat.exists_eq_add_one_of_ne_zero hwraps
    have hdlt : d + 1 < 2 ^ 32 := hd.symm.trans_lt (wrapsSince_lt last now)
    have hmax : period * (d + 2) ≤ period * 2 ^ 32 := Nat.mul_le_mul_left period hdlt
    rw [Nat.mul_add] at hmax
    rw [hd, Nat.add_sub_cancel]
    omega

/-- In each branch of R192 the exact value and the snapshot's ticks make up `PERIOD` per wrap and the ticks now; a
clock behind the snapshot without a wrap is one round of the overflow counter more (R364). -/
theorem elapsedExact_add_modEq {period : Nat} {last now : Stamp} (hlast : last.ticks.toNat < period) :
    elapsedExact period last now + last.ticks.toNat
      ≡ period * wrapsSince last now + now.ticks.toNat [MOD period * 2 ^ 32] := by
  unfold elapsedExact
  split
  · next hwraps =>
    rw [hwraps, Nat.mul_zero, Nat.zero_add]
    split
    · next hle => rw [Nat.sub_add_cancel hle]
    · have hround : period * 2 ^ 32 - last.ticks.toNat + now.ticks.toNat + last.ticks.toNat
          = now.ticks.toNat + period * 2 ^ 32 := by omega
      rw [hround]
      exact Nat.add_modEq_right
  · next hwraps =>
    obtain ⟨d, hd⟩ := Nat.exists_eq_add_one_of_ne_zero hwraps
    rw [hd, Nat.add_sub_cancel, Nat.mul_succ]
    have hsum : period - last.ticks.toNat + period * d + now.ticks.toNat + last.ticks.toNat
        = period * d + period + now.ticks.toNat := by omega
    rw [hsum]

/-- After `n` ticks the exact value of `Elapsed` is `n` modulo `PERIOD * 2^32` (R204, R364). -/
theorem elapsedExact_after {period : Nat} (hpos : 1 ≤ period) (hle : period ≤ 2 ^ 32) (n : Nat) {last : Stamp}
    (hlast : last.ticks.toNat < period) :
    elapsedExact period last (Stamp.after period n last) = n % (period * 2 ^ 32) := by
  obtain ⟨hticks, -⟩ := Stamp.after_toNat period hpos hle n last hlast
  have hnow : (Stamp.after period n last).ticks.toNat < period := hticks ▸ Nat.mod_lt _ hpos
  have hwraps : period * ((last.ticks.toNat + n) / period % 2 ^ 32)
      ≡ period * ((last.ticks.toNat + n) / period) [MOD period * 2 ^ 32] := (Nat.mod_modEq _ _).mul_left' period
  have hcong : elapsedExact period last (Stamp.after period n last) + last.ticks.toNat
      ≡ n + last.ticks.toNat [MOD period * 2 ^ 32] := by
    calc elapsedExact period last (Stamp.after period n last) + last.ticks.toNat
      _ ≡ period * ((last.ticks.toNat + n) / period % 2 ^ 32) + (last.ticks.toNat + n) % period
          [MOD period * 2 ^ 32] := by
        rw [← wrapsSince_after hpos hle n hlast, ← hticks]
        exact elapsedExact_add_modEq hlast
      _ ≡ period * ((last.ticks.toNat + n) / period) + (last.ticks.toNat + n) % period [MOD period * 2 ^ 32] :=
        hwraps.add_right _
      _ = n + last.ticks.toNat := by rw [Nat.div_add_mod, Nat.add_comm]
  exact (Nat.mod_eq_of_lt (elapsedExact_lt hlast hnow)).symm.trans hcong.add_right_cancel'

/-- Saturation at `2^32 - 1` leaves a 32-bit number (R192). -/
theorem toNat_elapsedSat (period : Nat) (last now : Stamp) :
    (elapsedSat period last now).toNat = min (elapsedExact period last now) (2 ^ 32 - 1) := by
  rw [elapsedSat, BitVec.toNat_ofNat]
  exact Nat.mod_eq_of_lt (Nat.lt_of_le_of_lt (Nat.min_le_right _ _) (by decide))

/-! ### LH_ELAPSED -/

theorem exec_lhElapsed_of_lt {s : State} {l : Nat} (hl : l < s.cfg.nLinks) : exec (.lhElapsed l) s
    = answer (s.measured (s.link l).last) (.elapsed (s.elapsed (s.link l).last)) :=
  if_pos hl

/-- On a sample with a stated result nothing is drawn (R192). -/
theorem exec_lhElapsed_of_coherent {s : State} {l : Nat} (hl : l < s.cfg.nLinks)
    (hok : Coherent s.timerOk s.cfg.period (s.link l).last s.time) :
    exec (.lhElapsed l) s = answer s (.elapsed (s.elapsed (s.link l).last)) := by
  rw [exec_lhElapsed_of_lt hl, (State.elapsed_of_coherent hok).2]

/-- Settles O29: a timer in contract samples coherently, and the exact value counts the ticks (`elapsedExact_after`). -/
theorem elapsedCountsTicks : Obligations.ElapsedCountsTicks := by
  intro s l n hl hpos hle hok hlast htime
  obtain ⟨hticks, -⟩ := Stamp.after_toNat s.cfg.period hpos hle n (s.link l).last hlast
  have hnow : s.time.ticks.toNat < s.cfg.period := by
    rw [htime, hticks]
    exact Nat.mod_lt _ hpos
  have hcoherent : Coherent s.timerOk s.cfg.period (s.link l).last s.time :=
    ⟨hlast, hnow, fun hbroken => absurd hok (Bool.eq_false_iff.mp hbroken)⟩
  obtain ⟨helapsed, -⟩ := State.elapsed_of_not_torn ((s.torn_eq_false _).mpr hcoherent)
  refine ⟨_, ?_, exec_lhElapsed_of_coherent hl hcoherent⟩
  rw [helapsed, toNat_elapsedSat, htime, elapsedExact_after hpos hle n hlast]

/-- Settles O30: a coherent sample has the rule's value, any other at most draws a free one (`measured_shape`). -/
theorem lhElapsedReturnsElapsed : Obligations.LhElapsedReturnsElapsed := by
  refine fun s l => ⟨fun hl => ⟨fun hok => ?coherent, fun _ => ?torn⟩, fun hl => if_neg (Nat.not_lt.mpr hl)⟩
  case coherent =>
    rw [exec_lhElapsed_of_coherent hl hok, (State.elapsed_of_coherent hok).1]
    rfl
  case torn =>
    obtain ⟨d, hd⟩ := s.measured_shape (s.link l).last
    exact ⟨_, d, by rw [exec_lhElapsed_of_lt hl, hd]; rfl⟩

/-! ### LH_RX -/

/-- A refresh writes the link's register and LOG (R196). -/
theorem State.linkRefresh_eq (s : State) (l : Nat) : s.linkRefresh l =
    { s.putLink l ⟨s.time, true⟩ with log := if (s.link l).connected then s.log else s.log ++ [.linkUp l] } := by
  unfold State.linkRefresh
  split <;> rfl

/-- Settles O31: LH_RX is a refresh of the link, which keeps everything else. -/
theorem lhRxSnapshotsNow : Obligations.LhRxSnapshotsNow := by
  refine fun s l => ⟨fun hl => ⟨(s.linkRefresh l).setRet .done, if_pos hl, ?now, ?others, ?log, rfl, ?kept⟩,
    fun hl => if_neg (Nat.not_lt.mpr hl)⟩
  case now => exact (s.link_linkRefresh l l).trans (if_pos rfl)
  case others => exact fun j hj => (s.link_linkRefresh l j).trans (if_neg hj)
  case log => exact s.linkRefresh_log l
  case kept =>
    rw [s.linkRefresh_eq l]
    exact ⟨fun _ _ => rfl, fun _ => rfl, ⟨rfl, fun _ => rfl⟩, rfl, ⟨rfl, rfl, rfl, rfl, rfl, rfl, rfl, rfl⟩, rfl⟩

/-! ### LH_CHECK and LH_DISC -/

/-- Link `l` reads `v`, its bound cursor is at 0, and LinkDown with `e` is logged if it was connected: what a timeout
(R198) and an explicit disconnect (R200) do alike. -/
def State.takeLinkDown (s : State) (l : Nat) (v : Link) (e : BitVec 32) : State :=
  { (s.putLink l v).resetBoundCursor l with
    log := if (s.link l).connected then s.log ++ [.linkDown l e] else s.log }

/-- Taking a link down writes its register, cursor indices and LOG. -/
theorem State.takeLinkDown_shape (s : State) (l : Nat) (v : Link) (e : BitVec 32) :
    ∃ sq, (∀ q, Sparse.get 0 sq q = if s.cfg.seqOfLink.getD l none = some q then 0 else s.seqIndex q)
      ∧ s.takeLinkDown l v e = { s with
          regs := { s.regs with links := Sparse.put Link.down s.regs.links l v, seqs := sq }
          log := if (s.link l).connected then s.log ++ [.linkDown l e] else s.log } := by
  have hreset : State.BoundCursorReset l s ((s.putLink l v).resetBoundCursor l) :=
    State.boundCursorReset_resetBoundCursor rfl fun _ => rfl
  obtain ⟨sq, hsq⟩ := (s.putLink l v).resetBoundCursor_shape l
  rw [hsq] at hreset
  exact ⟨sq, hreset, by rw [State.takeLinkDown, hsq]; rfl⟩

/-- LinkDown is logged only where the link was connected (R198, R200). -/
theorem State.takeLinkDown_eq (s : State) (l : Nat) (v : Link) (e : BitVec 32) : s.takeLinkDown l v e =
    if (s.link l).connected then ((s.putLink l v).resetBoundCursor l).pushLog (.linkDown l e)
    else (s.putLink l v).resetBoundCursor l := by
  obtain ⟨sq, hsq⟩ := (s.putLink l v).resetBoundCursor_shape l
  rw [State.takeLinkDown, hsq]
  split <;> rfl

theorem State.linkTimeout_eq_takeLinkDown (s : State) (l : Nat) (e : BitVec 32) :
    s.linkTimeout l e = s.takeLinkDown l ⟨(s.link l).last, false⟩ e :=
  (s.takeLinkDown_eq l _ e).symm

theorem State.linkDisconnect_eq_takeLinkDown (s : State) (l : Nat) :
    s.linkDisconnect l = s.takeLinkDown l Link.down 0 :=
  (s.takeLinkDown_eq l _ 0).symm

theorem exec_lhCheck_of_lt {s : State} {l : Nat} {threshold : BitVec 32} (hl : l < s.cfg.nLinks)
    (hlt : threshold < s.elapsed (s.link l).last) : exec (.lhCheck l threshold) s
      = answer ((s.measured (s.link l).last).linkTimeout l (s.elapsed (s.link l).last)) (.timedOut true) :=
  (if_pos hl).trans (if_pos hlt)

theorem exec_lhCheck_of_le {s : State} {l : Nat} {threshold : BitVec 32} (hl : l < s.cfg.nLinks)
    (hle : s.elapsed (s.link l).last ≤ threshold) :
    exec (.lhCheck l threshold) s = answer (s.measured (s.link l).last) (.timedOut false) :=
  (if_pos hl).trans (if_neg (BitVec.not_lt.mpr hle))

/-- Settles O32: a timeout takes the link down with its snapshot, and else only `Elapsed` was evaluated. -/
theorem lhCheckTimesOutStrictly : Obligations.LhCheckTimesOutStrictly := by
  refine fun s l threshold => ⟨fun hl => ⟨fun hlt => ?timeout, fun hle => ?inTime, ?value⟩,
    fun hl => if_neg (Nat.not_lt.mpr hl)⟩
  case timeout =>
    obtain ⟨d, hd⟩ := s.measured_shape (s.link l).last
    have hexec := exec_lhCheck_of_lt hl (BitVec.lt_def.mpr hlt)
    rw [hd, State.linkTimeout_eq_takeLinkDown] at hexec
    obtain ⟨sq, hsq, hdown⟩ := State.takeLinkDown_shape { s with draws := d } l ⟨(s.link l).last, false⟩
      (s.elapsed (s.link l).last)
    exact ⟨_, hexec.trans (congrArg (answer · _) hdown), (s.link_putLink l l _).trans (if_pos rfl),
      fun j hj => (s.link_putLink l j _).trans (if_neg hj), hsq, rfl, rfl, fun _ _ => rfl, ⟨rfl, fun _ => rfl⟩, rfl,
      ⟨rfl, rfl, rfl, rfl, rfl, rfl, rfl, rfl⟩⟩
  case inTime =>
    obtain ⟨d, hd⟩ := s.measured_shape (s.link l).last
    have hexec := exec_lhCheck_of_le hl (BitVec.le_def.mpr hle)
    rw [hd] at hexec
    exact ⟨_, hexec, rfl, rfl, rfl, ⟨rfl, rfl, rfl, rfl, rfl, rfl, rfl, rfl⟩⟩
  case value => exact ⟨_, exec_lhElapsed_of_lt hl, rfl⟩

/-- Settles O33: LH_DISC takes the link down with its reset value. -/
theorem lhDiscResetsLink : Obligations.LhDiscResetsLink := by
  refine fun s l => ⟨fun hl => ?disconnects, fun hl => if_neg (Nat.not_lt.mpr hl)⟩
  have hexec : exec (.lhDisc l) s = answer (s.linkDisconnect l) .done := if_pos hl
  rw [s.linkDisconnect_eq_takeLinkDown l] at hexec
  obtain ⟨sq, hsq, hdown⟩ := s.takeLinkDown_shape l Link.down 0
  exact ⟨_, hexec.trans (congrArg (answer · _) hdown), (s.link_putLink l l _).trans (if_pos rfl),
    fun j hj => (s.link_putLink l j _).trans (if_neg hj), hsq, rfl, rfl, fun _ _ => rfl, ⟨rfl, fun _ => rfl⟩, rfl,
    ⟨rfl, rfl, rfl, rfl, rfl, rfl, rfl, rfl⟩, rfl⟩

/-! ### LH_STAT -/

/-- Settles O34: LH_STAT tests its operand and only returns. -/
theorem lhStatReturnsLink : Obligations.LhStatReturnsLink :=
  fun _ _ => ⟨fun hl => if_pos hl, fun hl => if_neg (Nat.not_lt.mpr hl)⟩

end Sys2Proof.Machine
end

section
/-!
The statements of the state sequencer (43_sequencer.md).
-/

namespace Sys2Proof.Machine

/-! ### One advance of an index (R222) -/

theorem toNat_advanceIndex_of_lt {p : Playlist} {i : Byte} (hlen : p.states.length ≤ 256)
    (hlt : i.toNat + 1 < p.states.length) : (advanceIndex p i).toNat = i.toNat + 1 := by
  rw [advanceIndex, if_pos hlt, BitVec.toNat_ofNat]
  omega

theorem advanceIndex_of_le {p : Playlist} {i : Byte} (hle : p.states.length ≤ i.toNat + 1) :
    advanceIndex p i = if p.loops then 0 else i :=
  if_neg (Nat.not_lt.mpr hle)

theorem toNat_advanceIndex_of_loops {p : Playlist} {i : Byte} (hlen : p.states.length ≤ 256)
    (hi : i.toNat < p.states.length) (hloops : p.loops = true) :
    (advanceIndex p i).toNat = (i.toNat + 1) % p.states.length := by
  rcases Nat.lt_or_ge (i.toNat + 1) p.states.length with hlt | hle
  · rw [toNat_advanceIndex_of_lt hlen hlt, Nat.mod_eq_of_lt hlt]
  · have hend : i.toNat + 1 = p.states.length := Nat.le_antisymm hi hle
    rw [advanceIndex_of_le hle, if_pos hloops, hend, Nat.mod_self]
    rfl

theorem toNat_advanceIndex_of_not_loops {p : Playlist} {i : Byte} (hlen : p.states.length ≤ 256)
    (hi : i.toNat < p.states.length) (hloops : p.loops = false) :
    (advanceIndex p i).toNat = min (i.toNat + 1) (p.states.length - 1) := by
  rcases Nat.lt_or_ge (i.toNat + 1) p.states.length with hlt | hle
  · rw [toNat_advanceIndex_of_lt hlen hlt]
    omega
  · rw [advanceIndex_of_le hle, hloops, if_neg Bool.false_ne_true]
    omega

/-! ### Repeated advances (R228) -/

theorem toNat_advances_of_loops {p : Playlist} (hlen : p.states.length ≤ 256) (hloops : p.loops = true) (n : Nat) :
    ∀ {i : Byte}, i.toNat < p.states.length → (advances p n i).toNat = (i.toNat + n) % p.states.length := by
  induction n with
  | zero => exact fun hi => (Nat.mod_eq_of_lt hi).symm
  | succ n ih =>
    intro i hi
    calc (advances p n (advanceIndex p i)).toNat
        = ((advanceIndex p i).toNat + n) % p.states.length := ih (advanceIndex_lt hi)
      _ = ((i.toNat + 1) % p.states.length + n) % p.states.length := by
          rw [toNat_advanceIndex_of_loops hlen hi hloops]
      _ = (i.toNat + (n + 1)) % p.states.length := by
          rw [Nat.mod_add_mod, Nat.add_assoc, Nat.add_comm 1 n]

theorem toNat_advances_of_not_loops {p : Playlist} (hlen : p.states.length ≤ 256) (hloops : p.loops = false) (n : Nat) :
    ∀ {i : Byte}, i.toNat < p.states.length → (advances p n i).toNat = min (i.toNat + n) (p.states.length - 1) := by
  induction n with
  | zero => exact fun hi => (Nat.min_eq_left (Nat.le_sub_one_of_lt hi)).symm
  | succ n ih =>
    intro i hi
    calc (advances p n (advanceIndex p i)).toNat
        = min ((advanceIndex p i).toNat + n) (p.states.length - 1) := ih (advanceIndex_lt hi)
      _ = min (min (i.toNat + 1) (p.states.length - 1) + n) (p.states.length - 1) := by
          rw [toNat_advanceIndex_of_not_loops hlen hi hloops]
      _ = min (i.toNat + (n + 1)) (p.states.length - 1) := by omega

/-- Settles O38: by induction on the number of advances, each of which stays in the playlist. -/
theorem repeatedAdvances : Obligations.RepeatedAdvances :=
  fun _ _ n hlen hi => ⟨fun hloops => toNat_advances_of_loops hlen hloops n hi,
    fun hloops => toNat_advances_of_not_loops hlen hloops n hi⟩

/-! ### SEQ_ADV and SEQ_RST -/

/-- The response is `done`, and nothing else but cursor `q` has changed. -/
def State.OnlyCursorMoved (q : Nat) (s t : State) : Prop :=
  (∀ j, j ≠ q → t.seqIndex j = s.seqIndex j) ∧ t.ret = .done
    ∧ State.RecordsKept s t ∧ (∀ l, t.link l = s.link l) ∧ State.SessionKept s t
    ∧ t.regs.segEn = s.regs.segEn ∧ State.EnvKept s t ∧ t.log = s.log ∧ t.draws = s.draws

theorem State.onlyCursorMoved_putSeq (s : State) (q : Nat) (v : Byte) :
    State.OnlyCursorMoved q s ((s.putSeq q v).setRet .done) :=
  ⟨fun j hj => (s.seqIndex_putSeq q j v).trans (if_neg hj), rfl, fun _ _ => rfl, fun _ => rfl, ⟨rfl, fun _ => rfl⟩, rfl,
    ⟨rfl, rfl, rfl, rfl, rfl, rfl, rfl, rfl⟩, rfl, rfl⟩

theorem State.seqIndex_putSeq_done (s : State) (q : Nat) (v : Byte) :
    ((s.putSeq q v).setRet .done).seqIndex q = v :=
  (s.seqIndex_putSeq q q v).trans (if_pos rfl)

theorem exec_seqAdv_of_getElem? {s : State} {q : Nat} {p : Playlist} (hp : s.cfg.seqs[q]? = some p) :
    exec (.seqAdv q) s = .next ((s.putSeq q (advanceIndex p (s.seqIndex q))).setRet .done) := by
  obtain ⟨hq, rfl⟩ := State.playlist_of_getElem? hp
  exact if_pos hq

/-- A cursor without a playlist is out of range. -/
theorem Cfg.not_lt_nSeq_of_getElem? {g : Cfg} {q : Nat} (h : g.seqs[q]? = none) : ¬ q < g.nSeq :=
  Nat.not_lt.mpr (List.getElem?_eq_none_iff.mp h)

/-- Settles O35: SEQ_ADV writes one cursor, with the index `advanceIndex` gives. -/
theorem seqAdvMovesCursor : Obligations.SeqAdvMovesCursor := by
  refine fun s q p => ⟨fun hp hlen => ?advances, fun hnone => if_neg (Cfg.not_lt_nSeq_of_getElem? hnone)⟩
  have hindex := s.seqIndex_putSeq_done q (advanceIndex p (s.seqIndex q))
  refine ⟨_, exec_seqAdv_of_getElem? hp, fun hlt => ?next, fun hle => ?atEnd, s.onlyCursorMoved_putSeq q _⟩
  case next => rw [hindex, toNat_advanceIndex_of_lt hlen hlt]
  case atEnd => rw [hindex, advanceIndex_of_le hle]

/-- Settles O37: SEQ_RST writes one cursor, with 0. -/
theorem seqRstReturnsToStart : Obligations.SeqRstReturnsToStart :=
  fun s q => ⟨fun hq => ⟨_, if_pos hq, s.seqIndex_putSeq_done q 0, s.onlyCursorMoved_putSeq q 0⟩,
    fun hq => if_neg (Nat.not_lt.mpr hq)⟩

/-! ### SEQ_CUR -/

theorem exec_seqCur_of_some {s : State} {q : Nat} {v : Byte} (hq : q < s.cfg.nSeq)
    (hv : (s.playlist q).states[(s.seqIndex q).toNat]? = some v) :
    exec (.seqCur q) s = answer s (.stateValue v) := by
  simp only [exec, execSeqCur, if_pos hq, hv]

theorem exec_seqCur_of_none {s : State} {q : Nat} (hq : q < s.cfg.nSeq)
    (hv : (s.playlist q).states[(s.seqIndex q).toNat]? = none) : exec (.seqCur q) s
      = answer (s.pushLog (.seqConfigError q (s.seqIndex q) (s.playlist q).states.length))
        (.stateValue s.cfg.safeDefault) := by
  simp only [exec, execSeqCur, if_pos hq, hv]

/-- Settles O36: the playlist has an entry at the index or it has none, and SEQ_CUR writes no cursor. -/
theorem seqCurReturnsState : Obligations.SeqCurReturnsState := by
  refine fun s q p => ⟨fun hp => ?inRange, fun hnone => if_neg (Cfg.not_lt_nSeq_of_getElem? hnone)⟩
  obtain ⟨hq, rfl⟩ := State.playlist_of_getElem? hp
  exact ⟨fun v hv => exec_seqCur_of_some hq hv,
    fun hle => exec_seqCur_of_none hq (List.getElem?_eq_none_iff.mpr hle)⟩

end Sys2Proof.Machine
end

section
/-!
The statements of the chunked transfer engine (44_chunked_transfer.md).
-/

namespace Sys2Proof.Machine

/-! ### The host's commands -/

theorem exec_xferStart_of_accepted {s : State} {b : List Byte} {base : BitVec 29} {seg : Nat} {tmo : BitVec 32}
    {maxr : Byte} (hst : s.regs.xfer.st = .idle) (hlen : b.length ≤ 2048) (hbase : base.toNat % 0x10000 = 0)
    (hseg : seg ≤ 7) (hnSeg : seg < s.cfg.nSeg) : exec (.xferStart b base seg tmo maxr) s
      = answer (s.setXfer (s.regs.xfer.started b base seg tmo maxr)) .accepted := by
  have hwf : ¬ xferIdWF base seg = false := ne_false_of_eq_true (xferIdWF_iff.mpr ⟨hbase, hseg⟩)
  show execXferStart b base seg tmo maxr s = _
  rw [execXferStart, if_neg (not_not.mpr hst), if_neg (Nat.not_lt.mpr hlen), if_neg hwf, if_neg (Nat.not_le.mpr hnSeg)]

/-- Every operand check of XFER_START that fails raises the same outcome (R244, log entry 18). -/
theorem exec_xferStart_badOperand {s : State} {b : List Byte} {base : BitVec 29} {seg : Nat} {tmo : BitVec 32}
    {maxr : Byte} (hst : s.regs.xfer.st = .idle)
    (h : 2048 < b.length ∨ base.toNat % 0x10000 ≠ 0 ∨ 7 < seg ∨ s.cfg.nSeg ≤ seg) :
    exec (.xferStart b base seg tmo maxr) s = raised s (.badOperand 0x40) := by
  show execXferStart b base seg tmo maxr s = _
  rw [execXferStart, if_neg (not_not.mpr hst)]
  split
  · rfl
  · next hlen =>
    split
    · rfl
    · next hwf =>
      obtain ⟨hbase, hseg⟩ := xferIdWF_iff.mp (Bool.eq_true_of_not_eq_false hwf)
      rcases h with hlong | hne | hgt | hle
      · exact absurd hlong hlen
      · exact absurd hbase hne
      · exact absurd hseg (Nat.not_le.mpr hgt)
      · exact if_pos hle

/-- Settles O39: XferBusy is tested first, then the operands; an accepted session is `Xfer.started`. -/
theorem xferStartCreatesSession : Obligations.XferStartCreatesSession := by
  refine fun s b base seg tmo maxr => ⟨fun hst hlen hbase hseg hnSeg => ?accepted, fun hbusy => if_pos hbusy,
    exec_xferStart_badOperand⟩
  have hseg3 : (BitVec.ofNat 3 seg).toNat = seg := Nat.mod_eq_of_lt (Nat.lt_succ_of_le hseg)
  exact ⟨_, exec_xferStart_of_accepted hst hlen hbase hseg hnSeg, Memory.read_ofBytes b, rfl, rfl, rfl, rfl, rfl, rfl,
    hseg3, rfl, rfl, rfl, rfl, rfl, rfl, rfl, fun _ _ => rfl, fun _ => rfl, fun _ => rfl, rfl,
    ⟨rfl, rfl, rfl, rfl, rfl, rfl, rfl, rfl⟩, rfl, rfl⟩

/-- Settles O40: XFER_ABORT tests for a session first. -/
theorem xferAbortLatches : Obligations.XferAbortLatches :=
  fun _ => ⟨fun hst => if_neg hst, fun hst => if_pos hst⟩

/-- Settles O41: XFER_STAT only returns. -/
theorem xferStatReports : Obligations.XferStatReports :=
  fun _ => rfl

/-! ### X_NEXT -/

theorem exec_xNext_of_eq {s : State} (hst : s.regs.xfer.st = .next) (hcur : s.regs.xfer.cur = s.regs.xfer.total) :
    exec .xNext s = .next (s.finish (.success s.regs.xfer.total s.regs.xfer.rtot)) :=
  (if_pos hst).trans (if_pos hcur)

theorem exec_xNext_of_ne {s : State} (hst : s.regs.xfer.st = .next) (hcur : s.regs.xfer.cur ≠ s.regs.xfer.total) :
    exec .xNext s = if s.regs.xfer.abort then .next (s.finish (.aborted s.regs.xfer.cur))
      else .next (s.setXfer { s.regs.xfer with att := 0, st := .send }) :=
  (if_pos hst).trans (if_neg hcur)

/-- Settles O42: completion is tested before the abort request. -/
theorem xNextDecides : Obligations.XNextDecides :=
  fun _ hst => ⟨exec_xNext_of_eq hst, fun hcur habort => (exec_xNext_of_ne hst hcur).trans (if_pos habort),
    fun hcur habort => (exec_xNext_of_ne hst hcur).trans (if_neg (Bool.eq_false_iff.mp habort))⟩

/-- Settles O47: the session of no chunk is complete when X_NEXT first looks. -/
theorem emptyTransferSucceeds : Obligations.EmptyTransferSucceeds :=
  fun _ _ _ _ _ hst hbase hseg hnSeg =>
    ⟨_, _, exec_xferStart_of_accepted hst (Nat.zero_le _) hbase hseg hnSeg, exec_xNext_of_eq rfl rfl, rfl, rfl, rfl,
      rfl⟩

/-! ### The failed attempt (R252) -/

/-- The session registers when the chunk is to be sent once more. -/
def Xfer.retried (x : Xfer) : Xfer := { x with att := x.att + 1, rtot := x.rtot + 1, st := .send }

/-- The session registers when the retries are used up. -/
def Xfer.exhausted (x : Xfer) : Xfer :=
  { x with att := x.att + 1, result := .failed x.cur x.maxr, st := .idle, abort := false }

/-- What failed the attempt is logged, and one more send follows. -/
theorem State.attemptFailed_pushLog_of_le (s : State) (h : s.regs.xfer.att + 1 ≤ s.regs.xfer.maxr.toNat) (e : Event) :
    (s.pushLog e).attemptFailed
      = { s with regs := { s.regs with xfer := s.regs.xfer.retried }, log := s.log ++ [e] } :=
  if_pos h

/-- What failed the last attempt is logged, and then the end of the session. -/
theorem State.attemptFailed_pushLog_of_lt (s : State) (h : s.regs.xfer.maxr.toNat < s.regs.xfer.att + 1) (e : Event) :
    (s.pushLog e).attemptFailed = { s with
      regs := { s.regs with xfer := s.regs.xfer.exhausted }
      log := s.log ++ [e, .xferDone (.failed s.regs.xfer.cur s.regs.xfer.maxr)] } := by
  rw [List.append_cons]
  exact if_neg (Nat.not_le.mpr h)

/-! ### X_SEND -/

/-- What X_SEND does when it is enabled (R250). -/
def State.sendChunk (s : State) : State :=
  if s.sendOk then (s.afterSend s.chunkFrame).beginWait
  else ((s.afterSend s.chunkFrame).pushLog (.txFail s.requestId)).attemptFailed

theorem exec_xSend_of_send {s : State} (hst : s.regs.xfer.st = .send) : exec .xSend s = .next s.sendChunk :=
  (if_pos hst).trans (apply_ite _ _ _ _).symm

theorem State.sendChunk_of_ok {s : State} (h : s.sendOk = true) :
    s.sendChunk = (s.afterSend s.chunkFrame).beginWait :=
  if_pos h

theorem State.sendChunk_of_fail {s : State} (h : s.sendOk = false) :
    s.sendChunk = ((s.afterSend s.chunkFrame).pushLog (.txFail s.requestId)).attemptFailed :=
  if_neg (Bool.eq_false_iff.mp h)

/-- After the `Send` only the session and LOG are written. -/
theorem State.sendChunk_shape (s : State) : ∃ x l, s.sendChunk
    = { s.afterSend s.chunkFrame with regs := { s.regs with xfer := x }, log := l } := by
  rw [← s.afterSend_regs s.chunkFrame]
  unfold State.sendChunk
  split
  · exact ⟨_, _, rfl⟩
  · obtain ⟨x, l, h⟩ := ((s.afterSend s.chunkFrame).pushLog (.txFail s.requestId)).attemptFailed_shape
    exact ⟨x, _, h⟩

/-- Settles O43: X_SEND is one `Send` of the chunk's frame, then the wait or a failed attempt. -/
theorem xSendSendsChunk : Obligations.XSendSendsChunk := by
  intro s hst
  obtain ⟨x, l, hshape⟩ := s.sendChunk_shape
  refine ⟨_, _, _, exec_xSend_of_send hst, rfl, s.bufRead_chunk, ?sent, fun hok => ?ok, fun hfail hle => ?again,
    fun hfail hlt => ?last, ?laidDown, ?free, ?frame⟩
  case sent => rw [hshape]; exact s.afterSend_sent s.chunkFrame
  case ok => simp [State.sendChunk_of_ok hok, State.beginWait]
  case again =>
    rw [State.sendChunk_of_fail hfail, State.attemptFailed_pushLog_of_le _ (by simpa using hle)]
    simp [State.requestId, xidReqOf, Xfer.retried]
  case last =>
    rw [State.sendChunk_of_fail hfail, State.attemptFailed_pushLog_of_lt _ (by simpa using hlt)]
    simp [State.requestId, xidReqOf, Xfer.exhausted]
  case laidDown => rw [hshape]; exact (s.afterSend_answers s.chunkFrame).1
  case free => rw [hshape]; exact (s.afterSend_answers s.chunkFrame).2
  case frame =>
    rw [hshape]
    exact ⟨s.afterSend_cfg _, s.afterSend_time _, s.afterSend_timerOk _, s.afterSend_rxq _, s.afterSend_head _,
      s.afterSend_ret _, s.afterSend_inputs _⟩

/-! ### X_TMO -/

theorem exec_xTmo_of_le {s : State} (hst : s.regs.xfer.st = .wait)
    (hle : s.regs.xfer.tmo.toNat ≤ (s.elapsed s.regs.xfer.t0).toNat) : exec .xTmo s
      = .next ((s.measured s.regs.xfer.t0).pushLog (.chunkTimeout s.regs.xfer.cur)).attemptFailed :=
  (if_pos hst).trans (if_pos (BitVec.le_def.mpr hle))

theorem exec_xTmo_of_not_le {s : State} (hst : s.regs.xfer.st = .wait)
    (hle : ¬ s.regs.xfer.tmo.toNat ≤ (s.elapsed s.regs.xfer.t0).toNat) :
    exec .xTmo s = .next (s.measured s.regs.xfer.t0) :=
  (if_pos hst).trans (if_neg (mt BitVec.le_def.mp hle))

/-- Settles O44: a timeout is logged and fails the attempt; evaluating `Elapsed` moves at most the free-value counter,
and on a sample with a stated result nothing. -/
theorem xTmoFailsAttempt : Obligations.XTmoFailsAttempt := by
  refine fun s hst => ⟨fun hok hle => ?coherent, fun _ => ?torn⟩
  case coherent =>
    obtain ⟨helapsed, hmeasured⟩ := State.elapsed_of_coherent hok
    rw [← helapsed] at hle
    rw [exec_xTmo_of_le hst hle, hmeasured]
    exact ⟨fun hatt => congrArg _ (State.attemptFailed_pushLog_of_le _ hatt _),
      fun hatt => congrArg _ (State.attemptFailed_pushLog_of_lt _ hatt _)⟩
  case torn =>
    obtain ⟨d, hd⟩ := s.measured_shape s.regs.xfer.t0
    refine ⟨d, ?_⟩
    by_cases hle : s.regs.xfer.tmo.toNat ≤ (s.elapsed s.regs.xfer.t0).toNat
    · rw [exec_xTmo_of_le hst hle, hd]
      rcases Nat.lt_or_ge s.regs.xfer.maxr.toNat (s.regs.xfer.att + 1) with hatt | hatt
      · exact .inr (.inr ⟨hatt, congrArg _ (State.attemptFailed_pushLog_of_lt { s with draws := d } hatt _)⟩)
      · exact .inr (.inl ⟨hatt, congrArg _ (State.attemptFailed_pushLog_of_le { s with draws := d } hatt _)⟩)
    · exact .inl (hd ▸ exec_xTmo_of_not_le hst hle)

/-! ### The awaited response (R254) -/

theorem exec_rxFrame_of_awaited {s : State} {f : Frame} {rest : List Frame} (hq : s.rxq = f :: rest)
    (ha : Awaited s f) : exec .rxFrame s = .next ((s.setRxq rest).xferResponse f) :=
  (exec_rxFrame_of_not_refused hq (State.refusesFrame_of_awaited ha)).trans
    (congrArg _ (if_pos ((State.awaits_iff _ _).mpr ha)))

theorem State.xferResponse_of_ack (s : State) {f : Frame} (hlen : 4 ≤ f.data.length) (hstatus : f.data.getD 0 0 = 0x01)
    (hecho : (f.data.getD 1 0).toNat = s.regs.xfer.cur) : s.xferResponse f
      = s.chunkAcked (BitVec.ofNat 16 ((f.data.getD 2 0).toNat * 256 + (f.data.getD 3 0).toNat)) := by
  rw [State.xferResponse, ackUnpack_of_le _ hlen]
  exact if_pos ⟨hstatus, hecho⟩

theorem State.xferResponse_of_nack (s : State) {f : Frame} (hlen : 4 ≤ f.data.length)
    (hstatus : f.data.getD 0 0 = 0x00) :
    s.xferResponse f = (s.pushLog (.chunkNacked s.regs.xfer.cur (f.data.getD 1 0))).attemptFailed := by
  have hnotAck : ¬ (f.data.getD 0 0 = Config.stAck ∧ (f.data.getD 1 0).toNat = s.regs.xfer.cur) := by
    rw [hstatus]
    exact fun h => absurd h.1 (by decide)
  rw [State.xferResponse, ackUnpack_of_le _ hlen]
  exact (if_neg hnotAck).trans (if_pos hstatus)

/-- A response that is too short, and one that is neither a NACK nor an ACK of the current chunk, is only logged. -/
theorem State.xferResponse_of_bad (s : State) {f : Frame} (h : f.data.length < 4 ∨ ¬ (f.data.getD 0 0 = 0x00
    ∨ (f.data.getD 0 0 = 0x01 ∧ (f.data.getD 1 0).toNat = s.regs.xfer.cur))) :
    s.xferResponse f = s.pushLog (.badResponse f.id) := by
  rcases s.xferResponse_cases f with ⟨a, ha, hstatus, hecho, -⟩ | ⟨a, ha, hstatus, -⟩ | hbad
  · obtain ⟨hlen, h0, h1⟩ := ackUnpack_fields ha
    rw [h0] at hstatus
    rw [h1] at hecho
    exact absurd (.inr ⟨hstatus, hecho⟩) (h.resolve_left (Nat.not_lt.mpr hlen))
  · obtain ⟨hlen, h0, -⟩ := ackUnpack_fields ha
    exact absurd (.inl (h0.symm.trans hstatus)) (h.resolve_left (Nat.not_lt.mpr hlen))
  · exact hbad

/-- Settles O27: RX_FRAME hands the awaited response to the engine, whose three arms are `xferResponse_of_ack`,
`xferResponse_of_nack` and `xferResponse_of_bad`. -/
theorem responseEndsOrKeepsWait : Obligations.ResponseEndsOrKeepsWait := by
  intro s f rest hq ha
  rw [exec_rxFrame_of_awaited hq ha]
  refine ⟨fun hlen hstatus hecho => ?ack, fun hlen hstatus => ?nack, fun hbad => ?bad⟩
  case ack => rw [State.xferResponse_of_ack (s.setRxq rest) hlen hstatus hecho]; rfl
  case nack =>
    rw [State.xferResponse_of_nack _ hlen hstatus]
    exact ⟨fun hatt => congrArg _ (State.attemptFailed_pushLog_of_le (s.setRxq rest) hatt _),
      fun hatt => congrArg _ (State.attemptFailed_pushLog_of_lt (s.setRxq rest) hatt _)⟩
  case bad => rw [State.xferResponse_of_bad (s.setRxq rest) hbad]; rfl

/-! ### What a step of the session can be -/

theorem exec_xferStart_cases {s t : State} {b : List Byte} {base : BitVec 29} {seg : Nat} {tmo : BitVec 32}
    {maxr : Byte} (h : exec (.xferStart b base seg tmo maxr) s = .next t) :
    (s.regs.xfer.st = .idle ∧ t = (s.setXfer (s.regs.xfer.started b base seg tmo maxr)).setRet .accepted)
    ∨ State.Returns s t := by
  simp only [exec, execXferStart] at h
  split at h
  · exact .inr (returns_of_raised h)
  · next hst =>
    split at h
    · exact .inr (returns_of_raised h)
    split at h
    · exact .inr (returns_of_raised h)
    split at h
    · exact .inr (returns_of_raised h)
    · exact .inl ⟨not_not.mp hst, eq_of_next_eq_next h⟩

/-- XFER_ABORT writes the abort request, the response and LOG. -/
theorem exec_xferAbort_kept {s t : State} (h : exec .xferAbort s = .next t) :
    t.regs.xfer.st = s.regs.xfer.st ∧ t.regs.xfer.cur = s.regs.xfer.cur ∧ t.sent = s.sent := by
  simp only [exec, execXferAbort] at h
  split at h <;> rw [eq_of_next_eq_next h] <;> exact ⟨rfl, rfl, rfl⟩

theorem exec_xNext_cases {s t : State} (h : exec .xNext s = .next t) :
    (s.regs.xfer.st = .next ∧ s.regs.xfer.cur = s.regs.xfer.total
      ∧ t = s.finish (.success s.regs.xfer.total s.regs.xfer.rtot))
    ∨ (s.regs.xfer.st = .next ∧ s.regs.xfer.cur ≠ s.regs.xfer.total ∧ s.regs.xfer.abort = true
      ∧ t = s.finish (.aborted s.regs.xfer.cur))
    ∨ (s.regs.xfer.st = .next ∧ s.regs.xfer.cur ≠ s.regs.xfer.total ∧ s.regs.xfer.abort = false
      ∧ t = s.setXfer { s.regs.xfer with att := 0, st := .send })
    ∨ t = s := by
  simp only [exec, execXNext] at h
  split at h
  · next hst =>
    split at h
    · next hcur => exact .inl ⟨hst, hcur, eq_of_next_eq_next h⟩
    · next hcur =>
      split at h
      · next habort => exact .inr (.inl ⟨hst, hcur, habort, eq_of_next_eq_next h⟩)
      · next habort => exact .inr (.inr (.inl ⟨hst, hcur, Bool.eq_false_iff.mpr habort, eq_of_next_eq_next h⟩))
  · exact .inr (.inr (.inr (eq_of_next_eq_next h)))

theorem exec_xSend_cases {s t : State} (h : exec .xSend s = .next t) :
    (s.regs.xfer.st = .send ∧ t = s.sendChunk) ∨ t = s := by
  by_cases hst : s.regs.xfer.st = .send
  · exact .inl ⟨hst, eq_of_next_eq_next ((exec_xSend_of_send hst).symm.trans h)⟩
  · exact .inr (eq_of_next_eq_next ((if_neg hst).symm.trans h))

theorem exec_xTmo_cases {s t : State} (h : exec .xTmo s = .next t) :
    (s.regs.xfer.st = .wait ∧ s.regs.xfer.tmo.toNat ≤ (s.elapsed s.regs.xfer.t0).toNat
      ∧ ∃ d, t = (State.pushLog { s with draws := d } (.chunkTimeout s.regs.xfer.cur)).attemptFailed)
    ∨ ∃ d, t = { s with draws := d } := by
  obtain ⟨d, hd⟩ := s.measured_shape s.regs.xfer.t0
  simp only [exec, execXTmo, hd] at h
  split at h
  · next hst =>
    split at h
    · next hle => exact .inl ⟨hst, BitVec.le_def.mp hle, d, eq_of_next_eq_next h⟩
    · exact .inr ⟨d, eq_of_next_eq_next h⟩
  · exact .inr ⟨s.draws, eq_of_next_eq_next h⟩

/-- RX_FRAME writes the session for the awaited response only (R170). -/
theorem exec_rxFrame_cases {s t : State} (h : exec .rxFrame s = .next t) :
    (∃ f rest, s.rxq = f :: rest ∧ Awaited s f ∧ t = (s.setRxq rest).xferResponse f)
    ∨ t.regs.xfer = s.regs.xfer := by
  simp only [exec, execRxFrame] at h
  split at h
  · exact .inr (eq_of_next_eq_next h ▸ rfl)
  · next f rest hq =>
    split at h
    · cases h
    · by_cases ha : Awaited s f
      · exact .inl ⟨f, rest, hq, ha, (eq_of_next_eq_next h).trans (if_pos ((State.awaits_iff _ _).mpr ha))⟩
      · obtain ⟨r, lk, l, hshape⟩ := (s.setRxq rest).dispatchTelemetry_shape f
        rw [State.receive_of_not_awaited ha, hshape] at h
        exact .inr (eq_of_next_eq_next h ▸ rfl)

/-- The engine's end of a response (R254), read off its payload. -/
theorem State.xferResponse_ends (s : State) (f : Frame) :
    (4 ≤ f.data.length ∧ f.data.getD 0 0 = 0x01 ∧ (f.data.getD 1 0).toNat = s.regs.xfer.cur
      ∧ (s.xferResponse f).regs.xfer.st = .next ∧ (s.xferResponse f).regs.xfer.cur = s.regs.xfer.cur + 1)
    ∨ (4 ≤ f.data.length ∧ f.data.getD 0 0 = 0x00
      ∧ s.xferResponse f = (s.pushLog (.chunkNacked s.regs.xfer.cur (f.data.getD 1 0))).attemptFailed)
    ∨ (s.xferResponse f).regs.xfer = s.regs.xfer := by
  rcases s.xferResponse_cases f with ⟨a, ha, hstatus, hecho, h⟩ | ⟨a, ha, hstatus, h⟩ | h
  · obtain ⟨hlen, h0, h1⟩ := ackUnpack_fields ha
    exact .inl ⟨hlen, h0.symm.trans hstatus, h1 ▸ hecho, h ▸ rfl, h ▸ rfl⟩
  · obtain ⟨hlen, h0, h1⟩ := ackUnpack_fields ha
    exact .inr (.inl ⟨hlen, h0.symm.trans hstatus, h1 ▸ h⟩)
  · exact .inr (.inr (h ▸ rfl))

/-! ### The rows of the transition table (R242) -/

/-- How X_SEND ends: with the wait, with one more send, or with the end of the session. -/
theorem State.sendChunk_ends (s : State) :
    (s.sendOk = true ∧ s.sendChunk.regs.xfer.st = .wait)
    ∨ (s.sendOk = false ∧ s.sendChunk.regs.xfer.st = .send)
    ∨ (s.sendOk = false ∧ s.regs.xfer.maxr.toNat < s.regs.xfer.att + 1 ∧ s.sendChunk.regs.xfer.st = .idle
      ∧ s.sendChunk.regs.xfer.result = .failed s.regs.xfer.cur s.regs.xfer.maxr) := by
  have hends := ((s.afterSend s.chunkFrame).pushLog (.txFail s.requestId)).attemptFailed_ends
  rw [State.pushLog_regs, State.afterSend_regs] at hends
  cases hok : s.sendOk with
  | true =>
    rw [State.sendChunk_of_ok hok]
    exact .inl ⟨rfl, rfl⟩
  | false =>
    rw [State.sendChunk_of_fail hok]
    rcases hends with ⟨-, hsend, -⟩ | ⟨hatt, hidle, hresult, -⟩
    · exact .inr (.inl ⟨rfl, hsend⟩)
    · exact .inr (.inr ⟨rfl, hatt, hidle, hresult⟩)

/-- Settles O45: of the operations that write the session, each changes the control state along its rows only. -/
theorem transferStateTransitions : Obligations.TransferStateTransitions := by
  intro i s t h hne
  obtain ⟨-, -, -, -, hwriter, -⟩ := writersOfState i s t h
  rcases hwriter fun heq => hne (congrArg Xfer.st heq) with
    ⟨b, base, seg, tmo, maxr, rfl⟩ | rfl | rfl | rfl | rfl | rfl | rfl
  -- XFER_START.
  · rcases exec_xferStart_cases h with ⟨hst, rfl⟩ | hret
    · exact .inl ⟨hst, rfl, b, base, seg, tmo, maxr, rfl⟩
    · exact absurd (congrArg (·.xfer.st) hret.kept.1) hne
  -- XFER_ABORT has no row.
  · exact absurd (exec_xferAbort_kept h).1 hne
  -- RX_FRAME.
  · rcases exec_rxFrame_cases h with ⟨f, rest, hq, ha, rfl⟩ | hkept
    case inr => exact absurd (congrArg Xfer.st hkept) hne
    refine .inr (.inr (.inr (.inl ⟨ha.1, rfl, f, rest, hq, ha, ?_⟩)))
    rcases (s.setRxq rest).xferResponse_ends f with ⟨hlen, hack, hecho, hnext, -⟩ | ⟨hlen, hnack, hfail⟩ | hkept
    · exact ⟨hlen, .inl ⟨hack, hecho, hnext⟩⟩
    · rw [hfail]
      rcases ((s.setRxq rest).pushLog (.chunkNacked s.regs.xfer.cur (f.data.getD 1 0))).attemptFailed_ends with
        ⟨hatt, hsend, -⟩ | ⟨hatt, hidle, hresult, -⟩
      · exact ⟨hlen, .inr (.inl ⟨hnack, hatt, hsend⟩)⟩
      · exact ⟨hlen, .inr (.inr ⟨hnack, hatt, hidle, hresult⟩)⟩
    · exact absurd (congrArg Xfer.st hkept) hne
  -- X_NEXT.
  · rcases exec_xNext_cases h with ⟨hst, hcur, rfl⟩ | ⟨hst, hcur, habort, rfl⟩ | ⟨hst, hcur, habort, rfl⟩ | rfl
    · exact .inr (.inl ⟨hst, rfl, .inl ⟨hcur, rfl, rfl⟩⟩)
    · exact .inr (.inl ⟨hst, rfl, .inr (.inl ⟨hcur, habort, rfl, rfl⟩)⟩)
    · exact .inr (.inl ⟨hst, rfl, .inr (.inr ⟨hcur, habort, rfl⟩)⟩)
    · exact absurd rfl hne
  -- X_SEND.
  · rcases exec_xSend_cases h with ⟨hst, rfl⟩ | rfl
    case inr => exact absurd rfl hne
    rcases s.sendChunk_ends with ⟨hok, hwait⟩ | ⟨-, hsend⟩ | ⟨hfail, hatt, hidle, hresult⟩
    · exact .inr (.inr (.inl ⟨hst, rfl, .inl ⟨hok, hwait⟩⟩))
    · exact absurd (hsend.trans hst.symm) hne
    · exact .inr (.inr (.inl ⟨hst, rfl, .inr ⟨hfail, hatt, hidle, hresult⟩⟩))
  -- X_TMO.
  · rcases exec_xTmo_cases h with ⟨hst, hle, d, rfl⟩ | ⟨d, rfl⟩
    case inr => exact absurd rfl hne
    refine .inr (.inr (.inr (.inr (.inl ⟨hst, rfl, hle, ?_⟩))))
    rcases (State.pushLog { s with draws := d } (.chunkTimeout s.regs.xfer.cur)).attemptFailed_ends with
      ⟨hatt, hsend, -⟩ | ⟨hatt, hidle, hresult, -⟩
    · exact .inl ⟨hatt, hsend⟩
    · exact .inr ⟨hatt, hidle, hresult⟩
  -- SOFT_RESET.
  · rw [eq_of_next_eq_next h]
    exact .inr (.inr (.inr (.inr (.inr ⟨rfl, rfl, rfl⟩))))

/-! ### The order of the chunks (R256) -/

/-- A failed attempt stays at its chunk. -/
theorem State.attemptFailed_cur (s : State) : s.attemptFailed.regs.xfer.cur = s.regs.xfer.cur := by
  rcases s.attemptFailed_ends with ⟨-, -, hcur⟩ | ⟨-, -, -, hcur⟩ <;> exact hcur

theorem State.sendChunk_cur (s : State) : s.sendChunk.regs.xfer.cur = s.regs.xfer.cur := by
  have hsend : (s.afterSend s.chunkFrame).regs.xfer.cur = s.regs.xfer.cur := by rw [State.afterSend_regs]
  unfold State.sendChunk
  split
  · exact hsend
  · exact (State.attemptFailed_cur _).trans hsend

/-- X_NEXT stays at its chunk and sends nothing. -/
theorem exec_xNext_kept {s t : State} (h : exec .xNext s = .next t) :
    t.regs.xfer.cur = s.regs.xfer.cur ∧ t.sent = s.sent := by
  rcases exec_xNext_cases h with ⟨-, -, rfl⟩ | ⟨-, -, -, rfl⟩ | ⟨-, -, -, rfl⟩ | rfl <;> exact ⟨rfl, rfl⟩

/-- X_TMO stays at its chunk and sends nothing. -/
theorem exec_xTmo_kept {s t : State} (h : exec .xTmo s = .next t) :
    t.regs.xfer.cur = s.regs.xfer.cur ∧ t.sent = s.sent := by
  rcases exec_xTmo_cases h with ⟨-, -, d, rfl⟩ | ⟨d, rfl⟩
  · refine ⟨State.attemptFailed_cur _, ?_⟩
    obtain ⟨x, l, hshape⟩ := (State.pushLog { s with draws := d } (.chunkTimeout s.regs.xfer.cur)).attemptFailed_shape
    rw [hshape]
    rfl
  · exact ⟨rfl, rfl⟩

/-- The chunk index stays, moves by one on an acknowledgment of its chunk, or is 0 at a start or reset. -/
theorem exec_cur_cases {i : Instr} {s t : State} (h : exec i s = .next t) :
    t.regs.xfer.cur = s.regs.xfer.cur
    ∨ (t.regs.xfer.cur = s.regs.xfer.cur + 1 ∧ i = .rxFrame ∧ ∃ f rest, s.rxq = f :: rest ∧ Awaited s f
      ∧ 4 ≤ f.data.length ∧ f.data.getD 0 0 = 0x01 ∧ (f.data.getD 1 0).toNat = s.regs.xfer.cur)
    ∨ (t.regs.xfer.cur = 0 ∧ (i = .softReset ∨ ∃ b base seg tmo maxr, i = .xferStart b base seg tmo maxr)) := by
  by_cases hkept : t.regs.xfer = s.regs.xfer
  case pos => exact .inl (congrArg Xfer.cur hkept)
  obtain ⟨-, -, -, -, hwriter, -⟩ := writersOfState i s t h
  rcases hwriter hkept with ⟨b, base, seg, tmo, maxr, rfl⟩ | rfl | rfl | rfl | rfl | rfl | rfl
  -- XFER_START.
  · rcases exec_xferStart_cases h with ⟨-, rfl⟩ | hret
    · exact .inr (.inr ⟨rfl, .inr ⟨b, base, seg, tmo, maxr, rfl⟩⟩)
    · exact .inl (congrArg (·.xfer.cur) hret.kept.1)
  -- XFER_ABORT.
  · exact .inl (exec_xferAbort_kept h).2.1
  -- RX_FRAME.
  · rcases exec_rxFrame_cases h with ⟨f, rest, hq, ha, rfl⟩ | hsame
    case inr => exact absurd hsame hkept
    rcases (s.setRxq rest).xferResponse_ends f with ⟨hlen, hack, hecho, -, hcur⟩ | ⟨-, -, hfail⟩ | hsame
    · exact .inr (.inl ⟨hcur, rfl, f, rest, hq, ha, hlen, hack, hecho⟩)
    · exact .inl (hfail ▸ State.attemptFailed_cur _)
    · exact absurd hsame hkept
  -- X_NEXT.
  · exact .inl (exec_xNext_kept h).1
  -- X_SEND.
  · rcases exec_xSend_cases h with ⟨-, rfl⟩ | rfl
    · exact .inl s.sendChunk_cur
    · exact .inl rfl
  -- X_TMO.
  · exact .inl (exec_xTmo_kept h).1
  -- SOFT_RESET.
  · rw [eq_of_next_eq_next h]
    exact .inr (.inr ⟨rfl, .inl rfl⟩)

/-- X_SEND sends the frame of the current chunk, or is not enabled. -/
theorem exec_xSend_sent {s t : State} (h : exec .xSend s = .next t) :
    t.sent = s.sent ∨ (s.regs.xfer.st = .send ∧ t.sent = s.sent ++ [⟨s.chunkFrame, s.sendOk⟩]) := by
  rcases exec_xSend_cases h with ⟨hst, rfl⟩ | rfl
  · obtain ⟨x, l, hshape⟩ := s.sendChunk_shape
    rw [hshape]
    exact .inr ⟨hst, s.afterSend_sent s.chunkFrame⟩
  · exact .inl rfl

theorem exec_xferStart_sent {s t : State} {b : List Byte} {base : BitVec 29} {seg : Nat} {tmo : BitVec 32}
    {maxr : Byte} (h : exec (.xferStart b base seg tmo maxr) s = .next t) : t.sent = s.sent := by
  rcases exec_xferStart_cases h with ⟨-, rfl⟩ | hret
  · rfl
  · exact hret.kept.2.1.sent

/-- Only X_SEND and TX_RECORD hand frames to the transport, and TX_RECORD's are standard. -/
theorem exec_sent_cases {i : Instr} {s t : State} (h : exec i s = .next t) :
    t.sent = s.sent
    ∨ (i = .xSend ∧ s.regs.xfer.st = .send ∧ t.sent = s.sent ++ [⟨s.chunkFrame, s.sendOk⟩])
    ∨ ((∃ c seg pr, i = .txRecord c seg pr) ∧ ∃ f, f.ext = false ∧ t.sent = s.sent ++ [⟨f, s.sendOk⟩]) := by
  rcases exec_cases h with ⟨-, hret⟩ | ⟨htx, hret | ⟨f, a, d, l, r, hext, rfl⟩⟩ | ⟨-, lk, sq, l, r, d, rfl⟩
      | ⟨-, sq, l, r, d, rfl⟩ | ⟨⟨b, base, seg, tmo, maxr, rfl⟩ | rfl | rfl | rfl | rfl, -⟩ | ⟨-, rc, lk, x, l, rfl⟩
      | ⟨-, m, rfl⟩ | ⟨-, rfl⟩ | ⟨-, n, rfl⟩ | ⟨hd, q, rfl⟩
  -- The pure reads and a refused TX_RECORD only return.
  · exact .inl hret.kept.2.1.sent
  · exact .inl hret.kept.2.1.sent
  · exact .inr (.inr ⟨htx, f, hext, rfl⟩)
  · exact .inl rfl
  · exact .inl rfl
  -- XFER_START, XFER_ABORT, X_NEXT, X_SEND, X_TMO.
  · exact .inl (exec_xferStart_sent h)
  · exact .inl (exec_xferAbort_kept h).2.2
  · exact .inl (exec_xNext_kept h).2
  · exact (exec_xSend_sent h).imp id fun hsent => .inl ⟨rfl, hsent⟩
  · exact .inl (exec_xTmo_kept h).2
  all_goals exact .inl rfl

/-- Settles O46: the chunk index by `exec_cur_cases`, the frames sent by `exec_sent_cases`; X_SEND's frame names the
current chunk. -/
theorem chunksGoInOrder : Obligations.ChunksGoInOrder :=
  fun _ _ _ h => ⟨exec_cur_cases h,
    (exec_sent_cases h).imp id (.imp (fun ⟨hi, hst, hsent⟩ => ⟨hi, hst, _, hsent⟩) id)⟩

end Sys2Proof.Machine
end

section
/-!
The statements of the system operations (45_system.md): rejected commands (R298), SEG_SET and SEG_GET (R290, R294),
REC_READ (R292) and SOFT_RESET (R296).
-/

namespace Sys2Proof.Machine

/-! ### Rejected commands -/

/-- The host's codes are those below `0x80` (R106). -/
theorem lt_of_mem_hostCodes {n : Nat} (h : n ∈ hostCodes) : n < 0x80 := by
  have hall : ∀ m ∈ hostCodes, m < 0x80 := by decide
  exact hall n h

/-- A code of another agent's step is not the host's, whatever follows it. -/
theorem fetchInput_host_of_agent_code {code : Byte} (s : State) (ops : List Byte) (hcode : 0x80 ≤ code.toNat) :
    fetchInput (.host (code :: ops)) s = .done (s.raise (.badCommand code)) :=
  if_neg (Nat.not_lt.mpr hcode)

theorem fetchInput_host_of_decode_error {code : Byte} {ops : List Byte} {e : DecodeError} (s : State)
    (hcode : code.toNat < 0x80) (he : decode (.cmd (code :: ops)) = .error e) :
    fetchInput (.host (code :: ops)) s = .done (s.rejectCommand e) := by
  have hcmd : decodeCmd (code :: ops) = .error e := he
  simp only [fetchInput, fetchHost, if_pos hcode, hcmd]

theorem fetchInput_host_of_not_mem_hostCodes {code : Byte} (s : State) (ops : List Byte)
    (hcode : code.toNat ∉ hostCodes) :
    fetchInput (.host (code :: ops)) s = .done (s.raise (.badCommand code)) := by
  rcases Nat.lt_or_ge code.toNat 0x80 with hlt | hge
  · exact fetchInput_host_of_decode_error s hlt (decodeCmd_of_not_hostCode code ops hcode hlt)
  · exact fetchInput_host_of_agent_code s ops hge

/-- XFER_START during a session is busy, whatever its operands (R316, log entry 17). -/
theorem State.rejectCommand_of_busy {s : State} (hst : s.regs.xfer.st ≠ .idle) :
    s.rejectCommand (.badOperand 0x40) = s.raise .xferBusy :=
  if_pos ⟨rfl, hst⟩

theorem State.rejectCommand_of_not_busy {s : State} {code : Byte} (h : ¬ (code = 0x40 ∧ s.regs.xfer.st ≠ .idle)) :
    s.rejectCommand (.badOperand code) = s.raise (.badOperand code) :=
  if_neg h

/-- Settles O2: a code that is not the host's is told by its name, and a command whose operands cannot be read goes
through `State.rejectCommand`. -/
theorem rejectedCommandOnlyRaises : Obligations.RejectedCommandOnlyRaises := by
  refine fun s code ops rest hin => ⟨fun hcode => ?badCommand, fun hcode hdec hfree => ?badOperand,
    fun hcode hdec hst => ?busy⟩
  case badCommand =>
    exact step_of_fetchInput_done hin (fetchInput_host_of_not_mem_hostCodes _ ops hcode)
  case badOperand =>
    have hnotBusy : ¬ (code = 0x40 ∧ (s.setInputs rest).regs.xfer.st ≠ .idle) :=
      fun ⟨hc, hst⟩ => hfree ⟨congrArg BitVec.toNat hc, hst⟩
    rw [step_of_fetchInput_done hin (fetchInput_host_of_decode_error _ (lt_of_mem_hostCodes hcode) hdec),
      State.rejectCommand_of_not_busy hnotBusy]
    rfl
  case busy =>
    obtain rfl : code = 0x40 := BitVec.eq_of_toNat_eq hcode
    rw [step_of_fetchInput_done hin (fetchInput_host_of_decode_error _ (by decide) hdec),
      State.rejectCommand_of_busy (s := s.setInputs rest) hst]
    rfl

/-! ### SEG_SET and SEG_GET -/

/-- Bit `j` of a mask cut to the segments of the configuration (R28). -/
theorem getLsbD_and_ofNat (mask : Byte) (n : Nat) {j : Nat} (hj : j < 8) :
    (mask &&& BitVec.ofNat 8 (2 ^ n - 1)).getLsbD j = (mask.getLsbD j && decide (j < n)) := by
  rw [BitVec.getLsbD_and, BitVec.getLsbD_ofNat, Nat.testBit_two_pow_sub_one, decide_eq_true hj, Bool.true_and]

/-- Settles O48: SEG_SET writes the mask cut to `N_SEG` bits, read bit by bit, and SEG_GET only returns. -/
theorem segmentMaskSetAndGet : Obligations.SegmentMaskSetAndGet :=
  fun s mask => ⟨⟨mask &&& BitVec.ofNat 8 (2 ^ s.cfg.nSeg - 1), rfl, fun _ hj => getLsbD_and_ofNat mask _ hj⟩, rfl⟩

/-! ### REC_READ -/

theorem exec_recRead_of_some {s : State} {c seg : Nat} {k : MsgClass} (hk : s.cfg.classes[c]? = some k) :
    exec (.recRead c seg) s = if k.dir = .rx ∧ seg < s.cfg.nSeg then answer s (.recSlot (s.record c seg))
      else raised s (.badOperand 0x51) := by
  simp only [exec, execRecRead, hk]

theorem exec_recRead_of_none {s : State} {c : Nat} (hk : s.cfg.classes[c]? = none) (seg : Nat) :
    exec (.recRead c seg) s = raised s (.badOperand 0x51) := by
  simp only [exec, execRecRead, hk]

/-- Settles O49: a class number without a class, a class that is not RX and a segment out of range are refused; what
is left is answered. -/
theorem recReadReturnsSlot : Obligations.RecReadReturnsSlot := by
  refine fun s c seg => ⟨fun k hk hdir hseg => ?inRange, fun hbad => ?refused⟩
  case inRange => exact (exec_recRead_of_some hk).trans (if_pos ⟨hdir, hseg⟩)
  case refused =>
    cases hk : s.cfg.classes[c]? with
    | none => exact exec_recRead_of_none hk seg
    | some k =>
      have hout : ¬ (k.dir = .rx ∧ seg < s.cfg.nSeg) := fun ⟨hdir, hseg⟩ => Nat.not_lt.mpr (hbad k hk hdir) hseg
      exact (exec_recRead_of_some hk).trans (if_neg hout)

/-! ### SOFT_RESET -/

theorem exec_softReset (s : State) : exec .softReset s = .next (s.resetBlock.setRet .done) := rfl

/-- Settles O50: SOFT_RESET is the reset of the block, after which the registers are those of `resetLeavesS`. -/
theorem softResetRestoresS : Obligations.SoftResetRestoresS := by
  intro s
  obtain ⟨⟨hsegEn, hrecord, hlink, hseq, -⟩, -⟩ := resetLeavesS
  exact ⟨_, exec_softReset s, hsegEn, hrecord, hlink, hseq, rfl, rfl, rfl, fun _ => rfl, rfl, rfl, rfl, rfl, rfl, rfl,
    rfl, rfl, rfl, rfl, rfl, rfl, ⟨rfl, rfl, rfl, rfl, rfl, rfl, rfl, rfl⟩, rfl⟩

end Sys2Proof.Machine
end

section
/-!
The statements of the exceptions (60_exceptions.md): no step stops under ConfigWF, and an instruction is refused exactly
where `Stops` says (R310); the timer's step TICK (R326).
-/

namespace Sys2Proof.Machine

/-! ### Outcomes that go on -/

/-- The machine goes on: there is a next state (R310). -/
def GoesOn (o : Host.Outcome State Fault Refusal) : Prop := ∃ t, o = .next t

theorem goesOn_next (t : State) : GoesOn (.next t) := ⟨t, rfl⟩

theorem goesOn_answer (s : State) (r : Ret) : GoesOn (answer s r) := ⟨_, rfl⟩

theorem goesOn_raised (s : State) (e : Event) : GoesOn (raised s e) := ⟨_, rfl⟩

theorem GoesOn.ite {p : Prop} [Decidable p] {o o' : Host.Outcome State Fault Refusal} (h : GoesOn o)
    (h' : GoesOn o') : GoesOn (if p then o else o') := by
  split
  · exact h
  · exact h'

theorem GoesOn.ne_refused {o : Host.Outcome State Fault Refusal} (h : GoesOn o) (r : Refusal) : o ≠ .refused r := by
  obtain ⟨t, rfl⟩ := h
  nofun

/-- There is no fault, so that what is not refused goes on. -/
theorem goesOn_of_forall_ne_refused {o : Host.Outcome State Fault Refusal} (h : ∀ r, o ≠ .refused r) : GoesOn o := by
  cases o with
  | next t => exact goesOn_next t
  | fault r => exact nomatch r
  | refused r => exact absurd rfl (h r)

/-! ### The instructions that are never refused -/

/-- The five operations that meet an entry of the configuration the model refuses (log entry 14). -/
def canRefuse : Instr → Bool
  | .decode _ _ | .encode _ _ | .resolve _ _ | .txRecord _ _ _ | .rxFrame => true
  | _ => false

theorem canRefuse_of_stops {i : Instr} {s : State} {r : Refusal} (h : Stops s i r) : canRefuse i = true := by
  cases h <;> rfl

theorem goesOn_exec_rangechk (c : Nat) (r : Record) (s : State) : GoesOn (exec (.rangechk c r) s) := by
  show GoesOn (execRangechk c r s)
  unfold execRangechk
  split
  · exact .ite (goesOn_answer _ _) (goesOn_raised _ _)
  · exact goesOn_raised _ _

theorem goesOn_exec_seqCur (q : Nat) (s : State) : GoesOn (exec (.seqCur q) s) := by
  refine .ite ?_ (goesOn_raised _ _)
  split <;> exact goesOn_answer _ _

theorem goesOn_exec_recRead (c seg : Nat) (s : State) : GoesOn (exec (.recRead c seg) s) := by
  show GoesOn (execRecRead c seg s)
  unfold execRecRead
  split
  · exact .ite (goesOn_answer _ _) (goesOn_raised _ _)
  · exact goesOn_raised _ _

/-- Every other instruction goes on in every state: along the tests of its meaning, each path ends with a result, an
outcome raised (R318), or a next state of a step of the engine, the timer or the bus. -/
theorem goesOn_exec {i : Instr} (hi : canRefuse i = false) (s : State) : GoesOn (exec i s) := by
  cases i with
  | decode | encode | resolve | txRecord | rxFrame => cases hi
  | rangechk c r => exact goesOn_exec_rangechk c r s
  | seqCur q => exact goesOn_exec_seqCur q s
  | recRead c seg => exact goesOn_exec_recRead c seg s
  | ackpack | classify | xferStat | segSet | segGet | softReset => exact goesOn_answer _ _
  | ackunpack | xidReq | xidRsp | xidParse | lhElapsed | lhRx | lhDisc | lhStat | seqAdv | seqRst =>
    exact .ite (goesOn_answer _ _) (goesOn_raised _ _)
  | lhCheck => exact .ite (.ite (goesOn_answer _ _) (goesOn_answer _ _)) (goesOn_raised _ _)
  | xferStart =>
    exact .ite (goesOn_raised _ _) (.ite (goesOn_raised _ _) (.ite (goesOn_raised _ _)
      (.ite (goesOn_raised _ _) (goesOn_answer _ _))))
  | xferAbort => exact .ite (goesOn_raised _ _) (goesOn_answer _ _)
  | xNext => exact .ite (.ite (goesOn_next _) (.ite (goesOn_next _) (goesOn_next _))) (goesOn_next _)
  | xSend | xTmo => exact .ite (.ite (goesOn_next _) (goesOn_next _)) (goesOn_next _)
  | tick | fTelem | fXreq | fXrsp | pFields | pAck | pAckAck | pAckNack | pChunk => exact goesOn_next _

/-! ### Why a table is refused (R64, R144) -/

theorem hasFieldOutsideWord_eq_true (t : FieldTable) : hasFieldOutsideWord t = true ↔ ¬ ∀ e ∈ t, InWord e := by
  rw [← hasFieldOutsideWord_eq_false, Bool.not_eq_false]

theorem hasZeroFactor_eq_true (t : FieldTable) : hasZeroFactor t = true ↔ ¬ ∀ e ∈ t, e.factor ≠ 0 := by
  rw [← hasZeroFactor_eq_false, Bool.not_eq_false]

/-- ENCODE's refusal of a table: a field outside the word comes before a factor 0 (R64, R144). -/
theorem encodeRefusal_eq_some {t : FieldTable} {r : Refusal} : encodeRefusal t = some r ↔
    (¬ (∀ e ∈ t, InWord e) ∧ .fieldOutsideWord = r)
    ∨ ((∀ e ∈ t, InWord e) ∧ ¬ (∀ e ∈ t, e.factor ≠ 0) ∧ .zeroFactor = r) := by
  rw [← hasFieldOutsideWord_eq_true, ← hasFieldOutsideWord_eq_false, ← hasZeroFactor_eq_true]
  rcases encodeRefusal_cases t with ⟨hout, h⟩ | ⟨hin, hzero, h⟩ | ⟨hin, hfac, h⟩
  · simp [h, hout]
  · simp [h, hin, hzero]
  · simp [h, hin, hfac]

/-- Under ConfigWF the tables have no entry the model refuses (R23, R25 a). -/
theorem entries_of_configWF {s : State} (hwf : ConfigWF s.cfg) {c : Nat} {k : MsgClass}
    (hk : s.cfg.classes[c]? = some k) : (∀ e ∈ k.table, InWord e) ∧ ∀ e ∈ k.table, e.factor ≠ 0 :=
  (encodeRefusal_eq_none _).mp (encodeRefusal_of_tableWF (tableWF_of_configWF hwf hk))

/-! ### Where the five operations are refused -/

theorem exec_resolve_refused_iff {s : State} {c seg : Nat} {r : Refusal} :
    exec (.resolve c seg) s = .refused r ↔ Stops s (.resolve c seg) r := by
  constructor
  case mp =>
    intro h
    cases hk : s.cfg.classes[c]? with
    | none => cases (exec_resolve_badOperand (.inl hk)).symm.trans h
    | some k =>
      rcases Nat.lt_or_ge seg s.cfg.nSeg with hseg | hseg
      case inr => cases (exec_resolve_badOperand (.inr hseg)).symm.trans h
      rcases Nat.lt_or_ge Config.stdIdMax (telemId k.base seg) with hid | hid
      · cases (exec_resolve_of_overflow hk hseg hid).symm.trans h
        exact .resolve c seg k hk hseg hid
      · cases (exec_resolve_of_le hk hseg hid).symm.trans h
  case mpr =>
    intro h
    cases h with
    | resolve _ _ k hk hseg hid => exact exec_resolve_of_overflow hk hseg hid

theorem exec_decode_of_outside {s : State} {c : Nat} {k : MsgClass} {p : List Byte} (hk : s.cfg.classes[c]? = some k)
    (hp : p.length ≤ 8) (hout : ¬ ∀ e ∈ k.table, InWord e) : exec (.decode c p) s = .refused .fieldOutsideWord := by
  have hrefused := (hasFieldOutsideWord_eq_true k.table).mpr hout
  simp only [exec, execDecode, hk, Config.payloadBytes, if_pos hp, if_pos hrefused]

theorem exec_decode_refused_iff {s : State} {c : Nat} {p : List Byte} {r : Refusal} :
    exec (.decode c p) s = .refused r ↔ Stops s (.decode c p) r := by
  constructor
  case mp =>
    intro h
    cases hk : s.cfg.classes[c]? with
    | none => cases (exec_decode_badOperand (.inl hk)).symm.trans h
    | some k =>
      rcases Nat.lt_or_ge 8 p.length with hp | hp
      case inl => cases (exec_decode_badOperand (.inr hp)).symm.trans h
      by_cases hin : ∀ e ∈ k.table, InWord e
      · cases (exec_decode_of_inWord hk hp hin).symm.trans h
      · cases (exec_decode_of_outside hk hp hin).symm.trans h
        exact .decode c p k hk hp hin
  case mpr =>
    intro h
    cases h with
    | decode _ _ k hk hp hout => exact exec_decode_of_outside hk hp hout

theorem exec_encode_of_refused {s : State} {c : Nat} {k : MsgClass} {pr : PhysRecord} {r : Refusal}
    (hk : s.cfg.classes[c]? = some k) (hlen : pr.length = k.table.length) (hr : encodeRefusal k.table = some r) :
    exec (.encode c pr) s = .refused r := by
  simp only [exec, execEncode, hk, if_pos hlen, hr]

theorem exec_encode_refused_iff {s : State} {c : Nat} {pr : PhysRecord} {r : Refusal} :
    exec (.encode c pr) s = .refused r ↔ Stops s (.encode c pr) r := by
  constructor
  case mp =>
    intro h
    by_cases hoperands : ∃ k, s.cfg.classes[c]? = some k ∧ pr.length = k.table.length
    case neg =>
      cases (exec_encode_badOperand fun k hk hlen => hoperands ⟨k, hk, hlen⟩).symm.trans h
    obtain ⟨k, hk, hlen⟩ := hoperands
    cases hr : encodeRefusal k.table with
    | none => cases (exec_encode_of_not_refused hk hlen hr).symm.trans h
    | some r' =>
      cases (exec_encode_of_refused hk hlen hr).symm.trans h
      rcases encodeRefusal_eq_some.mp hr with ⟨hout, rfl⟩ | ⟨hin, hzero, rfl⟩
      · exact .encodeField c pr k hk hlen hout
      · exact .encodeFactor c pr k hk hlen hin hzero
  case mpr =>
    intro h
    cases h with
    | encodeField _ _ k hk hlen hout =>
      exact exec_encode_of_refused hk hlen (encodeRefusal_eq_some.mpr (.inl ⟨hout, rfl⟩))
    | encodeFactor _ _ k hk hlen hin hzero =>
      exact exec_encode_of_refused hk hlen (encodeRefusal_eq_some.mpr (.inr ⟨hin, hzero, rfl⟩))

theorem exec_txRecord_of_overflow {s : State} {c seg : Nat} {pr : PhysRecord} {k : MsgClass}
    (h : Transmits s c seg pr k) (hid : Config.stdIdMax < telemId k.base seg) :
    exec (.txRecord c seg pr) s = .refused .identifierOverflow := by
  obtain ⟨hk, hoperands⟩ := h
  simp only [exec, execTxRecord, hk, if_pos hoperands, if_pos hid]

theorem exec_txRecord_of_refused {s : State} {c seg : Nat} {pr : PhysRecord} {k : MsgClass} {r : Refusal}
    (h : Transmits s c seg pr k) (hid : telemId k.base seg ≤ Config.stdIdMax) (hr : encodeRefusal k.table = some r) :
    exec (.txRecord c seg pr) s = .refused r := by
  obtain ⟨hk, hoperands⟩ := h
  simp only [exec, execTxRecord, hk, if_pos hoperands, if_neg (Nat.not_lt.mpr hid), hr]

theorem exec_txRecord_refused_iff {s : State} {c seg : Nat} {pr : PhysRecord} {r : Refusal} :
    exec (.txRecord c seg pr) s = .refused r ↔ Stops s (.txRecord c seg pr) r := by
  constructor
  case mp =>
    intro h
    by_cases hoperands : ∃ k, Transmits s c seg pr k
    case neg =>
      cases (exec_txRecord_badOperand fun k htx => hoperands ⟨k, htx⟩).symm.trans h
    obtain ⟨k, htx⟩ := hoperands
    rcases Nat.lt_or_ge Config.stdIdMax (telemId k.base seg) with hid | hid
    case inl =>
      cases (exec_txRecord_of_overflow htx hid).symm.trans h
      exact .sendIdentifier c seg pr k htx hid
    cases hr : encodeRefusal k.table with
    | none => cases (exec_txRecord_of_transmits htx hid hr).symm.trans h
    | some r' =>
      cases (exec_txRecord_of_refused htx hid hr).symm.trans h
      rcases encodeRefusal_eq_some.mp hr with ⟨hout, rfl⟩ | ⟨hin, hzero, rfl⟩
      · exact .sendField c seg pr k htx hid hout
      · exact .sendFactor c seg pr k htx hid hin hzero
  case mpr =>
    intro h
    cases h with
    | sendIdentifier _ _ _ k htx hid => exact exec_txRecord_of_overflow htx hid
    | sendField _ _ _ k htx hid hout =>
      exact exec_txRecord_of_refused htx hid (encodeRefusal_eq_some.mpr (.inl ⟨hout, rfl⟩))
    | sendFactor _ _ _ k htx hid hin hzero =>
      exact exec_txRecord_of_refused htx hid (encodeRefusal_eq_some.mpr (.inr ⟨hin, hzero, rfl⟩))

theorem exec_rxFrame_of_refused {s : State} {f : Frame} {rest : List Frame} (hq : s.rxq = f :: rest)
    (h : s.refusesFrame f = true) : exec .rxFrame s = .refused .fieldOutsideWord := by
  simp only [exec, execRxFrame, hq, if_pos h]

theorem exec_rxFrame_of_empty {s : State} (hq : s.rxq = []) : exec .rxFrame s = .next s := by
  simp only [exec, execRxFrame, hq]

theorem exec_rxFrame_refused_iff {s : State} {r : Refusal} :
    exec .rxFrame s = .refused r ↔ Stops s .rxFrame r := by
  constructor
  case mp =>
    intro h
    cases hq : s.rxq with
    | nil => cases (exec_rxFrame_of_empty hq).symm.trans h
    | cons f rest =>
      cases hr : s.refusesFrame f with
      | false => cases (exec_rxFrame_of_not_refused hq hr).symm.trans h
      | true =>
        cases (exec_rxFrame_of_refused hq hr).symm.trans h
        obtain ⟨ha, c, seg, k, hu, hk, hout⟩ := (s.refusesFrame_eq_true f).mp hr
        exact .receive f rest c seg k hq ha hu hk ((hasFieldOutsideWord_eq_true _).mp hout)
  case mpr =>
    intro h
    cases h with
    | receive f rest c seg k hq ha hu hk hout =>
      have hout := (hasFieldOutsideWord_eq_true k.table).mpr hout
      exact exec_rxFrame_of_refused hq ((s.refusesFrame_eq_true f).mpr ⟨ha, c, seg, k, hu, hk, hout⟩)

/-! ### Every instruction, every step -/

/-- An instruction is refused exactly where `Stops` says: five operations by their own rules, the others nowhere. -/
theorem exec_refused_iff (i : Instr) (s : State) (r : Refusal) : exec i s = .refused r ↔ Stops s i r := by
  cases hi : canRefuse i with
  | false =>
    exact iff_of_false ((goesOn_exec hi s).ne_refused r)
      fun h => Bool.false_ne_true (hi.symm.trans (canRefuse_of_stops h))
  | true =>
    cases i with
    | resolve => exact exec_resolve_refused_iff
    | decode => exact exec_decode_refused_iff
    | encode => exact exec_encode_refused_iff
    | txRecord => exact exec_txRecord_refused_iff
    | rxFrame => exact exec_rxFrame_refused_iff
    | _ => cases hi

/-- ConfigWF excludes each way to stop (R25 a, b). -/
theorem not_stops_of_configWF {s : State} (hwf : ConfigWF s.cfg) {i : Instr} {r : Refusal} : ¬ Stops s i r := by
  intro h
  cases h with
  | resolve c seg k hk hseg hid => exact Nat.not_lt.mpr (telemId_le_of_configWF hwf hk hseg) hid
  | decode c p k hk _ hout => exact hout (entries_of_configWF hwf hk).1
  | encodeField c pr k hk _ hout => exact hout (entries_of_configWF hwf hk).1
  | encodeFactor c pr k hk _ _ hzero => exact hzero (entries_of_configWF hwf hk).2
  | sendIdentifier c seg pr k h hid =>
    obtain ⟨hk, -, hseg, -⟩ := h
    exact Nat.not_lt.mpr (telemId_le_of_configWF hwf hk hseg) hid
  | sendField c seg pr k h _ hout => exact hout (entries_of_configWF hwf h.1).1
  | sendFactor c seg pr k h _ _ hzero => exact hzero (entries_of_configWF hwf h.1).2
  | receive f rest c seg k _ _ _ hk hout => exact hout (entries_of_configWF hwf hk).1

theorem goesOn_exec_of_configWF {s : State} (hwf : ConfigWF s.cfg) (i : Instr) : GoesOn (exec i s) :=
  goesOn_of_forall_ne_refused fun r h => not_stops_of_configWF hwf ((exec_refused_iff i s r).mp h)

/-- A step runs an instruction under the same CFG, or is a move that is over. -/
theorem goesOn_step_of_configWF {s : State} (hwf : ConfigWF s.cfg) : GoesOn (step s) := by
  rcases step_cases s with ⟨-, h⟩ | ⟨inp, rest, -, ⟨i, -, h⟩ | h | ⟨e, h⟩ | ⟨f, -, h⟩ | ⟨a, -, h⟩ | ⟨n, -, h⟩ | ⟨-, h⟩⟩
  case inr.inl =>
    rw [h]
    exact goesOn_exec_of_configWF (s := s.setInputs rest) hwf i
  all_goals exact ⟨_, h⟩

/-- Settles O60: an instruction is refused exactly where `Stops` says (`exec_refused_iff`), ConfigWF excludes each of
these cases (`not_stops_of_configWF`), and there is no fault. -/
theorem machineNeverStops : Obligations.MachineNeverStops :=
  ⟨fun _ => goesOn_step_of_configWF, exec_refused_iff⟩

/-! ### TICK -/

theorem Stamp.tick_of_lt {period : Nat} {t : Stamp} (h : t.ticks.toNat + 1 < period) :
    t.tick period = ⟨t.ticks + 1, t.ovf⟩ :=
  if_pos h

theorem Stamp.tick_of_le {period : Nat} {t : Stamp} (h : period ≤ t.ticks.toNat + 1) :
    t.tick period = ⟨0, t.ovf + 1⟩ :=
  if_neg (Nat.not_lt.mpr h)

/-- Settles O52: below a period of at most `2^32` the tick count does not wrap in its word; the overflow count does. -/
theorem tickAdvancesTimer : Obligations.TickAdvancesTimer := by
  refine fun s hperiod => ⟨s.time.tick s.cfg.period, rfl, fun hlt => ?advances, fun hle => ?wraps⟩
  case advances =>
    rw [Stamp.tick_of_lt hlt]
    exact ⟨BitVec.toNat_add_of_lt (Nat.lt_of_lt_of_le hlt hperiod), rfl⟩
  case wraps =>
    rw [Stamp.tick_of_le hle]
    exact ⟨rfl, BitVec.toNat_add _ _⟩

end Sys2Proof.Machine
end
